-- ==== Sys2Proof/Word.lean ====
section
/-! DEFINITION. The byte, the only access width of the block (R32, R35). -/

namespace Sys2Proof

/-- A byte: an unsigned 8-bit value (R8). -/
abbrev Byte := BitVec 8

end Sys2Proof
end

