-- ==== Sys2Proof/Config.lean ====
section
/-! DEFINITION. The hardwired constants (R22), the types of the configuration record CFG (R6, R21) and of the
consumers' parameters (R120), the answers of the environment (R82) and the free values: opaque constants, so that no
proof can see what they are (log 1, 2, 8, 15, 28). -/

namespace Sys2Proof

/-- The order of the 8 bits of a byte on the wire (R21, R33). -/
inductive BitOrder where
  | msbFirst
  | lsbFirst
deriving DecidableEq, Repr, Inhabited

/-- The configuration record CFG as the block holds it (R6, R21). -/
structure Cfg where
  bitOrder : BitOrder
  maxPd : Nat
  txCap : Nat
  tSettle : Nat
  tProbe : Nat
  readPrime : Byte
  statusProbe : Byte
  dummy : Byte
  writePrime : Option Byte
  readyMask : Byte
  readyValue : Bool
  defaultTimeout : Nat
  defaultInterval : Nat
deriving DecidableEq, Repr, Inhabited

/-- The operand of `initialize`: `none` is a field the host omits, which takes its default (R6, R21). READ_PRIME,
STATUS_PROBE, DUMMY and BIT_ORDER have no default and the spec does not say what a request without them stores: each is then
a free value (DESIGN CHOICE, log 28). WRITE_PRIME's default is `none` itself. READY_MASK and READY_VALUE are fixed (D10) and
cannot be given (log 17). -/
structure CfgArg where
  bitOrder : Option BitOrder := none
  readPrime : Option Byte := none
  statusProbe : Option Byte := none
  dummy : Option Byte := none
  writePrime : Option Byte := none
  maxPd : Option Nat := none
  txCap : Option Nat := none
  tSettle : Option Nat := none
  tProbe : Option Nat := none
  defaultTimeout : Option Nat := none
  defaultInterval : Option Nat := none
deriving DecidableEq, Repr, Inhabited

/-- The parameters of the consumer sequences (R120). -/
structure Consumer where
  opcListPassive : Byte
  maxTg : Byte
  brtyIso14443a : Byte
  opcDataExchange : Byte
  mfAuthA : Byte
  mfAuthB : Byte
  mfRead : Byte
  mfWrite : Byte
  respPoll : Bool
deriving DecidableEq, Repr, Inhabited

/-- What the serial transport returns for one exchange (R82): the received byte, or a failure. -/
inductive Answer where
  | ok (rx : Byte)
  | fail
deriving DecidableEq, Repr, Inhabited

/-- The operation codes OPW[7:4] of R57, by name. -/
inductive OpCode where
  | encode | validate | decode | writeFrame | beginRead | continueRead | endRead | readAll
  | issue | pollReady | readResponse | initializeBlock
deriving DecidableEq, Repr, Inhabited

/-- The operand latch: the operation code and its scalar arguments, sampled when an operation starts (R16, R40). -/
structure Latch where
  op : OpCode := .encode
  tfi : Byte := 0
  len : Nat := 0
  timeout : Nat := 0
  interval : Nat := 0
  start : Bool := false
  conclude : Bool := false
deriving DecidableEq, Repr, Inhabited

/-- What a receiver reads from the first 6 bytes (R51): of a normal frame, the TFI and how many bytes follow. -/
inductive FrameClass where
  | ack
  | nack
  | nif (tfi : Byte) (more : Nat)
  | malformed
deriving DecidableEq, Repr, Inhabited

namespace Config

/-- The normal frame's constants (R22, R46). -/
def preamble : Byte := 0x00
def start1 : Byte := 0x00
def start2 : Byte := 0xFF
def postamble : Byte := 0x00

/-- The direction markers (R22, R48). -/
def tfiH2C : Byte := 0xD4
def tfiC2H : Byte := 0xD5

/-- The fixed frames (R49, R50). -/
def ackFrame : List Byte := [0x00, 0x00, 0xFF, 0x00, 0xFF, 0x00]
def nackFrame : List Byte := [0x00, 0x00, 0xFF, 0xFF, 0x00, 0x00]

/-- Bytes read for the ACK check (R6). -/
def ackLen : Nat := 6

/-- Payload bytes before the first named field of a response (R120). -/
def rspCodeLen : Nat := 1

/-- The ISO14443-4 bit of SAK (R122). -/
def sakIso14443_4 : Byte := 0x20

/-- The free value number `k` of an exchange's answer: nothing constrains it (R82, log 1). -/
opaque freeAnswer : Nat → Answer

/-- The free value number `k` of a byte (R44, R27, R21, log 2, log 8, log 28). -/
opaque freeByte : Nat → Byte

/-- The free value number `k` of a natural number (log 8, log 28). -/
opaque freeNat : Nat → Nat

/-- The free value number `k` of the operand latch (log 8). -/
opaque freeLatch : Nat → Latch

/-- The free value number `k` of the bit order (log 28). -/
opaque freeBitOrder : Nat → BitOrder

/-- What `header_ok` says of a chunk of fewer than 6 bytes, where R71 states nothing (log 15). -/
opaque headerOkShort : List Byte → Bool

/-- How fewer than 6 bytes are classified, where R51 states nothing (log 15). -/
opaque classOfShort : List Byte → FrameClass

end Config

end Sys2Proof
end

