-- ==== Sys2Proof/Syntax.lean ====
section
/-! DEFINITION. The instructions: one constructor per row of spec/opcode_table.json, with the records their operands are
made of, and the request that carries one to the block (R57, log 10). -/

namespace Sys2Proof

/-- MIFARE key types (R130). -/
inductive KeyType where
  | a
  | b
deriving DecidableEq, Repr, Inhabited

/-- A detected card (R121). -/
structure TagRecord where
  logical : Byte := 0
  atqa : List Byte := [0, 0]
  sak : Byte := 0
  uid : List Byte := [0, 0, 0, 0]
  ats : Option (List Byte) := none
deriving DecidableEq, Repr, Inhabited

/-- The MIFARE session record (R127). -/
structure Session where
  logical : Byte
  uid : List Byte
deriving DecidableEq, Repr, Inhabited

/-- The rows of the opcode table, in its order. -/
inductive Instr where
  /-- NIF: a normal information frame presented to the block (R46). -/
  | nif (frame : List Byte)
  /-- NIF_H2C: a frame that travels host to chip, TFI = 0xD4 (R48). -/
  | nifH2C (frame : List Byte)
  /-- NIF_C2H: a frame that travels chip to host, TFI = 0xD5 (R48). -/
  | nifC2H (frame : List Byte)
  /-- ACK_FRAME (R49). -/
  | ackFrame
  /-- NACK_FRAME (R50). -/
  | nackFrame
  /-- WRITE_TXN: one write transaction (R52). -/
  | writeTxn (bytes : List Byte)
  /-- READ_TXN: one read transaction of `len` bytes in all, however many operations read them (R53). -/
  | readTxn (len : Nat)
  /-- STATUS_TXN: one status transaction (R54). -/
  | statusTxn
  /-- STATUS_BYTE: the byte a status transaction reads (R55). -/
  | statusByte (s : Byte)
  | encode (tfi : Byte) (payload : List Byte)
  | validate (frame : List Byte)
  | decode (frame : List Byte)
  | writeFrame (bytes : List Byte)
  | beginRead (len : Nat)
  | continueRead (len : Nat)
  | endRead
  | readAll (len : Nat)
  /-- `issue`; an omitted `tfi` is TFI_H2C (R60). -/
  | issue (tfi : Option Byte) (payload : List Byte)
  /-- `poll_ready`; an omitted argument is the one of CFG (R21, R60). -/
  | pollReady (timeout : Option Nat) (interval : Option Nat)
  /-- The generic row: the call with its two booleans (R56). -/
  | readResponse (len : Nat) (start : Bool) (conclude : Bool)
  | readResponseFull (len : Nat)
  | readResponseOpen (len : Nat)
  | readResponseContinue (len : Nat)
  | readResponseClose (len : Nat)
  | initializeBlock (cfg : CfgArg)
  /-- Reserved request words; `low` is OPW[3:0] (R59). -/
  | reservedB (low : BitVec 4)
  | reservedC (low : BitVec 4)
  | reservedD (low : BitVec 4)
  | reservedE (low : BitVec 4)
  | probe
  | isAck (b : List Byte)
  | isNack (b : List Byte)
  | headerOk (h : List Byte)
  | detect
  | bind (tag : TagRecord)
  /-- `authenticate`: on the bound session (`none`), or with the logical number and the 4 UID bytes the row's own words
  carry (R128, R130, log 20). -/
  | authenticate (target : Option (Byte × List Byte)) (keyType : KeyType) (block : Byte) (key : List Byte)
  | readBlock (target : Option Byte) (block : Byte)
  | writeBlock (target : Option Byte) (block : Byte) (data : List Byte)
deriving DecidableEq, Repr

/-- How a request reaches the model: the request word of R57, a frame or a status byte, a consumer sequence named by its
command payload or called on the bound session, or a row without an encoding named directly (log 10). -/
inductive Port where
  | opw
  | frame
  | status
  | sequence
  | session
  | readResponse
  | writeTxn
  | readTxn
  | statusTxn
  | probe
  | isAck
  | isNack
  | headerOk
  | bind
deriving DecidableEq, Repr, Inhabited

/-- The operands that travel beside the encoded bytes (R57); one a request does not use is at its default. With no record
beside it, `initialize` omits every field (log 28). -/
structure Args where
  tfi : Option Byte := none
  len : Nat := 0
  timeout : Option Nat := none
  interval : Option Nat := none
  start : Bool := false
  conclude : Bool := false
  buf : List Byte := []
  cfg : CfgArg := {}
  tag : TagRecord := {}
deriving DecidableEq, Repr, Inhabited

/-- One request on the host port: the encoded bytes and the operands beside them (R57). -/
structure Request where
  port : Port
  bytes : List Byte := []
  args : Args := {}
deriving DecidableEq, Repr, Inhabited

end Sys2Proof
end

