-- ==== Sys2Proof/WellFormed.lean ====
section
/-! DEFINITION. Which instructions are well formed: the operand shapes and ranges the spec gives. -/

namespace Sys2Proof

/-- R121: ATQA is 2 bytes, the UID 4, 7 or 10. -/
def TagRecord.legal (t : TagRecord) : Bool :=
  t.atqa.length == 2 && (t.uid.length == 4 || t.uid.length == 7 || t.uid.length == 10)

/-- The first three bytes of a frame as the block sends it (R46). -/
def startsFrame (f : List Byte) : Bool :=
  f.take 3 == [Config.preamble, Config.start1, Config.start2]

/-- One of the two fixed frames (R49, R50). -/
def fixedFrame (f : List Byte) : Bool :=
  f == Config.ackFrame || f == Config.nackFrame

def Instr.wellFormed : Instr → Bool
  | .nif f => startsFrame f && !fixedFrame f && f[5]? != some Config.tfiH2C && f[5]? != some Config.tfiC2H
  | .nifH2C f => startsFrame f && f[5]? == some Config.tfiH2C
  | .nifC2H f => startsFrame f && f[5]? == some Config.tfiC2H
  | .bind t => t.legal
  | .authenticate (some (_, u)) _ _ key => u.length == 4 && key.length == 6
  | .authenticate none _ _ key => key.length == 6
  | .writeBlock _ _ data => data.length == 16
  | .ackFrame | .nackFrame | .writeTxn _ | .readTxn _ | .statusTxn | .statusByte _ => true
  | .encode _ _ | .validate _ | .decode _ | .writeFrame _ | .beginRead _ | .continueRead _ => true
  | .endRead | .readAll _ | .issue _ _ | .pollReady _ _ | .readResponse _ _ _ => true
  | .readResponseFull _ | .readResponseOpen _ | .readResponseContinue _ | .readResponseClose _ => true
  | .initializeBlock _ | .reservedB _ | .reservedC _ | .reservedD _ | .reservedE _ => true
  | .probe | .isAck _ | .isNack _ | .headerOk _ | .detect | .readBlock _ _ => true

end Sys2Proof
end

