-- ==== Sys2Proof/Decode.lean ====
section
/-! DEFINITION. The decoder, total on any request and rejecting by name, and the encoder written from the same tables
(R46 to R59, R128, spec/opcode_table.json). -/

namespace Sys2Proof

/-- Why a request is no instruction. -/
inductive DecodeError where
  /-- A word of R59 that is reserved and has no row of its own: non-zero OPW[3:2], or mode bits on another operation. -/
  | reservedBits (w : Byte)
  /-- The encoded part is not one byte where the port takes one. -/
  | notOneByte
  /-- Bytes on the frame port that do not start as the block sends a frame. -/
  | noSuchFrame
  /-- A command payload of no consumer sequence. -/
  | noSuchSequence
  /-- An operand whose shape the spec excludes (a key that is not 6 bytes, ...). -/
  | illFormed
deriving DecidableEq, Repr

/-! ## Request words -/

/-- The rows of the table whose format is OPW, but the generic `read_response`, whose words are its four modes' (log 14). -/
inductive OpwKind where
  | encode | validate | decode | writeFrame | beginRead | continueRead | endRead | readAll | issue | pollReady
  | responseFull | responseOpen | responseContinue | responseClose
  | initializeBlock | reservedB | reservedC | reservedD | reservedE
deriving DecidableEq, Repr

/-- One row of the opcode table: the word matches when `w AND mask = pattern`. -/
structure OpwRow where
  kind : OpwKind
  mask : Byte
  pattern : Byte
deriving DecidableEq, Repr

/-- R57, R59 and spec/opcode_table.json. -/
def opwTable : List OpwRow :=
  [⟨.encode, 0xFF, 0x00⟩, ⟨.validate, 0xFF, 0x10⟩, ⟨.decode, 0xFF, 0x20⟩, ⟨.writeFrame, 0xFF, 0x30⟩,
   ⟨.beginRead, 0xFF, 0x40⟩, ⟨.continueRead, 0xFF, 0x50⟩, ⟨.endRead, 0xFF, 0x60⟩, ⟨.readAll, 0xFF, 0x70⟩,
   ⟨.issue, 0xFF, 0x80⟩, ⟨.pollReady, 0xFF, 0x90⟩] ++
  [⟨.responseFull, 0xFF, 0xA3⟩, ⟨.responseOpen, 0xFF, 0xA2⟩, ⟨.responseContinue, 0xFF, 0xA0⟩,
   ⟨.responseClose, 0xFF, 0xA1⟩, ⟨.initializeBlock, 0xFF, 0xF0⟩] ++
  [⟨.reservedB, 0xF0, 0xB0⟩, ⟨.reservedC, 0xF0, 0xC0⟩, ⟨.reservedD, 0xF0, 0xD0⟩, ⟨.reservedE, 0xF0, 0xE0⟩]

def OpwRow.covers (r : OpwRow) (w : Byte) : Bool := w &&& r.mask == r.pattern

/-- The row's instruction, its operands taken from beside the word; an omitted `tfi` is TFI_H2C (R60). -/
def OpwKind.instr (k : OpwKind) (w : Byte) (a : Args) : Instr :=
  match k with
  | .encode => .encode (a.tfi.getD Config.tfiH2C) a.buf
  | .validate => .validate a.buf
  | .decode => .decode a.buf
  | .writeFrame => .writeFrame a.buf
  | .beginRead => .beginRead a.len
  | .continueRead => .continueRead a.len
  | .endRead => .endRead
  | .readAll => .readAll a.len
  | .issue => .issue a.tfi a.buf
  | .pollReady => .pollReady a.timeout a.interval
  | .responseFull => .readResponseFull a.len
  | .responseOpen => .readResponseOpen a.len
  | .responseContinue => .readResponseContinue a.len
  | .responseClose => .readResponseClose a.len
  | .initializeBlock => .initializeBlock a.cfg
  | .reservedB => .reservedB (w.extractLsb' 0 4)
  | .reservedC => .reservedC (w.extractLsb' 0 4)
  | .reservedD => .reservedD (w.extractLsb' 0 4)
  | .reservedE => .reservedE (w.extractLsb' 0 4)

def opwRow? (w : Byte) : Option OpwRow := opwTable.find? (·.covers w)

def decodeOpw (w : Byte) (a : Args) : Except DecodeError Instr :=
  match opwRow? w with
  | some r => .ok (r.kind.instr w a)
  | none => .error (.reservedBits w)

/-! ## Frames and sequences -/

/-- R51, read on a whole frame as the block sends it: the two constants first, then the direction marker. -/
def decodeFrame (f : List Byte) : Except DecodeError Instr :=
  if f = Config.ackFrame then .ok .ackFrame
  else if f = Config.nackFrame then .ok .nackFrame
  else if startsFrame f = false then .error .noSuchFrame
  else if f[5]? = some Config.tfiH2C then .ok (.nifH2C f)
  else if f[5]? = some Config.tfiC2H then .ok (.nifC2H f)
  else .ok (.nif f)

/-- The table's words of the sequences: `4A 01 00`; `40 tg 6k bb key uid`; `40 tg 30 bb`; `40 tg A0 bb data`. -/
def decodeSequence (bs : List Byte) : Except DecodeError Instr :=
  match bs with
  | [x, y, z] => if x = 0x4A ∧ y = 0x01 ∧ z = 0x00 then .ok .detect else .error .noSuchSequence
  | x :: tg :: op :: blk :: rest =>
    if x ≠ 0x40 then .error .noSuchSequence
    else if op = 0x60 then .ok (.authenticate (some (tg, rest.drop 6)) .a blk (rest.take 6))
    else if op = 0x61 then .ok (.authenticate (some (tg, rest.drop 6)) .b blk (rest.take 6))
    else if op = 0x30 then (if rest = [] then .ok (.readBlock (some tg) blk) else .error .noSuchSequence)
    else if op = 0xA0 then .ok (.writeBlock (some tg) blk rest)
    else .error .noSuchSequence
  | _ => .error .noSuchSequence

/-- The same calls on the bound session: the words without command code, logical number and UID (log 10, log 20). -/
def decodeSession (bs : List Byte) : Except DecodeError Instr :=
  match bs with
  | op :: blk :: rest =>
    if op = 0x60 then .ok (.authenticate none .a blk rest)
    else if op = 0x61 then .ok (.authenticate none .b blk rest)
    else if op = 0x30 then (if rest = [] then .ok (.readBlock none blk) else .error .noSuchSequence)
    else if op = 0xA0 then .ok (.writeBlock none blk rest)
    else .error .noSuchSequence
  | _ => .error .noSuchSequence

/-! ## The decoder -/

/-- The instruction a request names, before its operands are checked. -/
def decodeShape (r : Request) : Except DecodeError Instr :=
  match r.port with
  | .opw => match r.bytes with
    | [w] => decodeOpw w r.args
    | _ => .error .notOneByte
  | .status => match r.bytes with
    | [s] => .ok (.statusByte s)
    | _ => .error .notOneByte
  | .frame => decodeFrame r.bytes
  | .sequence => decodeSequence r.bytes
  | .session => decodeSession r.bytes
  | .readResponse => .ok (.readResponse r.args.len r.args.start r.args.conclude)
  | .writeTxn => .ok (.writeTxn r.args.buf)
  | .readTxn => .ok (.readTxn r.args.len)
  | .statusTxn => .ok .statusTxn
  | .probe => .ok .probe
  | .isAck => .ok (.isAck r.args.buf)
  | .isNack => .ok (.isNack r.args.buf)
  | .headerOk => .ok (.headerOk r.args.buf)
  | .bind => .ok (.bind r.args.tag)

/-- The decoder: total, and every instruction it gives is well formed. -/
def decode (r : Request) : Except DecodeError Instr :=
  match decodeShape r with
  | .ok i => if i.wellFormed then .ok i else .error .illFormed
  | .error e => .error e

/-! ## The encoder -/

def keyByte : KeyType → Byte
  | .a => 0x60
  | .b => 0x61

/-- A request word alone, with its operands beside it. -/
def wordRequest (w : Byte) (a : Args) : Request := ⟨.opw, [w], a⟩

/-- A reserved word: `code` in OPW[7:4], `low` in OPW[3:0]. -/
def reservedWord (code low : BitVec 4) : Byte := code ++ low

def encode : Instr → Request
  | .nif f => ⟨.frame, f, {}⟩
  | .nifH2C f => ⟨.frame, f, {}⟩
  | .nifC2H f => ⟨.frame, f, {}⟩
  | .ackFrame => ⟨.frame, Config.ackFrame, {}⟩
  | .nackFrame => ⟨.frame, Config.nackFrame, {}⟩
  | .writeTxn bs => ⟨.writeTxn, [], { buf := bs }⟩
  | .readTxn len => ⟨.readTxn, [], { len := len }⟩
  | .statusTxn => ⟨.statusTxn, [], {}⟩
  | .statusByte s => ⟨.status, [s], {}⟩
  | .encode tfi p => wordRequest 0x00 { tfi := some tfi, buf := p }
  | .validate f => wordRequest 0x10 { buf := f }
  | .decode f => wordRequest 0x20 { buf := f }
  | .writeFrame bs => wordRequest 0x30 { buf := bs }
  | .beginRead len => wordRequest 0x40 { len := len }
  | .continueRead len => wordRequest 0x50 { len := len }
  | .endRead => wordRequest 0x60 {}
  | .readAll len => wordRequest 0x70 { len := len }
  | .issue tfi p => wordRequest 0x80 { tfi := tfi, buf := p }
  | .pollReady t i => wordRequest 0x90 { timeout := t, interval := i }
  | .readResponse len st co => ⟨.readResponse, [], { len := len, start := st, conclude := co }⟩
  | .readResponseFull len => wordRequest 0xA3 { len := len }
  | .readResponseOpen len => wordRequest 0xA2 { len := len }
  | .readResponseContinue len => wordRequest 0xA0 { len := len }
  | .readResponseClose len => wordRequest 0xA1 { len := len }
  | .initializeBlock c => wordRequest 0xF0 { cfg := c }
  | .reservedB low => wordRequest (reservedWord 0xB low) {}
  | .reservedC low => wordRequest (reservedWord 0xC low) {}
  | .reservedD low => wordRequest (reservedWord 0xD low) {}
  | .reservedE low => wordRequest (reservedWord 0xE low) {}
  | .probe => ⟨.probe, [], {}⟩
  | .isAck b => ⟨.isAck, [], { buf := b }⟩
  | .isNack b => ⟨.isNack, [], { buf := b }⟩
  | .headerOk h => ⟨.headerOk, [], { buf := h }⟩
  | .detect => ⟨.sequence, [0x4A, 0x01, 0x00], {}⟩
  | .bind t => ⟨.bind, [], { tag := t }⟩
  | .authenticate (some (tg, u)) k blk key => ⟨.sequence, [0x40, tg, keyByte k, blk] ++ key ++ u, {}⟩
  | .authenticate none k blk key => ⟨.session, [keyByte k, blk] ++ key, {}⟩
  | .readBlock (some tg) blk => ⟨.sequence, [0x40, tg, 0x30, blk], {}⟩
  | .readBlock none blk => ⟨.session, [0x30, blk], {}⟩
  | .writeBlock (some tg) blk data => ⟨.sequence, [0x40, tg, 0xA0, blk] ++ data, {}⟩
  | .writeBlock none blk data => ⟨.session, [0xA0, blk] ++ data, {}⟩

/-! ## The table's words -/

/-- `nbits` bits of `w` as bytes, the most significant first: the table's `0x4A0100` is the string `4A 01 00` (log 11). -/
def tableBytes (nbits w : Nat) : List Byte :=
  let n := (nbits + 7) / 8
  (List.range n).map fun k => BitVec.ofNat 8 (w / 256 ^ (n - 1 - k))

/-- Zero bytes up to `n`, for the operand bytes the table gives no bits. -/
def padZero (n : Nat) (bs : List Byte) : List Byte := bs ++ List.replicate (n - bs.length) 0

/-- The length of a sequence's words, by its command code and third byte. -/
def sequenceLength (bs : List Byte) : Nat :=
  if bs[0]? = some 0x4A then 3
  else if bs[2]? = some 0x30 then 4
  else if bs[2]? = some 0xA0 then 20
  else 14

/-- The request a word of the opcode table stands for. Eight bits are a request word, or a status byte where no request
word has them and bit 0 is set; more bits are a frame (first byte 00) or a sequence's command payload (log 11). No operand travels beside it, so `initialize`
omits every field, and those without a default are free values (log 28). -/
def requestOfWord (nbits w : Nat) : Request :=
  if nbits ≤ 8 then
    let b : Byte := BitVec.ofNat 8 w
    if (opwRow? b).isNone && b.getLsbD 0 then ⟨.status, [b], {}⟩ else ⟨.opw, [b], {}⟩
  else
    let bs := tableBytes nbits w
    if bs[0]? = some 0x00 then ⟨.frame, if fixedFrame bs then bs else padZero 8 bs, {}⟩
    else ⟨.sequence, padZero (sequenceLength bs) bs, {}⟩

/-- The instruction the decoder reads from a word of the table. -/
def decodeTableWord (nbits w : Nat) : Option Instr :=
  match decode (requestOfWord nbits w) with
  | .ok i => some i
  | .error _ => none

end Sys2Proof
end

