-- ==== Sys2Proof/Machine/State.lean ====
section
/-! DEFINITION. The state of the machine as plain data (R10 to R22), the reasons a step can stop, and reset (R27, R160). -/

namespace Sys2Proof.Machine

/-- The TransportSession phase TS (R14). -/
inductive TS where
  | idle | selected | streaming | done
deriving DecidableEq, Repr, Inhabited

/-- The chip-select output SEL (R26). -/
inductive Sel where
  | released | asserted
deriving DecidableEq, Repr, Inhabited

/-- The CommandChannel phase CC (R15). -/
inductive CC where
  | idle | issuing | awaitingReady | awaitingAck | acked | failed
deriving DecidableEq, Repr, Inhabited

/-- The closed list of results (R140). -/
inductive Result where
  | ok | transportError | timeoutError | ackMismatch | encodeReject | seqFault
deriving DecidableEq, Repr, Inhabited

/-- The alphabet of the event trace (R37). -/
inductive Event where
  | sel
  | rel
  | x (tx rx : Byte)
  | xfail (tx : Byte)
  | sleep (ms : Nat)
deriving DecidableEq, Repr, Inhabited

/-- Errors of `detect` (R126). -/
inductive DetectError where
  | noTag | malformedUid | protocol | timeout
deriving DecidableEq, Repr, Inhabited

/-- Errors of the session operations (R133): `notAcked` carries a block result, `malformed` is `NotAcked(Malformed)`. -/
inductive CardError where
  | notAcked (cause : Result)
  | malformed
  | badStatus (s : Byte)
deriving DecidableEq, Repr, Inhabited

/-- What the last operation returned to the host beside its result (R13, log 19). -/
inductive Output where
  | none
  | verdict (b : Bool)
  | frame (f : List Byte)
  | accept (tfi : Byte) (payload : List Byte)
  | reject
  | data (bytes : List Byte)
  | tag (t : TagRecord)
  | detectErr (e : DetectError)
  | bound (s : Session)
  | card (bytes : List Byte)
  | cardErr (e : CardError)
deriving DecidableEq, Repr, Inhabited

/-- Bytes at offsets: a list of (offset, byte) cells, offsets strictly rising and no cell equal to what an unlisted
offset reads as (`Memory.wf`). -/
abbrev Memory := List Host.Cell

/-- The serial link as the block sees it: its phase, the select line, the byte counter CNT (R16), the environment's coming
answers, the count of free values drawn (log 1), and the event trace, oldest first (R37). -/
structure Link where
  ts : TS
  sel : Sel
  cnt : Nat
  answers : List Answer
  draws : Nat
  trace : List Event
deriving DecidableEq, Repr, Inhabited

/-- The poll timer, the probe counter and the last status byte (R17, R18). -/
structure Poll where
  elapsed : Nat
  probes : Nat
  status : Byte
  ready : Bool
deriving DecidableEq, Repr, Inhabited

/-- The frame buffer TXBUF and its length TXLEN (R12). -/
structure TxBuf where
  mem : Memory
  len : Nat
deriving DecidableEq, Repr, Inhabited

/-- Everything the spec gives the machine (R10), the host's records its rules use (R120, R127), and the model's own
fields: `requests`, `output`, `seqFaulted` (log 3, 10, 19). -/
structure State where
  link : Link
  cc : CC
  tx : TxBuf
  poll : Poll
  ackbuf : List Byte
  lcsOk : Bool
  dcsOk : Bool
  ackOk : Bool
  result : Result
  cfg : Cfg
  latch : Latch
  session : Session
  consumer : Consumer
  output : Output
  requests : List Request
  seqFaulted : Bool
deriving DecidableEq, Repr

/-- Why the machine stops: for no reason. The failures of the block are results (R140) and next states; nothing raises a
fault. -/
inductive Fault where
deriving DecidableEq, Repr

/-- Why a request has no meaning. -/
inductive Refusal where
  /-- Raised by `exec` for an instruction without a meaning yet. Safe: the model stops. -/
  | notModelled (mnemonic : String)
  /-- Raised by `step` for a request that is no request of the spec: bytes that are no word, frame or payload of the
  opcode table, or an operand of the wrong shape. Safe: the model stops. -/
  | noSuchRequest
deriving DecidableEq, Repr

/-- CFG before any `initialize` request: the defaults of R6, and for the OPEN bytes and the bit order the PN532's
(PRESUMED, log 5). -/
def Cfg.atReset : Cfg where
  bitOrder := .lsbFirst
  maxPd := 254
  txCap := 262
  tSettle := 5
  tProbe := 0
  readPrime := 0x03
  statusProbe := 0x02
  dummy := 0x00
  writePrime := none
  readyMask := 0x01
  readyValue := true
  defaultTimeout := 1000
  defaultInterval := 10

/-- The consumers' parameters: MAX_TG and RESP_POLL of R120, the rest the PN532's (PRESUMED, log 6). -/
def Consumer.atReset : Consumer where
  opcListPassive := 0x4A
  maxTg := 0x01
  brtyIso14443a := 0x00
  opcDataExchange := 0x40
  mfAuthA := 0x60
  mfAuthB := 0x61
  mfRead := 0x30
  mfWrite := 0xA0
  respPoll := false

/-- The machine right after reset: the table of R27, and the values log 4 to 7 name for what that table leaves
unspecified. -/
def State.reset : State where
  link := { ts := .idle, sel := .released, cnt := 0, answers := [], draws := 0, trace := [] }
  cc := .idle
  tx := { mem := [], len := 0 }
  poll := { elapsed := 0, probes := 0, status := 0x00, ready := false }
  ackbuf := [0, 0, 0, 0, 0, 0]
  lcsOk := false
  dcsOk := false
  ackOk := false
  result := .ok
  cfg := Cfg.atReset
  latch := {}
  session := { logical := 0, uid := [0, 0, 0, 0] }
  consumer := Consumer.atReset
  output := .none
  requests := []
  seqFaulted := false

end Sys2Proof.Machine
end

