-- ==== Sys2Proof/Machine/Operands.lean ====
section
/-! DEFINITION. Operand forms: byte-string slices and checksums (R8, R65, R66), the layout of a normal frame (R46, R47),
header classification (R51), wire order (R85), the configuration's defaults (R6), numeric codes (R14, R15, R140). -/

namespace Sys2Proof.Machine

/-! ## Byte strings and checksums -/

/-- `s[a..b)` of R8: empty when `a >= b`. -/
def slice (s : List Byte) (a b : Nat) : List Byte := (s.drop a).take (b - a)

/-- `s[i]` of R8; the rules never read past the end. -/
def byteAt (s : List Byte) (i : Nat) : Byte := s.getD i 0

/-- `sum8(s)` of R8: formed on naturals and reduced once (R65). -/
def sum8 (s : List Byte) : Nat := (s.map BitVec.toNat).sum % 256

/-- `neg8(v) = (256 - (v mod 256)) mod 256` (R65). -/
def neg8 (v : Nat) : Byte := BitVec.ofNat 8 ((256 - v % 256) % 256)

/-- The length checksum of length byte `len` (R66). -/
def lcs (len : Byte) : Byte := neg8 len.toNat

/-- The data checksum of TFI `t` and payload `p` (R66). -/
def dcs (t : Byte) (p : List Byte) : Byte := neg8 ((t.toNat + sum8 p) % 256)

/-- `lcs_ok(L, C)` of R66. -/
def lcsOk (len c : Byte) : Bool := (len.toNat + c.toNat) % 256 == 0

/-- `dcs_ok(s, D)` of R66, `s` being the TFI followed by the payload. -/
def dcsOk (s : List Byte) (d : Byte) : Bool := (sum8 s + d.toNat) % 256 == 0

/-! ## Frames -/

/-- The normal information frame around `payload` (R46, R47): `00 00 FF LEN LCS TFI PD DCS 00`. -/
def buildFrame (tfi : Byte) (payload : List Byte) : List Byte :=
  let len : Byte := BitVec.ofNat 8 (payload.length + 1)
  [Config.preamble, Config.start1, Config.start2, len, lcs len, tfi] ++ payload ++ [dcs tfi payload, Config.postamble]

/-- The payload sizes `encode` accepts: at most MAX_PD, and a frame within TX_CAP (R67). -/
def fits (cfg : Cfg) (payload : List Byte) : Bool :=
  decide (payload.length ≤ cfg.maxPd) && decide (payload.length + 8 ≤ cfg.txCap)

/-- R51, on the first 6 bytes received; of fewer it states nothing (log 15). -/
def classify (received : List Byte) : FrameClass :=
  let h := received.take 6
  if h.length < 6 then Config.classOfShort h
  else if h = Config.ackFrame then .ack
  else if h = Config.nackFrame then .nack
  else if lcsOk (byteAt h 3) (byteAt h 4) && decide (1 ≤ (byteAt h 3).toNat) then
    .nif (byteAt h 5) ((byteAt h 3).toNat + 1)
  else .malformed

/-! ## Wire order of a character -/

/-- The bits of a byte in wire order, the first on the wire first (R85). -/
def wireBits (b : Byte) : BitOrder → List Bool
  | .msbFirst => [b.getLsbD 7, b.getLsbD 6, b.getLsbD 5, b.getLsbD 4, b.getLsbD 3, b.getLsbD 2, b.getLsbD 1, b.getLsbD 0]
  | .lsbFirst => [b.getLsbD 0, b.getLsbD 1, b.getLsbD 2, b.getLsbD 3, b.getLsbD 4, b.getLsbD 5, b.getLsbD 6, b.getLsbD 7]

/-- The value of bits given least significant first. -/
def bitsValue : List Bool → Nat
  | [] => 0
  | b :: bs => b.toNat + 2 * bitsValue bs

/-- The byte assembled from the bits as they arrive (R85). -/
def fromWire (bits : List Bool) : BitOrder → Byte
  | .msbFirst => BitVec.ofNat 8 (bitsValue bits.reverse)
  | .lsbFirst => BitVec.ofNat 8 (bitsValue bits)

/-! ## Configuration -/

/-- `v` where it is in its range, else the value `free` (DESIGN CHOICE, log 28). -/
def inRangeOr (inRange : Bool) (v free : Nat) : Nat := if inRange then v else free

/-- MAX_PD from what was given (R6: 0 to 254, default 254); out of range, some value in range. -/
def resolveMaxPd (given : Option Nat) (free : Nat) : Nat :=
  inRangeOr (decide (given.getD 254 ≤ 254)) (given.getD 254) (free % 255)

/-- TX_CAP (R6: at least 8, default MAX_PD + 8); out of range, some value in range. -/
def resolveTxCap (given : Option Nat) (maxPd free : Nat) : Nat :=
  inRangeOr (decide (8 ≤ given.getD (maxPd + 8))) (given.getD (maxPd + 8)) (8 + free)

/-- The default INTERVAL (R6: at least 1, default 10); out of range, some value in range. -/
def resolveInterval (given : Option Nat) (free : Nat) : Nat :=
  inRangeOr (decide (1 ≤ given.getD 10)) (given.getD 10) (1 + free)

/-- CFG from the operand of `initialize`: an omitted field takes its default (R6, R21). An OPEN byte or BIT_ORDER that is
omitted has none, and a number outside its range of R6 has no effect of its own: that field is a free value, in range,
of the numbers from `k` on (DESIGN CHOICE, log 28). -/
def resolveCfg (c : CfgArg) (k : Nat) : Cfg where
  bitOrder := c.bitOrder.getD (Config.freeBitOrder k)
  maxPd := resolveMaxPd c.maxPd (Config.freeNat (k + 4))
  txCap := resolveTxCap c.txCap (resolveMaxPd c.maxPd (Config.freeNat (k + 4))) (Config.freeNat (k + 5))
  tSettle := c.tSettle.getD 5
  tProbe := c.tProbe.getD 0
  readPrime := c.readPrime.getD (Config.freeByte (k + 1))
  statusProbe := c.statusProbe.getD (Config.freeByte (k + 2))
  dummy := c.dummy.getD (Config.freeByte (k + 3))
  writePrime := c.writePrime
  readyMask := 0x01
  readyValue := true
  defaultTimeout := c.defaultTimeout.getD 1000
  defaultInterval := resolveInterval c.defaultInterval (Config.freeNat (k + 6))

/-- How many free values `resolveCfg` numbers. -/
def cfgDraws : Nat := 7

/-! ## Numeric codes, which no rule depends on -/

/-- R14. -/
def TS.code : TS → BitVec 2
  | .idle => 0 | .selected => 1 | .streaming => 2 | .done => 3

/-- R15. -/
def CC.code : CC → BitVec 3
  | .idle => 0 | .issuing => 1 | .awaitingReady => 2 | .awaitingAck => 3 | .acked => 4 | .failed => 5

/-- R140. -/
def Result.code : Result → Nat
  | .ok => 0 | .transportError => 1 | .timeoutError => 2 | .ackMismatch => 3 | .encodeReject => 4 | .seqFault => 5

end Sys2Proof.Machine
end

