-- ==== Sys2Proof/Machine/Flags.lean ====
section
/-! DEFINITION. The flag computations: READY (R18, R55), LCS_OK and DCS_OK (R19, R68), ACK_OK (R70, R104), and the header
test (R71). -/

namespace Sys2Proof.Machine

/-- READY of a status byte: the bit READY_MASK selects, compared with READY_VALUE (R6, R18, R55, log 17). -/
def readyOf (cfg : Cfg) (status : Byte) : Bool := (status &&& cfg.readyMask != 0) == cfg.readyValue

/-- LCS_OK of `validate(frame)` (R68): at least 8 bytes, and LEN and LCS sum to 0. -/
def frameLcsOk (frame : List Byte) : Bool :=
  decide (8 ≤ frame.length) && lcsOk (byteAt frame 3) (byteAt frame 4)

/-- DCS_OK of `validate(frame)` (R68): the length checksum held, `LEN >= 1`, the string is `LEN + 7` bytes, and TFI,
payload and DCS sum to 0. -/
def frameDcsOk (frame : List Byte) : Bool :=
  let len := (byteAt frame 3).toNat
  frameLcsOk frame && decide (1 ≤ len) && decide (frame.length = len + 7) &&
    dcsOk (slice frame 5 (5 + len)) (byteAt frame (5 + len))

/-- The verdict of `validate`: a well-formed frame (R62, R68). -/
def frameValid (frame : List Byte) : Bool := frameLcsOk frame && frameDcsOk frame

/-- Canonical form (R62): well formed, with the constants at their places. -/
def frameCanonical (frame : List Byte) : Bool :=
  frameValid frame && startsFrame frame && byteAt frame (frame.length - 1) == Config.postamble

/-- `is_ack` (R70). -/
def isAck (b : List Byte) : Bool := b == Config.ackFrame

/-- `is_nack` (R70). -/
def isNack (b : List Byte) : Bool := b == Config.nackFrame

/-- `header_ok` (R71) on a chunk of at least 6 bytes; on a shorter one R71 states no value (log 15). -/
def headerOk (h : List Byte) : Bool :=
  if 6 ≤ h.length then lcsOk (byteAt h 3) (byteAt h 4) && decide (1 ≤ (byteAt h 3).toNat)
  else Config.headerOkShort h

/-- ISO14443-4 compliance of a SAK byte (R122). -/
def iso14443_4 (sak : Byte) : Bool := sak &&& Config.sakIso14443_4 != 0

end Sys2Proof.Machine
end

