-- ==== Sys2Proof/Machine/Ops.lean ====
section
/-! DEFINITION. The shared operations: TXBUF as memory (R12, R30), the link primitives (R80 to R84), free values, the abort
sequence R146 in place of exception entry, the return R150, and the refusal of a request (R59, R93). -/

namespace Sys2Proof.Machine

/-- How every operation ends: a next state, a fault or a refusal. -/
abbrev StepOutcome := Host.Outcome State Fault Refusal

/-! ## TXBUF -/

/-- What an offset of TXBUF that nothing has written reads as (DESIGN CHOICE, log 9). -/
def unlistedByte : Byte := 0

/-- The canonical form: offsets strictly rising, no cell equal to `unlistedByte`. -/
abbrev Memory.wf (m : Memory) : Prop :=
  m.Pairwise (fun c d => c.1 < d.1) ∧ ∀ c ∈ m, c.2 ≠ unlistedByte

/-- The byte at an offset. -/
def Memory.byte : Memory → Nat → Byte
  | [], _ => unlistedByte
  | (b, w) :: m, a => if a = b then w else Memory.byte m a

/-- Write one byte, keeping the canonical form. -/
def Memory.store : Memory → Nat → Byte → Memory
  | [], a, v => if v = unlistedByte then [] else [(a, v)]
  | (b, w) :: m, a, v =>
    if a < b then (if v = unlistedByte then (b, w) :: m else (a, v) :: (b, w) :: m)
    else if a = b then (if v = unlistedByte then m else (a, v) :: m)
    else (b, w) :: Memory.store m a v

/-- `MemWrite(TXBUF, off, |bs|, bs)` of R8. -/
def Memory.writeBytes : Memory → Nat → List Byte → Memory
  | m, _, [] => m
  | m, off, b :: bs => Memory.writeBytes (m.store off b) (off + 1) bs

/-- `MemRead(TXBUF, off, n)` of R8. -/
def Memory.readBytes (m : Memory) (off n : Nat) : List Byte := (List.range n).map fun k => m.byte (off + k)

/-- The frame TXBUF holds: `TXBUF[0..TXLEN)` (R12). -/
def TxBuf.contents (t : TxBuf) : List Byte := t.mem.readBytes 0 t.len

/-- Put a frame into TXBUF at offset 0 (R67). -/
def TxBuf.load (t : TxBuf) (frame : List Byte) : TxBuf := ⟨t.mem.writeBytes 0 frame, frame.length⟩

/-! ## Link primitives -/

/-- Record an event (R37). -/
def Link.emit (e : Event) (l : Link) : Link := { l with trace := l.trace ++ [e] }

/-- `Select()` (R80). -/
def Link.select (l : Link) : Link := Link.emit .sel { l with sel := .asserted, ts := .selected }

/-- `Release()` (R81): acts only if select is asserted; `Done` is passed through with no event of its own, so `TS` is
`Idle` when it returns. -/
def Link.release (l : Link) : Link :=
  if l.sel = .asserted then
    let done := Link.emit .rel { l with sel := .released, ts := .done }
    { done with ts := .idle }
  else l

/-- `Sleep(t)` (R83). -/
def Link.sleep (t : Nat) (l : Link) : Link := l.emit (.sleep t)

/-- Set CNT to the bytes still to exchange (R16, log 16). -/
def Link.expect (n : Nat) (l : Link) : Link := { l with cnt := n }

/-- The environment's answer to the next exchange: the next of `answers`, or a free value when none is left (R82, log 1). -/
def Link.answer (l : Link) : Answer × Link :=
  match l.answers with
  | a :: as => (a, { l with answers := as })
  | [] => (Config.freeAnswer l.draws, { l with draws := l.draws + 1 })

/-- The first exchange of a transaction moves `Selected` to `Streaming` (R86). -/
def TS.exchanged : TS → TS
  | .selected => .streaming
  | ts => ts

/-- `Xchg(tx)` (R82): the received byte, or `none` on a failure; CNT counts the exchanges that succeeded down (R16). -/
def Link.xchg (tx : Byte) (l : Link) : Option Byte × Link :=
  match l.answer with
  | (.ok rx, l') => (some rx, Link.emit (.x tx rx) { l' with ts := l'.ts.exchanged, cnt := l'.cnt - 1 })
  | (.fail, l') => (none, Link.emit (.xfail tx) { l' with ts := l'.ts.exchanged })

/-- `send` of each byte in order, stopping at the first failure (R84). -/
def Link.sendAll : List Byte → Link → Bool × Link
  | [], l => (true, l)
  | b :: bs, l =>
    match l.xchg b with
    | (some _, l') => Link.sendAll bs l'
    | (none, l') => (false, l')

/-- `recv` `n` times, stopping at the first failure (R84). -/
def Link.recvAll (dummy : Byte) : Nat → Link → Option (List Byte) × Link
  | 0, l => (some [], l)
  | n + 1, l =>
    match l.xchg dummy with
    | (none, l') => (none, l')
    | (some d, l') =>
      match Link.recvAll dummy n l' with
      | (some ds, l'') => (some (d :: ds), l'')
      | (none, l'') => (none, l'')

/-- `n` free bytes (R44). -/
def Link.freeBytes (n : Nat) (l : Link) : List Byte × Link :=
  ((List.range n).map fun k => Config.freeByte (l.draws + k), { l with draws := l.draws + n })

/-! ## Results -/

/-- What a link operation returns: the link after it, its result, and the data of a read. -/
structure LinkReply where
  link : Link
  res : Result
  data : List Byte := []
deriving DecidableEq, Repr

/-- The abort sequence R146, steps (1) and (2), in place of exception entry: nothing more is exchanged and select is
released; `finish` writes RESULT, and `issue` moves CC to `Failed`. -/
def Link.abort (r : Result) (l : Link) : LinkReply := ⟨l.release, r, []⟩

/-- The abort of a read: its `len` bytes of data are free values, neither the bytes received nor zeros (R44). -/
def Link.abortRead (len : Nat) (l : Link) : LinkReply :=
  let (data, l') := l.release.freeBytes len
  ⟨l', .transportError, data⟩

/-- A refused request: no event, no change (R93, R146 step (2) skipped). -/
def Link.refuse (r : Result) (l : Link) : LinkReply := ⟨l, r, []⟩

/-- What an operation returns: the state after it, its result, and the data of a read. -/
structure Reply where
  st : State
  res : Result
  data : List Byte := []
deriving DecidableEq, Repr

/-- A link operation in the whole state: nothing but the link changes. -/
def State.onLink (s : State) (r : LinkReply) : Reply := ⟨{ s with link := r.link }, r.res, r.data⟩

/-- The operation returns (R146 steps (4) and (5), R150): RESULT is written once; a `SeqFault` marks the run (R145, R175,
log 3). -/
def Reply.finish (r : Reply) : Reply :=
  { r with st := { r.st with result := r.res, seqFaulted := r.st.seqFaulted || r.res == .seqFault } }

/-- A host operation: its scalar operands are sampled into the latch (R16, R40), unless it is refused, and it returns. -/
def Reply.finishAs (l : Latch) (r : Reply) : Reply :=
  Reply.finish (if r.res == .seqFault then r else { r with st := { r.st with latch := l } })

/-- A request the block refuses: `SeqFault`, and nothing but RESULT changes (R59, R145). -/
def refuseRequest (s : State) : Reply := Reply.finish ⟨s, .seqFault, []⟩

/-- The next state of an operation, with what it returned to the host. -/
def Reply.next (r : Reply) (out : Output) : StepOutcome := .next { r.st with output := out }

/-- What a read returns: its data, unless it was refused (R13, R44). -/
def Reply.readOutput (r : Reply) : Output := if r.res == .seqFault then .none else .data r.data

/-- What becomes of a request that is no instruction: a reserved word is refused by the block with `SeqFault` (R59); the
rest is outside the spec (log 18). -/
def rejectRequest (e : DecodeError) (s : State) : StepOutcome :=
  match e with
  | .reservedBits _ => (refuseRequest s).next .none
  | .notOneByte | .noSuchFrame | .noSuchSequence | .illFormed => .refused .noSuchRequest

end Sys2Proof.Machine
end

