-- ==== Sys2Proof/Machine/Codec.lean ====
section
/-! DEFINITION. The frame codec's operations: `encode`, `validate`, `decode` (R65 to R69, R76). -/

namespace Sys2Proof.Machine

/-- `encode` up to its return (R67): the frame goes to TXBUF, or nothing is written. -/
def putFrame (tfi : Byte) (payload : List Byte) (s : State) : Reply :=
  if fits s.cfg payload then ⟨{ s with tx := s.tx.load (buildFrame tfi payload) }, .ok, []⟩
  else ⟨s, .encodeReject, []⟩

/-- The verdicts of `validate` and `decode` (R68, R69). -/
def checkFrame (frame : List Byte) (s : State) : Reply :=
  ⟨{ s with lcsOk := frameLcsOk frame, dcsOk := frameDcsOk frame }, .ok, []⟩

/-- What `decode` returns (R69). -/
def decodedFrame (frame : List Byte) : Output :=
  if frameValid frame then .accept (byteAt frame 5) (slice frame 6 (5 + (byteAt frame 3).toNat)) else .reject

def opEncode (tfi : Byte) (payload : List Byte) (s : State) : Reply :=
  (putFrame tfi payload s).finishAs { op := .encode, tfi := tfi }

def opValidate (frame : List Byte) (s : State) : Reply := (checkFrame frame s).finishAs { op := .validate }

def opDecode (frame : List Byte) (s : State) : Reply := (checkFrame frame s).finishAs { op := .decode }

/-- R67. -/
def execEncode (tfi : Byte) (payload : List Byte) (s : State) : StepOutcome :=
  (opEncode tfi payload s).next (if fits s.cfg payload then .frame (buildFrame tfi payload) else .none)

/-- R68. -/
def execValidate (frame : List Byte) (s : State) : StepOutcome :=
  (opValidate frame s).next (.verdict (frameValid frame))

/-- R69. -/
def execDecode (frame : List Byte) (s : State) : StepOutcome := (opDecode frame s).next (decodedFrame frame)

end Sys2Proof.Machine
end

