-- ==== Sys2Proof/Machine/Transport.lean ====
section
/-! DEFINITION. The transport session's operations: `write_frame`, `begin_read`, `continue_read`, `end_read`, `read_all`
(R87 to R95), over the link alone. -/

namespace Sys2Proof.Machine

/-- The bytes of a write transaction: WRITE_PRIME where there is one, then `bytes` (R52). -/
def writeBody (cfg : Cfg) (bytes : List Byte) : List Byte := cfg.writePrime.toList ++ bytes

/-- One write transaction (R52): every received byte is discarded; the first failure aborts. -/
def writeTxn (cfg : Cfg) (bytes : List Byte) (l : Link) : LinkReply :=
  let body := writeBody cfg bytes
  match Link.sendAll body ((l.select.sleep cfg.tSettle).expect body.length) with
  | (true, l') => ⟨l'.release, .ok, []⟩
  | (false, l') => l'.abort .transportError

/-- Read `len` bytes of an open transaction: one `X(DUMMY, d)` each, the bytes in order (R53). -/
def readBytes (cfg : Cfg) (len : Nat) (l : Link) : LinkReply :=
  match Link.recvAll cfg.dummy len l with
  | (some data, l') => ⟨l', .ok, data⟩
  | (none, l') => l'.abortRead len

/-- Open a read transaction and read its first `len` bytes: the byte received with READ_PRIME is discarded (R53, R88). -/
def openRead (cfg : Cfg) (len : Nat) (l : Link) : LinkReply :=
  match Link.xchg cfg.readPrime ((l.select.sleep cfg.tSettle).expect (len + 1)) with
  | (some _, l') => readBytes cfg len l'
  | (none, l') => l'.abortRead len

/-- Close the transaction after a read that succeeded; a failed one has released select already (R61, R91). -/
def closeAfter (r : LinkReply) : LinkReply := if r.res = .ok then { r with link := r.link.release } else r

/-- R87. -/
def writeFrame (cfg : Cfg) (bytes : List Byte) (l : Link) : LinkReply :=
  if l.ts = .idle then writeTxn cfg bytes l else l.refuse .seqFault

/-- R88. -/
def beginRead (cfg : Cfg) (len : Nat) (l : Link) : LinkReply :=
  if l.ts = .idle then openRead cfg len l else l.refuse .seqFault

/-- R89. -/
def continueRead (cfg : Cfg) (len : Nat) (l : Link) : LinkReply :=
  if l.ts = .streaming then readBytes cfg len (l.expect len) else l.refuse .seqFault

/-- R90: never a `SeqFault`; with select released it changes nothing. -/
def endRead (l : Link) : LinkReply := ⟨l.release, .ok, []⟩

/-- R91: `begin_read` then at once `end_read`. -/
def readAll (cfg : Cfg) (len : Nat) (l : Link) : LinkReply := closeAfter (beginRead cfg len l)

def opWriteFrame (bytes : List Byte) (s : State) : Reply :=
  (s.onLink (writeFrame s.cfg bytes s.link)).finishAs { op := .writeFrame }

def opBeginRead (len : Nat) (s : State) : Reply :=
  (s.onLink (beginRead s.cfg len s.link)).finishAs { op := .beginRead, len := len }

def opContinueRead (len : Nat) (s : State) : Reply :=
  (s.onLink (continueRead s.cfg len s.link)).finishAs { op := .continueRead, len := len }

def opEndRead (s : State) : Reply := (s.onLink (endRead s.link)).finishAs { op := .endRead }

def opReadAll (len : Nat) (s : State) : Reply :=
  (s.onLink (readAll s.cfg len s.link)).finishAs { op := .readAll, len := len }

def execWriteFrame (bytes : List Byte) (s : State) : StepOutcome := (opWriteFrame bytes s).next .none

def execBeginRead (len : Nat) (s : State) : StepOutcome :=
  let r := opBeginRead len s
  r.next r.readOutput

def execContinueRead (len : Nat) (s : State) : StepOutcome :=
  let r := opContinueRead len s
  r.next r.readOutput

def execEndRead (s : State) : StepOutcome := (opEndRead s).next .none

def execReadAll (len : Nat) (s : State) : StepOutcome :=
  let r := opReadAll len s
  r.next r.readOutput

end Sys2Proof.Machine
end

