-- ==== Sys2Proof/Machine/Channel.lean ====
section
/-! DEFINITION. The command channel's operations: `probe`, `poll_ready`, `issue`, `read_response` (R100 to R107). -/

namespace Sys2Proof.Machine

/-! ## Readiness -/

/-- One status transaction (R54): the status byte, or `none` after an abort. -/
def statusTxn (cfg : Cfg) (l : Link) : Option Byte × Link :=
  match Link.xchg cfg.statusProbe (l.select.expect 2) with
  | (none, l') => (none, l'.release)
  | (some _, l') =>
    match Link.xchg cfg.dummy l' with
    | (none, l'') => (none, l''.release)
    | (some s, l'') => (some s, l''.release)

/-- Latch a status byte (R18, R102). -/
def Poll.latch (cfg : Cfg) (status : Byte) (p : Poll) : Poll := { p with status := status, ready := readyOf cfg status }

/-- What a completed probe adds to the poll registers (R102). -/
def Poll.probed (cfg : Cfg) (status : Byte) (p : Poll) : Poll :=
  { Poll.latch cfg status p with probes := p.probes + 1, elapsed := p.elapsed + cfg.tProbe }

/-- `probe()` (R102): whether its two exchanges completed; a failed one leaves the poll registers unchanged. -/
def probe (cfg : Cfg) (l : Link) (p : Poll) : Bool × Link × Poll :=
  match statusTxn cfg l with
  | (some s, l') => (true, l', p.probed cfg s)
  | (none, l') => (false, l', p)

/-- The link and the poll registers, with the result, after a poll. -/
structure PollReply where
  link : Link
  poll : Poll
  res : Result
deriving DecidableEq, Repr

/-- The loop of R103 with at most `fuel` probes; `pollLoop_enough` (Laws/Channel.lean) says that the fuel `pollReady` gives
is never what ends it. -/
def pollLoop (cfg : Cfg) (timeout interval : Nat) : Nat → Link → Poll → PollReply
  | 0, l, p => ⟨l, p, .timeoutError⟩
  | fuel + 1, l, p =>
    match probe cfg l p with
    | (false, l', p') => ⟨l', p', .transportError⟩
    | (true, l', p') =>
      if p'.ready then ⟨l', p', .ok⟩
      else if timeout < p'.elapsed + interval then ⟨l', p', .timeoutError⟩
      else pollLoop cfg timeout interval fuel (l'.sleep interval) { p' with elapsed := p'.elapsed + interval }

/-- `poll_ready(timeout, interval)` (R103). -/
def pollReady (cfg : Cfg) (timeout interval : Nat) (l : Link) (p : Poll) : PollReply :=
  if l.ts ≠ .idle ∨ interval < 1 then ⟨l, p, .seqFault⟩
  else pollLoop cfg timeout interval (timeout / interval + 1) l { p with elapsed := 0, probes := 0 }

/-- A poll in the whole state. -/
def State.onPoll (s : State) (r : PollReply) : Reply := ⟨{ s with link := r.link, poll := r.poll }, r.res, []⟩

/-! ## issue -/

/-- `issue` fails: CC goes to `Failed` and the failure is returned unchanged (R100, R101, R146 step (3)). -/
def issueFailed (r : Result) (s : State) : Reply := ⟨{ s with cc := .failed }, r, []⟩

/-- The ACK check (R104): ACKBUF takes the 6 bytes, ACK_OK the comparison. -/
def latchAck (a : List Byte) (s : State) : State := { s with ackbuf := a, ackOk := isAck a }

/-- `issue` from `AwaitingAck` on: read 6 bytes and compare them (R101, R104). -/
def issueAck (s : State) : Reply :=
  let r := s.onLink (readAll s.cfg Config.ackLen s.link)
  if r.res ≠ .ok then issueFailed r.res r.st
  else
    let s' := latchAck r.data r.st
    if s'.ackOk then ⟨{ s' with cc := .acked }, .ok, []⟩ else issueFailed .ackMismatch s'

/-- `issue` from `AwaitingReady` on: one bounded poll (R101). -/
def issuePoll (s : State) : Reply :=
  let r := s.onPoll (pollReady s.cfg s.cfg.defaultTimeout s.cfg.defaultInterval s.link s.poll)
  if r.res ≠ .ok then issueFailed r.res r.st else issueAck { r.st with cc := .awaitingAck }

/-- `issue` after `encode`: write the frame TXBUF holds (R101). -/
def issueWrite (s : State) : Reply :=
  let r := s.onLink (writeFrame s.cfg s.tx.contents s.link)
  if r.res ≠ .ok then issueFailed r.res r.st else issuePoll { r.st with cc := .awaitingReady }

/-- `issue(tfi, payload)` (R101). -/
def issue (tfi : Byte) (payload : List Byte) (s : State) : Reply :=
  if s.link.ts ≠ .idle then ⟨s, .seqFault, []⟩
  else
    let r := putFrame tfi payload { s with cc := .issuing }
    if r.res ≠ .ok then issueFailed r.res r.st else issueWrite r.st

/-! ## read_response -/

/-- `read_response(len, start, conclude)` (R106). -/
def readResponse (cfg : Cfg) (len : Nat) (start conclude : Bool) (l : Link) : LinkReply :=
  let r := if start then beginRead cfg len l else continueRead cfg len l
  if conclude then closeAfter r else r

/-! ## The host's operations -/

/-- An omitted `tfi` is TFI_H2C (R60). -/
def tfiOr (tfi : Option Byte) : Byte := tfi.getD Config.tfiH2C

def opIssue (tfi : Option Byte) (payload : List Byte) (s : State) : Reply :=
  (issue (tfiOr tfi) payload s).finishAs { op := .issue, tfi := tfiOr tfi }

/-- An omitted argument is the one of CFG (R21, R60). -/
def opPollReady (timeout interval : Option Nat) (s : State) : Reply :=
  let t := timeout.getD s.cfg.defaultTimeout
  let i := interval.getD s.cfg.defaultInterval
  (s.onPoll (pollReady s.cfg t i s.link s.poll)).finishAs { op := .pollReady, timeout := t, interval := i }

def opReadResponse (len : Nat) (start conclude : Bool) (s : State) : Reply :=
  (s.onLink (readResponse s.cfg len start conclude s.link)).finishAs
    { op := .readResponse, len := len, start := start, conclude := conclude }

/-- R101. -/
def execIssue (tfi : Option Byte) (payload : List Byte) (s : State) : StepOutcome := (opIssue tfi payload s).next .none

/-- R103. -/
def execPollReady (timeout interval : Option Nat) (s : State) : StepOutcome :=
  (opPollReady timeout interval s).next .none

/-- R106, the generic call. -/
def execReadResponse (len : Nat) (start conclude : Bool) (s : State) : StepOutcome :=
  let r := opReadResponse len start conclude s
  r.next r.readOutput

/-- R106, `(true, true)`: full fixed read. -/
def execReadResponseFull (len : Nat) (s : State) : StepOutcome :=
  let r := opReadResponse len true true s
  r.next r.readOutput

/-- R106, `(true, false)`: open a stream. -/
def execReadResponseOpen (len : Nat) (s : State) : StepOutcome :=
  let r := opReadResponse len true false s
  r.next r.readOutput

/-- R106, `(false, false)`: continue a stream. -/
def execReadResponseContinue (len : Nat) (s : State) : StepOutcome :=
  let r := opReadResponse len false false s
  r.next r.readOutput

/-- R106, `(false, true)`: close a stream. -/
def execReadResponseClose (len : Nat) (s : State) : StepOutcome :=
  let r := opReadResponse len false true s
  r.next r.readOutput

end Sys2Proof.Machine
end

