-- ==== Sys2Proof/Machine/Consumers.lean ====
section
/-! DEFINITION. The consumer sequences the host runs (43_consumers.md): `detect` (R121 to R126), `bind` (R127),
`authenticate`, `read_block`, `write_block` (R128 to R133). Each is a series of host operations, every one of which returns
(`finishAs`) before the next begins. -/

namespace Sys2Proof.Machine

/-- What a sequence ends with: the state, and its answer for the host. -/
structure Done where
  st : State
  out : Output
deriving DecidableEq, Repr

def Done.next (d : Done) : StepOutcome := .next { d.st with output := d.out }

/-- `issue` and, where RESP_POLL asks for it, a second wait (R120, R123, R129). -/
def issueAndWait (payload : List Byte) (s : State) : Reply :=
  let r := opIssue (some Config.tfiH2C) payload s
  if r.res = .ok ∧ s.consumer.respPoll then opPollReady none none r.st else r

/-! ## detect -/

/-- R124. -/
def detectPayload (c : Consumer) : List Byte := [c.opcListPassive, c.maxTg, c.brtyIso14443a]

/-- R126: `TimeoutError` is `Timeout`, every other lower-layer failure `Protocol`. -/
def detectErrorOf : Result → DetectError
  | .timeoutError => .timeout
  | .ok | .transportError | .ackMismatch | .encodeReject | .seqFault => .protocol

def Done.detectErr (e : DetectError) (s : State) : Done := ⟨s, .detectErr e⟩

/-- An early exit with the stream open concludes it first (R123, D32). -/
def concludeWith (e : DetectError) (s : State) : Done := .detectErr e (opReadResponse 0 false true s).st

/-- Chunks (d) and (e): the ATS length and the ATS, which concludes (R123). -/
def detectAts (t : TagRecord) (s : State) : Done :=
  let d := opReadResponse 1 false false s
  if d.res ≠ .ok then .detectErr .protocol d.st
  else
    let e := opReadResponse (byteAt d.data 0).toNat false true d.st
    if e.res ≠ .ok then .detectErr .protocol e.st else ⟨e.st, .tag { t with ats := some e.data }⟩

/-- Chunk (c), from chunk (b) `b`: the UID, which concludes unless the card is ISO14443-4 compliant (R122, R123). -/
def detectUid (b : List Byte) (s : State) : Done :=
  let ulen := (byteAt b 4).toNat
  let iso4 := iso14443_4 (byteAt b 3)
  if ulen ≠ 4 ∧ ulen ≠ 7 ∧ ulen ≠ 10 then concludeWith .malformedUid s
  else
    let c := opReadResponse ulen false (!iso4) s
    if c.res ≠ .ok then .detectErr .protocol c.st
    else
      let t : TagRecord :=
        { logical := byteAt b 0, atqa := slice b 1 3, sak := byteAt b 3, uid := c.data, ats := none }
      if iso4 then detectAts t c.st else ⟨c.st, .tag t⟩

/-- Chunk (b), from chunk (a) `a`: the header test and the tag count come first (R123, R125). -/
def detectTarget (a : List Byte) (s : State) : Done :=
  if headerOk a = false then concludeWith .protocol s
  else if byteAt a 7 = 0 then concludeWith .noTag s
  else
    let b := opReadResponse 5 false false s
    if b.res ≠ .ok then .detectErr .protocol b.st else detectUid b.data b.st

/-- `detect()` (R123). -/
def detect (s : State) : Done :=
  let r := issueAndWait (detectPayload s.consumer) s
  if r.res ≠ .ok then .detectErr (detectErrorOf r.res) r.st
  else
    let a := opReadResponse 8 true false r.st
    if a.res ≠ .ok then .detectErr .protocol a.st else detectTarget a.data a.st

/-- The application's view of `detect`: the record, or nothing for any error (R126). -/
def detectedTag : Output → Option TagRecord
  | .tag t => some t
  | .none | .verdict _ | .frame _ | .accept _ _ | .reject | .data _ | .detectErr _ | .bound _ | .card _ | .cardErr _ => none

/-- R123. -/
def execDetect (s : State) : StepOutcome := (detect s).next

/-! ## bind -/

/-- R127. -/
def sessionOf (t : TagRecord) : Session := ⟨t.logical, t.uid⟩

/-- R127: no block state is touched. -/
def execBind (t : TagRecord) (s : State) : StepOutcome :=
  .next { s with session := sessionOf t, output := .bound (sessionOf t) }

/-! ## The session operations -/

/-- R128: only the first 4 UID bytes are used (R127). -/
def authPayload (c : Consumer) (sess : Session) (k : KeyType) (block : Byte) (key : List Byte) : List Byte :=
  [c.opcDataExchange, sess.logical, (match k with | .a => c.mfAuthA | .b => c.mfAuthB), block] ++ key ++ slice sess.uid 0 4

/-- R128. -/
def readPayload (c : Consumer) (logical block : Byte) : List Byte := [c.opcDataExchange, logical, c.mfRead, block]

/-- R128. -/
def writePayload (c : Consumer) (logical block : Byte) (data : List Byte) : List Byte :=
  [c.opcDataExchange, logical, c.mfWrite, block] ++ data

/-- Bytes of a DATA_EXCHANGE response with `d` data bytes: 8 of frame, the response code, the status, the data (R129). -/
def exchangeLen (d : Nat) : Nat := 8 + Config.rspCodeLen + 1 + d

/-- The answer in a validated response: the status at offset 7, the data at 8 (R129, R133). -/
def exchangeAnswer (f : List Byte) (d : Nat) : Output :=
  if byteAt f 7 ≠ 0 then .cardErr (.badStatus (byteAt f 7)) else .card (slice f 8 (8 + d))

/-- `exchange(payload, d)` (R129). -/
def exchange (payload : List Byte) (d : Nat) (s : State) : Done :=
  let r := issueAndWait payload s
  if r.res ≠ .ok then ⟨r.st, .cardErr (.notAcked r.res)⟩
  else
    let f := opReadResponse (exchangeLen d) true true r.st
    if f.res ≠ .ok then ⟨f.st, .cardErr (.notAcked f.res)⟩
    else
      let v := opValidate f.data f.st
      ⟨v.st, if frameValid f.data then exchangeAnswer f.data d else .cardErr .malformed⟩

/-- The session an `authenticate` runs on: the bound one, or the one its own words carry (log 20). -/
def authSession (target : Option (Byte × List Byte)) (s : State) : Session :=
  match target with
  | none => s.session
  | some (logical, uid) => ⟨logical, uid⟩

/-- R130. -/
def execAuthenticate (target : Option (Byte × List Byte)) (k : KeyType) (block : Byte) (key : List Byte) (s : State) :
    StepOutcome :=
  (exchange (authPayload s.consumer (authSession target s) k block key) 0 s).next

/-- R131. -/
def execReadBlock (target : Option Byte) (block : Byte) (s : State) : StepOutcome :=
  (exchange (readPayload s.consumer (target.getD s.session.logical) block) 16 s).next

/-- R132. -/
def execWriteBlock (target : Option Byte) (block : Byte) (data : List Byte) (s : State) : StepOutcome :=
  (exchange (writePayload s.consumer (target.getD s.session.logical) block data) 0 s).next

end Sys2Proof.Machine
end

