-- ==== Sys2Proof/Machine/Frames.lean ====
section
/-! DEFINITION. The rows of the opcode table that are no host operation: the frames, the link transactions, the status
byte, the internal step `probe` and the helpers (R46 to R55, R70, R71, R102; log 12, 13). -/

namespace Sys2Proof.Machine

/-! ## Frames (log 12) -/

/-- A normal frame presented to the block is put to the NIF test of `validate` (R51, R68). -/
def execNif (frame : List Byte) (s : State) : StepOutcome := (opValidate frame s).next (.verdict (frameValid frame))

/-- A frame of direction host to chip crosses the link in a write transaction (R48, R52, R87). -/
def execNifH2C (frame : List Byte) (s : State) : StepOutcome := (opWriteFrame frame s).next .none

/-- A frame of direction chip to host is received by the codec, which accepts or rejects it (R48, R69). -/
def execNifC2H (frame : List Byte) (s : State) : StepOutcome := (opDecode frame s).next (decodedFrame frame)

/-- A fixed frame outside an ACK read is put to the ACK comparison, and the verdict returned: ACKBUF and ACK_OK are for
`issue` alone to write (R13, R19). The ACK is recognised by the comparison (R49, R70). -/
def execAckFrame (s : State) : StepOutcome := .next { s with output := .verdict (isAck Config.ackFrame) }

/-- The NACK is a mismatch like any other (R50, R70). -/
def execNackFrame (s : State) : StepOutcome := .next { s with output := .verdict (isAck Config.nackFrame) }

/-! ## Link transactions and the status byte (log 13) -/

/-- A step of an operation, executed alone: it returns no result of its own when it completes; a failure is raised as
R146 says. -/
def Reply.bare (r : Reply) : Reply := if r.res = .ok then r else r.finish

/-- A link transaction needs `TS = Idle`, the precondition of `Select` (R80); else the request is refused (R145). -/
def State.whenIdle (s : State) (r : Reply) : Reply := if s.link.ts = .idle then r.bare else refuseRequest s

/-- R52. -/
def execWriteTxn (bytes : List Byte) (s : State) : StepOutcome :=
  (s.whenIdle (s.onLink (writeTxn s.cfg bytes s.link))).next .none

/-- R53: opened and closed, `len` bytes in all. -/
def opReadTxn (len : Nat) (s : State) : Reply := s.whenIdle (s.onLink (closeAfter (openRead s.cfg len s.link)))

def execReadTxn (len : Nat) (s : State) : StepOutcome :=
  let r := opReadTxn len s
  r.next r.readOutput

/-- R54. -/
def opStatusTxn (s : State) : Reply :=
  let t := statusTxn s.cfg s.link
  s.whenIdle (s.onLink ⟨t.2, if t.1.isSome then .ok else .transportError, t.1.toList⟩)

def execStatusTxn (s : State) : StepOutcome :=
  let r := opStatusTxn s
  r.next (if r.res = .ok then .data r.data else .none)

/-- R55: the byte's ready bit is interpreted and the verdict returned. No probe is made, so STATUS and READY stay: only a
probe that completed its exchanges writes them (R18). -/
def execStatusByte (status : Byte) (s : State) : StepOutcome := .next { s with output := .verdict (readyOf s.cfg status) }

/-! ## Internal step and helpers -/

/-- R102. -/
def opProbe (s : State) : Reply :=
  let t := probe s.cfg s.link s.poll
  s.whenIdle (s.onPoll ⟨t.2.1, t.2.2, if t.1 then .ok else .transportError⟩)

def execProbe (s : State) : StepOutcome := (opProbe s).next .none

/-- R70: touches no state; the verdict is returned. -/
def execIsAck (b : List Byte) (s : State) : StepOutcome := .next { s with output := .verdict (isAck b) }

/-- R70. -/
def execIsNack (b : List Byte) (s : State) : StepOutcome := .next { s with output := .verdict (isNack b) }

/-- R71. -/
def execHeaderOk (h : List Byte) (s : State) : StepOutcome := .next { s with output := .verdict (headerOk h) }

end Sys2Proof.Machine
end

