-- ==== Sys2Proof/Machine/System.lean ====
section
/-! DEFINITION. `initialize` (R160, R161) and the reserved request words (R59). -/

namespace Sys2Proof.Machine

/-- One free value: number `draws` of the kind asked for. -/
def Link.free {α : Type} (kind : Nat → α) (l : Link) : α × Link := (kind l.draws, { l with draws := l.draws + 1 })

/-- CFG from the operand of `initialize`, with what it needs of free values (log 28). -/
def Link.freeCfg (c : CfgArg) (l : Link) : Cfg × Link := (resolveCfg c l.draws, { l with draws := l.draws + cfgDraws })

/-- `initialize(cfg)` up to its return: CFG takes the operand with its defaults, every register the value of R27, and what
R27 leaves unspecified a free value (log 8); an open stream is abandoned by releasing select (R161), the one event there
can be (R160). -/
def initializeBlock (c : CfgArg) (s : State) : Reply :=
  let cfg := s.link.release.freeCfg c
  let buf := cfg.2.freeBytes cfg.1.txCap
  let ack := buf.2.freeBytes Config.ackLen
  let status := ack.2.free Config.freeByte
  let cnt := status.2.free Config.freeNat
  let latch := cnt.2.free Config.freeLatch
  ⟨{ s with
      link := { latch.2 with ts := .idle, sel := .released, cnt := cnt.1 }
      cc := .idle
      tx := { mem := Memory.writeBytes [] 0 buf.1, len := 0 }
      poll := { elapsed := 0, probes := 0, status := status.1, ready := false }
      ackbuf := ack.1
      lcsOk := false
      dcsOk := false
      ackOk := false
      cfg := cfg.1
      latch := latch.1 }, .ok, []⟩

def opInitializeBlock (c : CfgArg) (s : State) : Reply := (initializeBlock c s).finish

/-- R161. -/
def execInitializeBlock (c : CfgArg) (s : State) : StepOutcome := (opInitializeBlock c s).next .none

/-- R59: refused, whatever OPW[3:0] is. -/
def execReservedB (_low : BitVec 4) (s : State) : StepOutcome := (refuseRequest s).next .none

/-- R59. -/
def execReservedC (_low : BitVec 4) (s : State) : StepOutcome := (refuseRequest s).next .none

/-- R59. -/
def execReservedD (_low : BitVec 4) (s : State) : StepOutcome := (refuseRequest s).next .none

/-- R59. -/
def execReservedE (_low : BitVec 4) (s : State) : StepOutcome := (refuseRequest s).next .none

end Sys2Proof.Machine
end

