-- ==== Sys2Proof/Machine/Dispatch.lean ====
section
/-! DEFINITION. The dispatch: one arm per constructor of Instr. -/

namespace Sys2Proof.Machine

def exec (i : Instr) (s : State) : Host.Outcome State Fault Refusal :=
  match i with
  -- frames
  | .nif frame => Sys2Proof.Machine.execNif frame s
  | .nifH2C frame => Sys2Proof.Machine.execNifH2C frame s
  | .nifC2H frame => Sys2Proof.Machine.execNifC2H frame s
  | .ackFrame => Sys2Proof.Machine.execAckFrame s
  | .nackFrame => Sys2Proof.Machine.execNackFrame s
  -- link transactions and the status byte
  | .writeTxn bytes => Sys2Proof.Machine.execWriteTxn bytes s
  | .readTxn len => Sys2Proof.Machine.execReadTxn len s
  | .statusTxn => Sys2Proof.Machine.execStatusTxn s
  | .statusByte status => Sys2Proof.Machine.execStatusByte status s
  -- frame codec
  | .encode tfi payload => Sys2Proof.Machine.execEncode tfi payload s
  | .validate frame => Sys2Proof.Machine.execValidate frame s
  | .decode frame => Sys2Proof.Machine.execDecode frame s
  -- transport session
  | .writeFrame bytes => Sys2Proof.Machine.execWriteFrame bytes s
  | .beginRead len => Sys2Proof.Machine.execBeginRead len s
  | .continueRead len => Sys2Proof.Machine.execContinueRead len s
  | .endRead => Sys2Proof.Machine.execEndRead s
  | .readAll len => Sys2Proof.Machine.execReadAll len s
  -- command channel
  | .issue tfi payload => Sys2Proof.Machine.execIssue tfi payload s
  | .pollReady timeout interval => Sys2Proof.Machine.execPollReady timeout interval s
  | .readResponse len start conclude => Sys2Proof.Machine.execReadResponse len start conclude s
  | .readResponseFull len => Sys2Proof.Machine.execReadResponseFull len s
  | .readResponseOpen len => Sys2Proof.Machine.execReadResponseOpen len s
  | .readResponseContinue len => Sys2Proof.Machine.execReadResponseContinue len s
  | .readResponseClose len => Sys2Proof.Machine.execReadResponseClose len s
  -- reset and reserved words
  | .initializeBlock cfg => Sys2Proof.Machine.execInitializeBlock cfg s
  | .reservedB low => Sys2Proof.Machine.execReservedB low s
  | .reservedC low => Sys2Proof.Machine.execReservedC low s
  | .reservedD low => Sys2Proof.Machine.execReservedD low s
  | .reservedE low => Sys2Proof.Machine.execReservedE low s
  -- internal step and helpers
  | .probe => Sys2Proof.Machine.execProbe s
  | .isAck b => Sys2Proof.Machine.execIsAck b s
  | .isNack b => Sys2Proof.Machine.execIsNack b s
  | .headerOk h => Sys2Proof.Machine.execHeaderOk h s
  -- consumer sequences
  | .detect => Sys2Proof.Machine.execDetect s
  | .bind tag => Sys2Proof.Machine.execBind tag s
  | .authenticate target keyType block key => Sys2Proof.Machine.execAuthenticate target keyType block key s
  | .readBlock target block => Sys2Proof.Machine.execReadBlock target block s
  | .writeBlock target block data => Sys2Proof.Machine.execWriteBlock target block data s

end Sys2Proof.Machine
end

