-- ==== Sys2Proof/Machine/Step.lean ====
section
/-! DEFINITION. One step: the host's next request is taken, decoded and executed (R37, R172). -/

namespace Sys2Proof.Machine

/-- A request, once taken: its instruction is executed; one that is no instruction is rejected (R59). -/
def State.serve (r : Request) (s : State) : Host.Outcome State Fault Refusal :=
  match decode r with
  | .ok i => exec i s
  | .error e => rejectRequest e s

/-- One step; with no request the block waits (R160). -/
def step (s : State) : Host.Outcome State Fault Refusal :=
  match s.requests with
  | [] => .next s
  | r :: rest => State.serve r { s with requests := rest }

/-- The request a word of the opcode table stands for, placed where `step` takes its next one. -/
def State.withFetchWord (s : State) (nbits w : Nat) : State :=
  { s with requests := requestOfWord nbits w :: s.requests }

end Sys2Proof.Machine
end

