-- ==== Sys2Proof/Safety.lean ====
section
/-! DEFINITION. What counts as a safe run: the between-operations invariant (R12, R14, R15, R26, R95), the discipline of the
event trace (R37, R81, R146), a clean end (R175), and the frames statements are written in. -/

namespace Sys2Proof

/-- The ranges of CFG (R6). -/
def Cfg.legal (c : Cfg) : Prop :=
  c.maxPd ≤ 254 ∧ 8 ≤ c.txCap ∧ 1 ≤ c.defaultInterval ∧ c.readyMask = 0x01 ∧ c.readyValue = true

end Sys2Proof

namespace Sys2Proof.Machine

/-! ## The event trace -/

/-- Where a trace stands: no transaction open, one open, or one whose last exchange failed. -/
inductive Scan where
  | closed | opened | failed
deriving DecidableEq, Repr

/-- One event: exchanges only inside a transaction, and after a failed one nothing but `Rel` (R37, R146). -/
def Scan.next : Scan → Event → Option Scan
  | .closed, .sel => some .opened
  | .closed, .sleep _ => some .closed
  | .opened, .sleep _ => some .opened
  | .opened, .x _ _ => some .opened
  | .opened, .xfail _ => some .failed
  | .opened, .rel => some .closed
  | .failed, .rel => some .closed
  | .closed, .rel | .closed, .x _ _ | .closed, .xfail _ => none
  | .opened, .sel => none
  | .failed, .sel | .failed, .sleep _ | .failed, .x _ _ | .failed, .xfail _ => none

def Scan.run : Scan → List Event → Option Scan
  | sc, [] => some sc
  | sc, e :: es =>
    match sc.next e with
    | some sc' => Scan.run sc' es
    | none => none

/-- A trace is disciplined, and ends inside a transaction exactly when select is asserted. -/
def Link.traced (l : Link) : Prop :=
  Scan.run .closed l.trace = some (if l.sel = .asserted then .opened else .closed)

/-- Milliseconds slept in a trace (R177). -/
def sleptIn : List Event → Nat
  | [] => 0
  | .sleep t :: es => t + sleptIn es
  | .sel :: es | .rel :: es | .x _ _ :: es | .xfail _ :: es => sleptIn es

/-! ## Scripts of the environment -/

/-- The environment answers with these bytes, in order. -/
def answersOf (rxs : List Byte) : List Answer := rxs.map Answer.ok

/-- The exchanges that send `txs` and receive `rxs`, in order (R37). -/
def exchanges (txs rxs : List Byte) : List Event := List.zipWith Event.x txs rxs

/-- The exchanges of a read of `ds` (R53). -/
def dummyReads (dummy : Byte) (ds : List Byte) : List Event := ds.map (Event.x dummy)

/-- One status transaction: `a` received with the probe byte, `b` the status byte (R54). -/
def statusEvents (cfg : Cfg) (ab : Byte × Byte) : List Event :=
  [.sel, .x cfg.statusProbe ab.1, .x cfg.dummy ab.2, .rel]

/-- The answers that make the probes read `abs` (R54). -/
def probeAnswers (abs : List (Byte × Byte)) : List Answer := abs.flatMap fun ab => [.ok ab.1, .ok ab.2]

/-- Probes that did not report ready, each followed by a sleep (R103). -/
def waitingEvents (cfg : Cfg) (interval : Nat) (abs : List (Byte × Byte)) : List Event :=
  abs.flatMap fun ab => statusEvents cfg ab ++ [.sleep interval]

/-- The free bytes a failed read returns (R44). -/
def freeData (draws len : Nat) : List Byte := (List.range len).map fun k => Config.freeByte (draws + k)

/-! ## Between operations -/

/-- Between operations the link is idle and released, or streaming and asserted (R26, R95). -/
def Link.settled (l : Link) : Prop :=
  (l.ts = .idle ∧ l.sel = .released) ∨ (l.ts = .streaming ∧ l.sel = .asserted)

/-- TXBUF is canonical, within its TX_CAP bytes, and TXLEN at most TX_CAP (R12). -/
def TxBuf.within (t : TxBuf) (cap : Nat) : Prop :=
  t.mem.wf ∧ (∀ c ∈ t.mem, c.1 < cap) ∧ t.len ≤ cap

/-- The invariant of the machine between operations. -/
structure State.Inv (s : State) : Prop where
  settled : s.link.settled
  traced : s.link.traced
  channel : s.cc = .idle ∨ s.cc = .acked ∨ s.cc = .failed
  tx : s.tx.within s.cfg.txCap
  ackbuf : s.ackbuf.length = Config.ackLen
  ack : s.ackOk = true → s.ackbuf = Config.ackFrame
  checks : s.dcsOk = true → s.lcsOk = true
  failed : s.result = .transportError ∨ s.result = .timeoutError ∨ s.result = .ackMismatch → s.link.ts = .idle
  cfg : s.cfg.legal
  misuse : s.result = .seqFault → s.seqFaulted = true

/-! ## What an operation returns -/

/-- The state after an operation has returned: RESULT, what the host was given, and the operand latch; nothing else
differs from `s` (R16, R20). -/
def State.returned (s : State) (r : Result) (out : Output) (l : Latch) : State := { s with result := r, output := out, latch := l }

/-- The state after a refused request: RESULT and the mark of R175; nothing else but what the host is given differs from
`s` (R93, R145). -/
def State.refusal (s : State) (out : Output) : State := { s with result := .seqFault, seqFaulted := true, output := out }

/-- The state `initialize` leaves but for RESULT and what it returns: the registers at R27's values, CFG as `cfg`, and what
R27 leaves unspecified as given (R160, R161). -/
def State.initialized (s : State) (cfg : Cfg) (cnt draws : Nat) (mem : Memory) (status : Byte) (ack : List Byte) : State :=
  { s with
    link := {
      ts := .idle, sel := .released, cnt := cnt, answers := s.link.answers, draws := draws,
      trace := s.link.trace ++ (if s.link.sel = .asserted then [.rel] else []) }
    cc := .idle
    tx := { mem := mem, len := 0 }
    poll := { elapsed := 0, probes := 0, status := status, ready := false }
    ackbuf := ack, lcsOk := false, dcsOk := false, ackOk := false, cfg := cfg }

/-! ## A command handshake -/

/-- What the environment answers during one `issue` until the ACK is read: the bytes received during the write, the two
bytes of each probe that is not ready, those of the probe that is, and the byte received with READ_PRIME. -/
structure Handshake where
  written : List Byte
  waits : List (Byte × Byte)
  ready : Byte × Byte
  prime : Byte
deriving DecidableEq, Repr

/-- The answers, the 6 bytes of the ACK read being `a`. -/
def Handshake.answers (h : Handshake) (a : List Byte) : List Answer :=
  answersOf h.written ++ (probeAnswers h.waits ++ .ok h.ready.1 :: .ok h.ready.2 :: .ok h.prime :: answersOf a)

/-- The handshake fits the frame and the poll's bound: one byte for each byte written, and no wait past the timeout
(R52, R103, R105). -/
def Handshake.timely (h : Handshake) (cfg : Cfg) (frame : List Byte) : Prop :=
  h.written.length = (writeBody cfg frame).length ∧ (∀ ab ∈ h.waits, ab.2.getLsbD 0 = false) ∧ h.ready.2.getLsbD 0 = true ∧
    h.waits.length * (cfg.defaultInterval + cfg.tProbe) ≤ cfg.defaultTimeout

/-- The events of a write transaction (R52). -/
def writeEvents (cfg : Cfg) (bytes rxs : List Byte) : List Event :=
  [.sel, .sleep cfg.tSettle] ++ exchanges (writeBody cfg bytes) rxs ++ [.rel]

/-- The events that open a read transaction and read `ds` (R53). -/
def openEvents (cfg : Cfg) (prime : Byte) (ds : List Byte) : List Event :=
  [.sel, .sleep cfg.tSettle, .x cfg.readPrime prime] ++ dummyReads cfg.dummy ds

/-- The events of the handshake: the write, the probes with the sleeps between them, the ACK read (R101). -/
def Handshake.events (h : Handshake) (cfg : Cfg) (frame a : List Byte) : List Event :=
  writeEvents cfg frame h.written ++ waitingEvents cfg cfg.defaultInterval h.waits ++ statusEvents cfg h.ready ++
    openEvents cfg h.prime a ++ [.rel]

/-- The poll registers after it (R17, R18, R103). -/
def Handshake.poll (h : Handshake) (cfg : Cfg) : Poll where
  elapsed := h.waits.length * (cfg.defaultInterval + cfg.tProbe) + cfg.tProbe
  probes := h.waits.length + 1
  status := h.ready.2
  ready := true

/-- The state in which `issue` compares the 6 bytes `a`: what it has written but CC and RESULT (R101, R104). -/
def State.answered (s : State) (h : Handshake) (frame a : List Byte) (rest : List Answer) (cnt : Nat) : State :=
  { s with
    link := { s.link with
      ts := .idle, sel := .released, cnt := cnt, answers := rest, trace := s.link.trace ++ h.events s.cfg frame a }
    tx := s.tx.load frame
    poll := h.poll s.cfg
    ackbuf := a
    ackOk := isAck a }

/-- The run has ended cleanly (R175): no request is left, no stream open, and no operation returned `SeqFault`. -/
def State.endedCleanly (s : State) : Prop :=
  s.requests = [] ∧ s.link.ts = .idle ∧ s.link.sel = .released ∧ s.seqFaulted = false

/-! ## Which instructions can write what -/

/-- The row of one of the four modes of `read_response` (R56). -/
def modeRow (start conclude : Bool) (len : Nat) : Instr :=
  match start, conclude with
  | true, true => .readResponseFull len
  | true, false => .readResponseOpen len
  | false, false => .readResponseContinue len
  | false, true => .readResponseClose len

/-- The TFI and the payload of the one command an instruction issues, where it issues one (R60, R124, R128). -/
def commandOf (s : State) : Instr → Option (Byte × List Byte)
  | .issue tfi p => some (tfiOr tfi, p)
  | .detect => some (Config.tfiH2C, detectPayload s.consumer)
  | .authenticate tg k blk key => some (Config.tfiH2C, authPayload s.consumer (authSession tg s) k blk key)
  | .readBlock tg blk => some (Config.tfiH2C, readPayload s.consumer (tg.getD s.session.logical) blk)
  | .writeBlock tg blk data => some (Config.tfiH2C, writePayload s.consumer (tg.getD s.session.logical) blk data)
  | _ => none

/-- Instructions that judge a frame with `validate` or `decode` (R19, R129; log 12). -/
def judges : Instr → Bool
  | .validate _ | .decode _ | .nif _ | .nifC2H _ | .authenticate _ _ _ _ | .readBlock _ _ | .writeBlock _ _ _ => true
  | _ => false

/-- Instructions that make a probe (R17, R18). -/
def probes : Instr → Bool
  | .probe | .pollReady _ _ | .issue _ _ | .detect => true
  | .authenticate _ _ _ _ | .readBlock _ _ | .writeBlock _ _ _ => true
  | _ => false

/-- Instructions that run `issue`, whose ACK check alone writes ACKBUF and ACK_OK (R13, R19, R104). -/
def acks : Instr → Bool
  | .issue _ _ | .detect => true
  | .authenticate _ _ _ _ | .readBlock _ _ | .writeBlock _ _ _ => true
  | _ => false

/-- The codec's operations, the helpers, `bind`, and the rows executed on host data alone: no access to the link
(R30, R76, R127). -/
def offLink : Instr → Bool
  | .encode _ _ | .validate _ | .decode _ | .isAck _ | .isNack _ | .headerOk _ | .bind _ => true
  | .nif _ | .nifC2H _ | .ackFrame | .nackFrame | .statusByte _ => true
  | .reservedB _ | .reservedC _ | .reservedD _ | .reservedE _ => true
  | _ => false

def resets : Instr → Bool
  | .initializeBlock _ => true
  | _ => false

/-! ## Frames -/

/-- Every byte of TXBUF and its length are as in `s`. -/
def State.sameTx (s t : State) : Prop := (∀ a, t.tx.mem.byte a = s.tx.mem.byte a) ∧ t.tx.len = s.tx.len

end Sys2Proof.Machine
end

