-- ==== Sys2Proof/Certificates/Slice0/Obligations.lean ====
section
/-! DEFINITION. The statements for the provers. Each names the rules of spec/ it formalises; where the model adds something
of its own (a log entry), the docstring says so. `l` is the operand latch and `c` the byte counter an operation leaves behind,
which no statement of a rule constrains (R16). -/

section

open Sys2Proof Sys2Proof.Machine

/-! ## Frame codec -/

/-- R67: `encode` puts `00 00 FF LEN LCS TFI PD DCS 00` at offset 0 of TXBUF and returns it, or rejects and writes nothing.
Bytes of TXBUF past the frame, and everything else, are unchanged. -/
def Obligations.EncodePutsTheFrameInTxbuf : Prop :=
  ∀ (t : Byte) (p : List Byte) (s : State), s.tx.mem.wf →
    let n := p.length
    let f : List Byte :=
      [0x00, 0x00, 0xFF, BitVec.ofNat 8 (n + 1), neg8 (n + 1), t] ++ p ++ [neg8 ((t.toNat + sum8 p) % 256), 0x00]
    (n ≤ s.cfg.maxPd ∧ n + 8 ≤ s.cfg.txCap → ∃ (l : Latch) (tx : TxBuf),
      exec (.encode t p) s = .next (({ s with tx := tx } : State).returned .ok (.frame f) l) ∧
      tx.mem.wf ∧ tx.len = n + 8 ∧ tx.contents = f ∧ ∀ a, n + 8 ≤ a → tx.mem.byte a = s.tx.mem.byte a) ∧
    (n > s.cfg.maxPd ∨ n + 8 > s.cfg.txCap → ∃ l : Latch,
      exec (.encode t p) s = .next (s.returned .encodeReject .none l))

/-- R68: LCS_OK and DCS_OK as the pseudocode sets them, their conjunction returned, RESULT `Ok`, nothing else written. -/
def Obligations.ValidateChecksLengthAndData : Prop :=
  ∀ (f : List Byte) (s : State), ∃ (l : Latch) (x y : Bool),
    exec (.validate f) s = .next (({ s with lcsOk := x, dcsOk := y } : State).returned .ok (.verdict (x && y)) l) ∧
    let len := (byteAt f 3).toNat
    (x = true ↔ 8 ≤ f.length ∧ (len + (byteAt f 4).toNat) % 256 = 0) ∧
    (y = true ↔ x = true ∧ 1 ≤ len ∧ f.length = len + 7 ∧
      (sum8 (slice f 5 (5 + len)) + (byteAt f (5 + len)).toNat) % 256 = 0)

/-- R69: `decode` writes the flags `validate` writes, and returns the TFI and the payload exactly where both are set. -/
def Obligations.DecodeAcceptsWhatValidateAccepts : Prop :=
  ∀ (f : List Byte) (s : State), ∃ (v : State) (l : Latch), exec (.validate f) s = .next v ∧
    exec (.decode f) s = .next (({ s with lcsOk := v.lcsOk, dcsOk := v.dcsOk } : State).returned .ok
      (if v.lcsOk = true ∧ v.dcsOk = true then .accept (byteAt f 5) (slice f 6 (5 + (byteAt f 3).toNat)) else .reject) l)

/-- R72, which the spec derives from R65, R67 and R68: every frame `encode` returns has its length, its constants and both
checksums right, and `validate` accepts it. -/
def Obligations.EncodedFramesSatisfyTheChecksums : Prop :=
  ∀ (t : Byte) (p : List Byte) (s : State), s.cfg.legal → p.length ≤ s.cfg.maxPd → p.length + 8 ≤ s.cfg.txCap →
    ∃ (u v : State) (f : List Byte), exec (.encode t p) s = .next u ∧ u.output = .frame f ∧
      f.length = p.length + 8 ∧ (byteAt f 3).toNat = p.length + 1 ∧
      ((byteAt f 3).toNat + (byteAt f 4).toNat) % 256 = 0 ∧
      ((byteAt f 5).toNat + sum8 (slice f 6 (6 + p.length)) + (byteAt f (6 + p.length)).toNat) % 256 = 0 ∧
      slice f 0 3 = [0x00, 0x00, 0xFF] ∧ byteAt f (f.length - 1) = 0x00 ∧
      exec (.validate f) u = .next v ∧ v.output = .verdict true

/-- R73, which the spec derives from R67 to R69: `decode` undoes `encode`; and `encode` of what `decode` accepted gives
the frame back when it is canonical (R62), and otherwise differs from it at the constants only. -/
def Obligations.DecodeUndoesEncode : Prop :=
  (∀ (t : Byte) (p : List Byte) (s : State), s.cfg.legal → p.length ≤ s.cfg.maxPd → p.length + 8 ≤ s.cfg.txCap →
    ∃ (u v : State) (f : List Byte), exec (.encode t p) s = .next u ∧ u.output = .frame f ∧
      exec (.decode f) u = .next v ∧ v.output = .accept t p) ∧
  (∀ (t : Byte) (p f : List Byte) (s u : State), s.cfg.legal → exec (.decode f) s = .next u → u.output = .accept t p →
    p.length ≤ s.cfg.maxPd → p.length + 8 ≤ s.cfg.txCap →
    ∃ (v : State) (g : List Byte), exec (.encode t p) u = .next v ∧ v.output = .frame g ∧
      (slice f 0 3 = [0x00, 0x00, 0xFF] ∧ byteAt f (f.length - 1) = 0x00 → g = f) ∧
      (¬ (slice f 0 3 = [0x00, 0x00, 0xFF] ∧ byteAt f (f.length - 1) = 0x00) → g ≠ f ∧ g.length = f.length ∧
        ∀ i, 3 ≤ i → i ≤ 5 + (byteAt f 3).toNat → byteAt g i = byteAt f i))

/-- R74, which the spec derives from R65 and R68: one byte of LEN, LCS, TFI, payload or DCS changed is rejected; one of
the constants changed is not. -/
def Obligations.SingleByteMutationIsRejected : Prop :=
  ∀ (f : List Byte) (i : Nat) (b : Byte) (s u : State), exec (.validate f) s = .next u → u.output = .verdict true →
    b ≠ byteAt f i →
    (3 ≤ i ∧ i ≤ 5 + (byteAt f 3).toNat → ∃ v, exec (.validate (f.set i b)) s = .next v ∧ v.output = .verdict false) ∧
    (i < 3 ∨ i = 6 + (byteAt f 3).toNat → ∃ v, exec (.validate (f.set i b)) s = .next v ∧ v.output = .verdict true)

/-- R75, which the spec derives from R68 and R70: neither fixed frame, nor any string with the LEN and LCS of one, is a
well-formed frame, and no well-formed frame is an ACK. -/
def Obligations.AckIsNeverAFrame : Prop :=
  (∀ (f : List Byte) (s : State), f = Config.ackFrame ∨ f = Config.nackFrame ∨
      (byteAt f 3 = 0x00 ∧ byteAt f 4 = 0xFF) ∨ (byteAt f 3 = 0xFF ∧ byteAt f 4 = 0x00) →
    ∃ v, exec (.validate f) s = .next v ∧ v.output = .verdict false) ∧
  (∀ (f : List Byte) (s u : State), exec (.validate f) s = .next u → u.output = .verdict true →
    ∃ v, exec (.isAck f) s = .next v ∧ v.output = .verdict false)

/-- R70: the two comparisons, which touch no state. -/
def Obligations.AckComparisonIsExact : Prop :=
  ∀ (b : List Byte) (s : State),
    exec (.isAck b) s = .next { s with output := .verdict (decide (b = [0x00, 0x00, 0xFF, 0x00, 0xFF, 0x00])) } ∧
    exec (.isNack b) s = .next { s with output := .verdict (decide (b = [0x00, 0x00, 0xFF, 0xFF, 0x00, 0x00])) }

/-- The header test of a chunk of at least 6 bytes is R71's. On a shorter one R71 gives no value: that the request then
completes, with some verdict and no other change, is the model's choice (log 15). -/
def Obligations.HeaderTestChecksLenAndLcs : Prop :=
  ∀ (h : List Byte) (s : State), ∃ v : Bool, exec (.headerOk h) s = .next { s with output := .verdict v } ∧
    (6 ≤ h.length → (v = true ↔ ((byteAt h 3).toNat + (byteAt h 4).toNat) % 256 = 0 ∧ 1 ≤ (byteAt h 3).toNat))

/-- R76, among the properties the spec derives: the codec works in every phase, does not read TS, SEL or CC, touches no
link, and writes only what R76 lists. -/
def Obligations.CodecIsPure : Prop :=
  ∀ (i : Instr) (s : State) (k : Link) (cc : CC) (b : List Byte) (tfi : Byte),
    i = .encode tfi b ∨ i = .validate b ∨ i = .decode b ∨ i = .isAck b ∨ i = .isNack b ∨ i = .headerOk b →
    ∃ t : State, exec i s = .next t ∧ exec i { s with link := k, cc := cc } = .next { t with link := k, cc := cc } ∧
      t.link = s.link ∧ t.cc = s.cc ∧ t.poll = s.poll ∧ t.ackbuf = s.ackbuf ∧ t.ackOk = s.ackOk ∧ t.cfg = s.cfg ∧
      (i ≠ .encode tfi b → t.tx = s.tx) ∧ (i ≠ .validate b → i ≠ .decode b → t.lcsOk = s.lcsOk ∧ t.dcsOk = s.dcsOk) ∧
      (i = .isAck b ∨ i = .isNack b ∨ i = .headerOk b → t.result = s.result)

/-- R51: what a receiver reads from the first 6 bytes: ACK, NACK, a NIF header with its TFI and the count of bytes that
follow, or malformed; and of a frame `encode` builds, the NIF it is. Of fewer than 6 bytes R51 says nothing, and nothing is
said here (log 15). -/
def Obligations.HeadersAreClassified : Prop :=
  (∀ r : List Byte, 6 ≤ r.length →
    (r.take 6 = [0x00, 0x00, 0xFF, 0x00, 0xFF, 0x00] → classify r = .ack) ∧
    (r.take 6 = [0x00, 0x00, 0xFF, 0xFF, 0x00, 0x00] → classify r = .nack) ∧
    (r.take 6 ≠ Config.ackFrame → r.take 6 ≠ Config.nackFrame →
      (((byteAt r 3).toNat + (byteAt r 4).toNat) % 256 = 0 ∧ 1 ≤ (byteAt r 3).toNat →
        classify r = .nif (byteAt r 5) ((byteAt r 3).toNat + 1)) ∧
      (¬ (((byteAt r 3).toNat + (byteAt r 4).toNat) % 256 = 0 ∧ 1 ≤ (byteAt r 3).toNat) → classify r = .malformed))) ∧
  (∀ (t : Byte) (p : List Byte), p.length ≤ 254 → classify (buildFrame t p) = .nif t (p.length + 2))

/-- The rows NIF, NIF_C2H, ACK_FRAME and NACK_FRAME executed alone: the model's reading (log 12), the parts being those of
R68, R69 and R70. The two constants are compared with the ACK, and neither writes ACKBUF or ACK_OK, which only `issue`
does (R19). -/
def Obligations.FramesPresentedAlone : Prop :=
  ∀ (f : List Byte) (s : State), ∃ (v d : State) (lv ld : Latch),
    exec (.validate f) s = .next v ∧ exec (.nif f) s = .next { v with latch := lv } ∧
    exec (.decode f) s = .next d ∧ exec (.nifC2H f) s = .next { d with latch := ld } ∧
    exec .ackFrame s = .next { s with output := .verdict true } ∧
    exec .nackFrame s = .next { s with output := .verdict false } ∧
    exec (.isAck [0x00, 0x00, 0xFF, 0x00, 0xFF, 0x00]) s = exec .ackFrame s ∧
    exec (.isAck [0x00, 0x00, 0xFF, 0xFF, 0x00, 0x00]) s = exec .nackFrame s

/-- R85: eight bits, in the order BIT_ORDER names, the same order on receipt gives the byte back, and no operation changes
the order once it is fixed. -/
def Obligations.WireOrderIsTransparent : Prop :=
  (∀ b : Byte, wireBits b .msbFirst = [7, 6, 5, 4, 3, 2, 1, 0].map b.getLsbD ∧
    wireBits b .lsbFirst = [0, 1, 2, 3, 4, 5, 6, 7].map b.getLsbD) ∧
  (∀ (b : Byte) (o : BitOrder), fromWire (wireBits b o) o = b) ∧
  (∀ (i : Instr) (s t : State), (∀ g, i ≠ .initializeBlock g) → exec i s = .next t → t.cfg.bitOrder = s.cfg.bitOrder)

/-- R80 to R83: the link primitives. `Release` acts only if select is asserted; an exchange the environment answers records
`X`, one it fails `XFail`, and either moves `Selected` to `Streaming`. Where no answer is at hand the answer is a free value
(log 1). -/
def Obligations.LinkPrimitivesMoveThePhases : Prop :=
  ∀ l : Link,
    l.select = { l with sel := .asserted, ts := .selected, trace := l.trace ++ [.sel] } ∧
    (l.sel = .asserted → l.release = { l with sel := .released, ts := .idle, trace := l.trace ++ [.rel] }) ∧
    (l.sel = .released → l.release = l) ∧
    (∀ t, l.sleep t = { l with trace := l.trace ++ [.sleep t] }) ∧
    (∀ moved : TS, moved = (if l.ts = .selected then .streaming else l.ts) →
      (∀ (tx rx : Byte) (rest : List Answer), l.answers = .ok rx :: rest → ∃ c,
        l.xchg tx = (some rx, { l with answers := rest, ts := moved, cnt := c, trace := l.trace ++ [.x tx rx] })) ∧
      (∀ (tx : Byte) (rest : List Answer), l.answers = .fail :: rest → ∃ c,
        l.xchg tx = (none, { l with answers := rest, ts := moved, cnt := c, trace := l.trace ++ [.xfail tx] })) ∧
      (∀ tx : Byte, l.answers = [] → ∃ c,
        (∃ rx, l.xchg tx = (some rx, { l with
          draws := l.draws + 1, ts := moved, cnt := c, trace := l.trace ++ [.x tx rx] })) ∨
        l.xchg tx = (none, { l with draws := l.draws + 1, ts := moved, cnt := c, trace := l.trace ++ [.xfail tx] })))

/-! ## Transport session -/

/-- R87, R52: one write transaction with the prefix byte where there is one; the first failing exchange ends it with select
released; refused where a stream is open. -/
def Obligations.WriteFrameIsOneWriteTransaction : Prop :=
  ∀ (bytes : List Byte) (s : State),
    let body := s.cfg.writePrime.toList ++ bytes
    (s.link.ts = .idle →
      (∀ (rxs : List Byte) (rest : List Answer), s.link.answers = answersOf rxs ++ rest → rxs.length = body.length →
        ∃ (l : Latch) (c : Nat), exec (.writeFrame bytes) s = .next (({ s with link := { s.link with
          ts := .idle, sel := .released, cnt := c, answers := rest,
          trace := s.link.trace ++ [.sel, .sleep s.cfg.tSettle] ++ exchanges body rxs ++ [.rel] } } : State).returned
            .ok .none l)) ∧
      (∀ (pre : List Byte) (b : Byte) (post rxs : List Byte) (rest : List Answer), body = pre ++ b :: post →
        s.link.answers = answersOf rxs ++ .fail :: rest → rxs.length = pre.length →
        ∃ (l : Latch) (c : Nat), exec (.writeFrame bytes) s = .next (({ s with link := { s.link with
          ts := .idle, sel := .released, cnt := c, answers := rest,
          trace := s.link.trace ++ [.sel, .sleep s.cfg.tSettle] ++ exchanges pre rxs ++ [.xfail b, .rel] } } : State).returned
            .transportError .none l))) ∧
    (s.link.ts ≠ .idle → ∃ out, exec (.writeFrame bytes) s = .next (s.refusal out))

/-- NIF_H2C executed alone is sent in a write transaction: the model's reading (log 12) of R48 and R52. In every state, so
where an exchange fails and where a stream is open too, it does what `write_frame` of the same bytes does; from idle, with
every exchange answered, these are its events. -/
def Obligations.HostFrameIsWritten : Prop :=
  ∀ (f : List Byte) (s : State),
    (∃ (u : State) (l : Latch), exec (.writeFrame f) s = .next u ∧ exec (.nifH2C f) s = .next { u with latch := l }) ∧
    (s.link.ts = .idle → ∀ (rxs : List Byte) (rest : List Answer), s.link.answers = answersOf rxs ++ rest →
      rxs.length = (s.cfg.writePrime.toList ++ f).length →
      ∃ (l : Latch) (c : Nat), exec (.nifH2C f) s = .next (({ s with link := { s.link with
        ts := .idle, sel := .released, cnt := c, answers := rest,
        trace := s.link.trace ++ [.sel, .sleep s.cfg.tSettle] ++ exchanges (s.cfg.writePrime.toList ++ f) rxs ++
          [.rel] } } : State).returned .ok .none l))

/-- R88: the priming byte, then `len` bytes; the stream stays open on `Ok`; a failure, of the priming exchange or of a data
exchange, releases select; refused where a stream is open. -/
def Obligations.BeginReadOpensAStream : Prop :=
  ∀ (len : Nat) (s : State),
    (s.link.ts = .idle →
      (∀ (q : Byte) (ds : List Byte) (rest : List Answer), s.link.answers = .ok q :: answersOf ds ++ rest → ds.length = len →
        ∃ (l : Latch) (c : Nat), exec (.beginRead len) s = .next (({ s with link := { s.link with
          ts := .streaming, sel := .asserted, cnt := c, answers := rest,
          trace := s.link.trace ++ [.sel, .sleep s.cfg.tSettle, .x s.cfg.readPrime q] ++ ds.map (.x s.cfg.dummy) } } :
          State).returned .ok (.data ds) l)) ∧
      (∀ rest : List Answer, s.link.answers = .fail :: rest →
        ∃ (l : Latch) (c d : Nat) (out : Output), exec (.beginRead len) s = .next (({ s with link := { s.link with
          ts := .idle, sel := .released, cnt := c, answers := rest, draws := d,
          trace := s.link.trace ++ [.sel, .sleep s.cfg.tSettle, .xfail s.cfg.readPrime, .rel] } } : State).returned
            .transportError out l)) ∧
      (∀ (q : Byte) (ds : List Byte) (rest : List Answer), s.link.answers = .ok q :: answersOf ds ++ .fail :: rest →
        ds.length < len →
        ∃ (l : Latch) (c d : Nat) (out : Output), exec (.beginRead len) s = .next (({ s with link := { s.link with
          ts := .idle, sel := .released, cnt := c, answers := rest, draws := d,
          trace := s.link.trace ++ [.sel, .sleep s.cfg.tSettle, .x s.cfg.readPrime q] ++ ds.map (.x s.cfg.dummy) ++
            [.xfail s.cfg.dummy, .rel] } } : State).returned .transportError out l))) ∧
    (s.link.ts ≠ .idle → ∃ out, exec (.beginRead len) s = .next (s.refusal out))

/-- R89: `len` more bytes with no select, sleep or priming byte; a failure closes the stream; refused where none is open. -/
def Obligations.ContinueReadExtendsTheStream : Prop :=
  ∀ (len : Nat) (s : State),
    (s.link.ts = .streaming → s.link.sel = .asserted →
      (∀ (ds : List Byte) (rest : List Answer), s.link.answers = answersOf ds ++ rest → ds.length = len →
        ∃ (l : Latch) (c : Nat), exec (.continueRead len) s = .next (({ s with link := { s.link with
          cnt := c, answers := rest, trace := s.link.trace ++ ds.map (.x s.cfg.dummy) } } : State).returned
            .ok (.data ds) l)) ∧
      (∀ (ds : List Byte) (rest : List Answer), s.link.answers = answersOf ds ++ .fail :: rest → ds.length < len →
        ∃ (l : Latch) (c d : Nat) (out : Output), exec (.continueRead len) s = .next (({ s with link := { s.link with
          ts := .idle, sel := .released, cnt := c, answers := rest, draws := d,
          trace := s.link.trace ++ ds.map (.x s.cfg.dummy) ++ [.xfail s.cfg.dummy, .rel] } } : State).returned
            .transportError out l))) ∧
    (s.link.ts ≠ .streaming → ∃ out, exec (.continueRead len) s = .next (s.refusal out))

/-- R90: select is released where it is asserted; where it is released already, and so the second time, no event and no
change; always `Ok`. -/
def Obligations.EndReadIsIdempotent : Prop :=
  ∀ s : State,
    (s.link.sel = .asserted → ∃ l : Latch, exec .endRead s = .next (({ s with link := { s.link with
      ts := .idle, sel := .released, trace := s.link.trace ++ [.rel] } } : State).returned .ok .none l)) ∧
    (s.link.sel = .released → ∃ l : Latch, exec .endRead s = .next (s.returned .ok .none l)) ∧
    (∃ t : State, exec .endRead s = .next t ∧ ∃ l : Latch, exec .endRead t = .next { t with latch := l })

/-- R91: one whole read transaction, or the failure of the `begin_read` in it with select released; refused where a stream
is open. -/
def Obligations.ReadAllIsOneReadTransaction : Prop :=
  ∀ (len : Nat) (s : State),
    (s.link.ts = .idle →
      (∀ (q : Byte) (ds : List Byte) (rest : List Answer), s.link.answers = .ok q :: answersOf ds ++ rest → ds.length = len →
        ∃ (l : Latch) (c : Nat), exec (.readAll len) s = .next (({ s with link := { s.link with
          ts := .idle, sel := .released, cnt := c, answers := rest,
          trace := s.link.trace ++ [.sel, .sleep s.cfg.tSettle, .x s.cfg.readPrime q] ++ ds.map (.x s.cfg.dummy) ++
            [.rel] } } : State).returned .ok (.data ds) l)) ∧
      (∀ u : State, exec (.beginRead len) s = .next u → u.result ≠ .ok →
        u.link.ts = .idle ∧ ∃ l : Latch, exec (.readAll len) s = .next { u with latch := l })) ∧
    (s.link.ts ≠ .idle → ∃ out, exec (.readAll len) s = .next (s.refusal out))

/-- The data of a failed read are free values numbered from some count on, which the step uses up (R44; the count is the
model's, log 2): neither the bytes received nor zeros. READ_TXN alone leaves RESULT when it completes (log 13), so for it the
failure must be this read's own. -/
def Obligations.FailedReadsReturnFreeValues : Prop :=
  ∀ (i : Instr) (len : Nat) (st co : Bool) (s t : State),
    i = .beginRead len ∨ i = .continueRead len ∨ i = .readAll len ∨ i = .readTxn len ∨ i = .readResponse len st co ∨
      i = modeRow st co len →
    exec i s = .next t → t.result = .transportError → (i = .readTxn len → s.result ≠ .transportError) →
    ∃ d, s.link.draws ≤ d ∧ t.link.draws = d + len ∧
      t.output = .data ((List.range len).map fun k => Config.freeByte (d + k))

/-- The part of R53 about a stream of several operations: however a read is split into operations, the link sees one
transaction: reading `m` and then `n` bytes is reading `m + n` at once, for a read that opens the stream and for one that
extends it. -/
def Obligations.StreamSplitIsInvisible : Prop :=
  ∀ (m n : Nat) (read : Nat → Instr) (s u v : State), read = .beginRead ∨ read = .continueRead →
    exec (read m) s = .next u → u.result = .ok → exec (.continueRead n) u = .next v → v.result = .ok →
    ∃ (t : State) (d e : List Byte), u.output = .data d ∧ v.output = .data e ∧ d.length = m ∧ e.length = n ∧
      exec (read (m + n)) s = .next t ∧ t.link = v.link ∧ t.result = .ok ∧ t.output = .data (d ++ e)

/-- R93, R145: which phases admit which operation. A request that is not admitted changes RESULT alone (and marks the run,
R175); one that is admitted does not end in `SeqFault`. -/
def Obligations.OnlyAdmittedRequestsRun : Prop :=
  ∀ (s : State) (i : Instr) (len : Nat) (bytes : List Byte) (tfi : Option Byte) (tmo : Option Nat) (ivl : Option Nat)
    (co : Bool), s.cfg.legal →
    ((i = .writeFrame bytes ∨ i = .beginRead len ∨ i = .readAll len ∨ i = .issue tfi bytes ∨ i = .pollReady tmo ivl ∨
        i = .readResponse len true co ∨ i = modeRow true co len) →
      (s.link.ts ≠ .idle → ∃ out, exec i s = .next (s.refusal out)) ∧
      (s.link.ts = .idle → (i = .pollReady tmo ivl → ivl ≠ some 0) → ∃ t, exec i s = .next t ∧ t.result ≠ .seqFault)) ∧
    ((i = .continueRead len ∨ i = .readResponse len false co ∨ i = modeRow false co len) →
      (s.link.ts ≠ .streaming → ∃ out, exec i s = .next (s.refusal out)) ∧
      (s.link.ts = .streaming → ∃ t, exec i s = .next t ∧ t.result ≠ .seqFault)) ∧
    ((i = .endRead ∨ i = .encode (tfi.getD 0xD4) bytes ∨ i = .validate bytes ∨ i = .decode bytes) →
      ∃ t, exec i s = .next t ∧ t.result ≠ .seqFault) ∧
    (∃ out, exec (.pollReady tmo (some 0)) s = .next (s.refusal out))

/-! ## Command channel -/

/-- R61, R101: the pseudo-operations are their expansions, each step taken only when the one before returned `Ok`; `issue`
adds its phase check and its writes of CC, ACKBUF and ACK_OK. -/
def Obligations.PseudoOperationsAreTheirExpansions : Prop :=
  (∀ (len : Nat) (s : State), ∃ u, exec (.beginRead len) s = .next u ∧
    (∃ l, exec (modeRow true false len) s = .next { u with latch := l }) ∧
    (u.result ≠ .ok → (∃ l, exec (.readAll len) s = .next { u with latch := l }) ∧
      ∃ l, exec (modeRow true true len) s = .next { u with latch := l }) ∧
    (u.result = .ok → ∃ v, exec .endRead u = .next v ∧
      (∃ l, exec (.readAll len) s = .next { v with latch := l, output := u.output }) ∧
      ∃ l, exec (modeRow true true len) s = .next { v with latch := l, output := u.output })) ∧
  (∀ (len : Nat) (s : State), ∃ u, exec (.continueRead len) s = .next u ∧
    (∃ l, exec (modeRow false false len) s = .next { u with latch := l }) ∧
    (u.result ≠ .ok → ∃ l, exec (modeRow false true len) s = .next { u with latch := l }) ∧
    (u.result = .ok → ∃ v, exec .endRead u = .next v ∧
      ∃ l, exec (modeRow false true len) s = .next { v with latch := l, output := u.output })) ∧
  (∀ (tfi : Option Byte) (p : List Byte) (s : State), s.link.ts ≠ .idle →
    ∃ out, exec (.issue tfi p) s = .next (s.refusal out)) ∧
  (∀ (tfi : Option Byte) (p : List Byte) (s : State), s.link.ts = .idle →
    let failsAs := fun u : State =>
      ∃ l : Latch, exec (.issue tfi p) s = .next (({ u with cc := .failed } : State).returned u.result .none l)
    ∃ s1, exec (.encode (tfi.getD 0xD4) p) s = .next s1 ∧ (s1.result ≠ .ok → failsAs s1) ∧ (s1.result = .ok →
    ∃ s2, exec (.writeFrame s1.tx.contents) s1 = .next s2 ∧ (s2.result ≠ .ok → failsAs s2) ∧ (s2.result = .ok →
    ∃ s3, exec (.pollReady none none) s2 = .next s3 ∧ (s3.result ≠ .ok → failsAs s3) ∧ (s3.result = .ok →
    ∃ s4, exec (.readAll 6) s3 = .next s4 ∧ (s4.result ≠ .ok → failsAs s4) ∧ (s4.result = .ok →
    ∃ (a : List Byte) (l : Latch), s4.output = .data a ∧
      (a = Config.ackFrame → exec (.issue tfi p) s =
        .next (({ s4 with ackbuf := a, ackOk := true, cc := .acked } : State).returned .ok .none l)) ∧
      (a ≠ Config.ackFrame → exec (.issue tfi p) s =
        .next (({ s4 with ackbuf := a, ackOk := false, cc := .failed } : State).returned .ackMismatch .none l)))))))

/-- R106, R56: the four modes of `read_response`, called generally or by their own rows: what `Ok` returns and leaves, what
a failure leaves, and when the call is refused. -/
def Obligations.ReadResponseHasFourModes : Prop :=
  ∀ (i : Instr) (len : Nat) (st co : Bool) (s : State), i = .readResponse len st co ∨ i = modeRow st co len →
    (s.link.ts = (if st then .idle else .streaming) → s.link.sel = (if st then .released else .asserted) →
      let opening (q : Byte) : List Event := if st then [.sel, .sleep s.cfg.tSettle, .x s.cfg.readPrime q] else []
      (∀ (q : Byte) (ds : List Byte) (rest : List Answer),
        s.link.answers = (if st then [.ok q] else []) ++ answersOf ds ++ rest → ds.length = len →
        ∃ (l : Latch) (c : Nat), exec i s = .next (({ s with link := { s.link with
          ts := if co then .idle else .streaming, sel := if co then .released else .asserted, cnt := c, answers := rest,
          trace := s.link.trace ++ opening q ++ ds.map (.x s.cfg.dummy) ++ (if co then [.rel] else []) } } :
          State).returned .ok (.data ds) l)) ∧
      (∀ (q : Byte) (ds : List Byte) (rest : List Answer),
        s.link.answers = (if st then [.ok q] else []) ++ answersOf ds ++ .fail :: rest → ds.length < len →
        ∃ (l : Latch) (c d : Nat) (out : Output), exec i s = .next (({ s with link := { s.link with
          ts := .idle, sel := .released, cnt := c, answers := rest, draws := d,
          trace := s.link.trace ++ opening q ++ ds.map (.x s.cfg.dummy) ++ [.xfail s.cfg.dummy, .rel] } } :
          State).returned .transportError out l)) ∧
      (∀ rest : List Answer, st = true → s.link.answers = .fail :: rest →
        ∃ (l : Latch) (c d : Nat) (out : Output), exec i s = .next (({ s with link := { s.link with
          ts := .idle, sel := .released, cnt := c, answers := rest, draws := d,
          trace := s.link.trace ++ [.sel, .sleep s.cfg.tSettle, .xfail s.cfg.readPrime, .rel] } } :
          State).returned .transportError out l))) ∧
    (s.link.ts ≠ (if st then .idle else .streaming) → ∃ out, exec i s = .next (s.refusal out))

/-- R102, R54: one status transaction; STATUS, READY, PROBES and ELAPSED are written when both exchanges complete, and
unchanged when one fails. What RESULT holds after a probe run alone is left open here (log 13). -/
def Obligations.ProbeIsOneStatusTransaction : Prop :=
  ∀ (s : State) (rest : List Answer), s.cfg.legal → s.link.ts = .idle →
    (∀ a b : Byte, s.link.answers = .ok a :: .ok b :: rest → ∃ (r : Result) (c : Nat) (out : Output),
      exec .probe s = .next { s with
        link := { s.link with
          ts := .idle, sel := .released, cnt := c, answers := rest,
          trace := s.link.trace ++ [.sel, .x s.cfg.statusProbe a, .x s.cfg.dummy b, .rel] }
        poll := { elapsed := s.poll.elapsed + s.cfg.tProbe, probes := s.poll.probes + 1, status := b, ready := b.getLsbD 0 }
        result := r, output := out }) ∧
    (s.link.answers = .fail :: rest → ∃ (c : Nat) (out : Output), exec .probe s = .next { s with
        link := { s.link with
          ts := .idle, sel := .released, cnt := c, answers := rest,
          trace := s.link.trace ++ [.sel, .xfail s.cfg.statusProbe, .rel] }
        result := .transportError, output := out }) ∧
    (∀ a : Byte, s.link.answers = .ok a :: .fail :: rest → ∃ (c : Nat) (out : Output), exec .probe s = .next { s with
        link := { s.link with
          ts := .idle, sel := .released, cnt := c, answers := rest,
          trace := s.link.trace ++ [.sel, .x s.cfg.statusProbe a, .xfail s.cfg.dummy, .rel] }
        result := .transportError, output := out })

/-- From R103 and the counts of R105, which the spec marks as derived: from idle the poll returns `Ok` on the first probe that
reports ready, after `waits.length` probes that did not, each followed by one sleep, at a time not past the bound;
`TimeoutError` after exactly `floor(timeout / (interval + T_PROBE)) + 1` probes and one fewer sleeps; `TransportError`
with the first probe that fails (`second` says which of its exchanges), the registers as the probes and sleeps before it
left them. Never more than `floor(timeout / interval) + 1` probes. Refused where a stream is open or `interval = 0`. -/
def Obligations.PollReadyIsABoundedWait : Prop :=
  ∀ (tmo ivl : Option Nat) (s : State), s.cfg.legal →
    let timeout := tmo.getD s.cfg.defaultTimeout
    let interval := ivl.getD s.cfg.defaultInterval
    (s.link.ts = .idle → 1 ≤ interval →
      (∀ (waits : List (Byte × Byte)), (∀ ab ∈ waits, ab.2.getLsbD 0 = false) →
        waits.length ≤ timeout / (interval + s.cfg.tProbe) →
        (∀ (a b : Byte) (rest : List Answer), s.link.answers = probeAnswers waits ++ .ok a :: .ok b :: rest →
          b.getLsbD 0 = true ∨ waits.length = timeout / (interval + s.cfg.tProbe) →
          ∃ (l : Latch) (c : Nat), exec (.pollReady tmo ivl) s = .next (({ s with
            link := { s.link with
              ts := .idle, sel := .released, cnt := c, answers := rest,
              trace := s.link.trace ++ waitingEvents s.cfg interval waits ++ statusEvents s.cfg (a, b) }
            poll := {
              elapsed := waits.length * (interval + s.cfg.tProbe) + s.cfg.tProbe, probes := waits.length + 1,
              status := b, ready := b.getLsbD 0 } } : State).returned
                (if b.getLsbD 0 then .ok else .timeoutError) .none l)) ∧
        (∀ (a : Byte) (second : Bool) (rest : List Answer),
          s.link.answers = probeAnswers waits ++ (if second then [.ok a] else []) ++ .fail :: rest →
          ∃ (l : Latch) (c : Nat), exec (.pollReady tmo ivl) s = .next (({ s with
            link := { s.link with
              ts := .idle, sel := .released, cnt := c, answers := rest,
              trace := s.link.trace ++ waitingEvents s.cfg interval waits ++
                (if second then [.sel, .x s.cfg.statusProbe a, .xfail s.cfg.dummy, .rel]
                  else [.sel, .xfail s.cfg.statusProbe, .rel]) }
            poll := {
              elapsed := waits.length * (interval + s.cfg.tProbe), probes := waits.length,
              status := (waits.map (·.2)).getLastD s.poll.status,
              ready := if waits = [] then s.poll.ready else false } } : State).returned .transportError .none l))) ∧
      (∀ t, exec (.pollReady tmo ivl) s = .next t → t.poll.probes ≤ timeout / interval + 1)) ∧
    (s.link.ts ≠ .idle ∨ interval = 0 → ∃ out, exec (.pollReady tmo ivl) s = .next (s.refusal out))

/-- R104, R143 and the handshake of R101: the frame is written once, readiness polled, six bytes read and compared with the
ACK: `Ok` and `Acked` when all six are equal, else `AckMismatch` and `Failed`. -/
def Obligations.IssueCompletesTheHandshake : Prop :=
  ∀ (tfi : Option Byte) (p a : List Byte) (h : Handshake) (rest : List Answer) (s : State),
    let f := buildFrame (tfi.getD 0xD4) p
    s.cfg.legal → s.tx.mem.wf → s.link.ts = .idle → p.length ≤ s.cfg.maxPd → p.length + 8 ≤ s.cfg.txCap →
    h.timely s.cfg f → a.length = 6 → s.link.answers = h.answers a ++ rest →
    (s.tx.load f).contents = f ∧ (∀ o, p.length + 8 ≤ o → (s.tx.load f).mem.byte o = s.tx.mem.byte o) ∧
    ∃ (l : Latch) (c : Nat), exec (.issue tfi p) s =
      if a = [0x00, 0x00, 0xFF, 0x00, 0xFF, 0x00] then
        .next (({ s.answered h f a rest c with cc := .acked } : State).returned .ok .none l)
      else .next (({ s.answered h f a rest c with cc := .failed } : State).returned .ackMismatch .none l)

/-- R144: an oversize payload is rejected with nothing written and nothing sent, by `encode` and by `issue`, whose CC goes
to `Failed`; while a stream is open the phase test of `issue` comes first (R148). -/
def Obligations.OversizePayloadsAreRejected : Prop :=
  ∀ (tfi : Option Byte) (p : List Byte) (s : State), p.length > s.cfg.maxPd ∨ p.length + 8 > s.cfg.txCap →
    (∃ l : Latch, exec (.encode (tfi.getD 0xD4) p) s = .next (s.returned .encodeReject .none l)) ∧
    (s.link.ts = .idle → ∃ l : Latch,
      exec (.issue tfi p) s = .next (({ s with cc := .failed } : State).returned .encodeReject .none l)) ∧
    (s.link.ts ≠ .idle → ∃ out, exec (.issue tfi p) s = .next (s.refusal out))

/-- R100, R101: what every `issue` leaves, whatever the environment answers: from idle, CC is `Acked` exactly with `Ok` and
`Failed` with any failure, and the link is idle and released. -/
def Obligations.IssueLeavesAckedOrFailed : Prop :=
  ∀ (tfi : Option Byte) (p : List Byte) (s : State), s.cfg.legal → s.link.settled → s.link.traced → s.link.ts = .idle →
    ∃ t, exec (.issue tfi p) s = .next t ∧ t.link.ts = .idle ∧ t.link.sel = .released ∧ t.result ≠ .seqFault ∧
      (t.result = .ok → t.cc = .acked ∧ t.ackOk = true ∧ t.ackbuf = Config.ackFrame) ∧ (t.result ≠ .ok → t.cc = .failed)

/-- R177, which the spec derives from R101, R105 and R171: what a `poll_ready`, an `issue` and a `detect` can sleep,
whatever the environment answers: the poll's bound, and the settles of the transactions beside it (`detect` here without
the second wait of RESP_POLL). -/
def Obligations.SleepsAreBounded : Prop :=
  (∀ (tmo ivl : Option Nat) (s t : State), exec (.pollReady tmo ivl) s = .next t →
    ∃ evs, t.link.trace = s.link.trace ++ evs ∧ sleptIn evs ≤ tmo.getD s.cfg.defaultTimeout) ∧
  (∀ (tfi : Option Byte) (p : List Byte) (s t : State), exec (.issue tfi p) s = .next t →
    ∃ evs, t.link.trace = s.link.trace ++ evs ∧ sleptIn evs ≤ s.cfg.tSettle + s.cfg.defaultTimeout + s.cfg.tSettle) ∧
  (∀ s t : State, s.consumer.respPoll = false → exec .detect s = .next t →
    ∃ evs, t.link.trace = s.link.trace ++ evs ∧
      sleptIn evs ≤ s.cfg.tSettle + s.cfg.defaultTimeout + s.cfg.tSettle + s.cfg.tSettle)

/-! ## Link rows alone, reset, reserved words -/

/-- WRITE_TXN, READ_TXN and STATUS_TXN executed alone: the events of R52, R53 and R54, with RESULT left as it was, which is
the model's reading (log 13); the first exchange that fails ends the transaction with select released and RESULT
`TransportError` (R146); refused where a stream is open. -/
def Obligations.LinkTransactionsAlone : Prop :=
  ∀ (s : State) (rest : List Answer),
    let ends := fun (c d : Nat) (evs : List Event) => ({ s with link := { s.link with
      ts := .idle, sel := .released, cnt := c, answers := rest, draws := d, trace := s.link.trace ++ evs } } : State)
    let completes := fun (i : Instr) (evs : List Event) (out : Output) => ∃ c,
      exec i s = .next { ends c s.link.draws evs with output := out }
    let fails := fun (i : Instr) (evs : List Event) => ∃ (c d : Nat) (out : Output),
      exec i s = .next { ends c d evs with result := .transportError, output := out }
    (s.link.ts = .idle →
      (∀ (bytes rxs : List Byte), s.link.answers = answersOf rxs ++ rest →
        rxs.length = (s.cfg.writePrime.toList ++ bytes).length →
        completes (.writeTxn bytes)
          ([.sel, .sleep s.cfg.tSettle] ++ exchanges (s.cfg.writePrime.toList ++ bytes) rxs ++ [.rel]) .none) ∧
      (∀ (bytes pre post rxs : List Byte) (b : Byte), s.cfg.writePrime.toList ++ bytes = pre ++ b :: post →
        s.link.answers = answersOf rxs ++ .fail :: rest → rxs.length = pre.length →
        fails (.writeTxn bytes) ([.sel, .sleep s.cfg.tSettle] ++ exchanges pre rxs ++ [.xfail b, .rel])) ∧
      (∀ (q : Byte) (ds : List Byte), s.link.answers = .ok q :: answersOf ds ++ rest →
        completes (.readTxn ds.length)
          ([.sel, .sleep s.cfg.tSettle, .x s.cfg.readPrime q] ++ ds.map (.x s.cfg.dummy) ++ [.rel]) (.data ds)) ∧
      (∀ len : Nat, s.link.answers = .fail :: rest →
        fails (.readTxn len) [.sel, .sleep s.cfg.tSettle, .xfail s.cfg.readPrime, .rel]) ∧
      (∀ (len : Nat) (q : Byte) (ds : List Byte), s.link.answers = .ok q :: answersOf ds ++ .fail :: rest → ds.length < len →
        fails (.readTxn len) ([.sel, .sleep s.cfg.tSettle, .x s.cfg.readPrime q] ++ ds.map (.x s.cfg.dummy) ++
          [.xfail s.cfg.dummy, .rel])) ∧
      (∀ a b : Byte, s.link.answers = .ok a :: .ok b :: rest →
        completes .statusTxn [.sel, .x s.cfg.statusProbe a, .x s.cfg.dummy b, .rel] (.data [b])) ∧
      (s.link.answers = .fail :: rest → fails .statusTxn [.sel, .xfail s.cfg.statusProbe, .rel]) ∧
      (∀ a : Byte, s.link.answers = .ok a :: .fail :: rest →
        fails .statusTxn [.sel, .x s.cfg.statusProbe a, .xfail s.cfg.dummy, .rel])) ∧
    (s.link.ts ≠ .idle → ∀ (i : Instr) (bytes : List Byte) (len : Nat),
      i = .writeTxn bytes ∨ i = .readTxn len ∨ i = .statusTxn ∨ i = .probe → ∃ out, exec i s = .next (s.refusal out))

/-- STATUS_BYTE executed alone: its bit 0 is the verdict (R55, in the polarity of D10), bits 7 to 1 count for nothing, and
nothing is written, STATUS and READY being for a completed probe to write (R18). That the row has no more effect is the
model's reading (log 13). -/
def Obligations.StatusByteAlone : Prop :=
  ∀ (b : Byte) (s : State), s.cfg.legal →
    exec (.statusByte b) s = .next { s with output := .verdict (b.getLsbD 0) }

/-- R160, R161: `initialize` fixes CFG with the defaults of R6 and puts every register at its reset value; what R27 leaves
unspecified can be anything, TXBUF staying within its capacity; an open stream is released, the one event. The OPEN bytes
and the bit order are given and the numbers within R6, as R162 asks of the host; `InitializeRunsOnEveryRecord` has the
rest. -/
def Obligations.InitializeResetsTheBlock : Prop :=
  ∀ (g : CfgArg) (o : BitOrder) (rp sp du : Byte) (s : State),
    g.bitOrder = some o → g.readPrime = some rp → g.statusProbe = some sp → g.dummy = some du →
    g.maxPd.getD 254 ≤ 254 → 8 ≤ g.txCap.getD (g.maxPd.getD 254 + 8) → 1 ≤ g.defaultInterval.getD 10 →
    ∃ (l : Latch) (c d : Nat) (mem : Memory) (status : Byte) (ack : List Byte),
      mem.wf ∧ (∀ x ∈ mem, x.1 < g.txCap.getD (g.maxPd.getD 254 + 8)) ∧ ack.length = 6 ∧
      exec (.initializeBlock g) s = .next ((s.initialized {
        bitOrder := o, maxPd := g.maxPd.getD 254, txCap := g.txCap.getD (g.maxPd.getD 254 + 8),
        tSettle := g.tSettle.getD 5, tProbe := g.tProbe.getD 0, readPrime := rp, statusProbe := sp, dummy := du,
        writePrime := g.writePrime, readyMask := 0x01, readyValue := true, defaultTimeout := g.defaultTimeout.getD 1000,
        defaultInterval := g.defaultInterval.getD 10 } c d mem status ack).returned .ok .none l)

/-- The same of every record, complete or not: an OPEN byte or bit order that is omitted, and a number outside its range,
are stored as some value in range and nothing else is lost (a free value, the model's choice: log 28); every field that is
given in range, or has a default, is stored as R6 and R161 say. -/
def Obligations.InitializeRunsOnEveryRecord : Prop :=
  ∀ (g : CfgArg) (s : State),
    ∃ (cfg : Cfg) (l : Latch) (c d : Nat) (mem : Memory) (status : Byte) (ack : List Byte),
      cfg.legal ∧ mem.wf ∧ (∀ x ∈ mem, x.1 < cfg.txCap) ∧ ack.length = 6 ∧
      exec (.initializeBlock g) s = .next ((s.initialized cfg c d mem status ack).returned .ok .none l) ∧
      (∀ o, g.bitOrder = some o → cfg.bitOrder = o) ∧ (∀ b, g.readPrime = some b → cfg.readPrime = b) ∧
      (∀ b, g.statusProbe = some b → cfg.statusProbe = b) ∧ (∀ b, g.dummy = some b → cfg.dummy = b) ∧
      cfg.writePrime = g.writePrime ∧ cfg.tSettle = g.tSettle.getD 5 ∧ cfg.tProbe = g.tProbe.getD 0 ∧
      cfg.defaultTimeout = g.defaultTimeout.getD 1000 ∧
      (g.maxPd.getD 254 ≤ 254 → cfg.maxPd = g.maxPd.getD 254) ∧
      (8 ≤ g.txCap.getD (cfg.maxPd + 8) → cfg.txCap = g.txCap.getD (cfg.maxPd + 8)) ∧
      (1 ≤ g.defaultInterval.getD 10 → cfg.defaultInterval = g.defaultInterval.getD 10)

/-- R59, R145: every cause of a `SeqFault`, and that it changes nothing but RESULT: codes B to E (each its own row too),
non-zero OPW[3:2], mode bits on any operation but `read_response`; an operation that needs `TS = Idle` while a stream is
open; a continuation with none open; `poll_ready` with `interval = 0`. -/
def Obligations.RefusedRequestsChangeNothing : Prop :=
  (∀ (w : Byte) (args : Args) (rest : List Request) (s : State), s.requests = ⟨.opw, [w], args⟩ :: rest →
    (w.toNat / 16 ∈ [0xB, 0xC, 0xD, 0xE] ∨ w.toNat / 4 % 4 ≠ 0 ∨ (w.toNat % 4 ≠ 0 ∧ w.toNat / 16 ≠ 0xA)) →
    ∃ out, step s = .next (({ s with requests := rest } : State).refusal out)) ∧
  (∀ (low : BitVec 4) (i : Instr) (s : State),
    i = .reservedB low ∨ i = .reservedC low ∨ i = .reservedD low ∨ i = .reservedE low →
    ∃ out, exec i s = .next (s.refusal out)) ∧
  (∀ (i : Instr) (len : Nat) (bytes : List Byte) (tfi : Option Byte) (tmo ivl : Option Nat) (co : Bool) (s : State),
    (s.link.ts ≠ .idle ∧ (i = .writeFrame bytes ∨ i = .beginRead len ∨ i = .readAll len ∨ i = .issue tfi bytes ∨
        i = .pollReady tmo ivl ∨ i = .readResponse len true co ∨ i = modeRow true co len)) ∨
      (s.link.ts ≠ .streaming ∧ (i = .continueRead len ∨ i = .readResponse len false co ∨ i = modeRow false co len)) ∨
      i = .pollReady tmo (some 0) →
    ∃ out, exec i s = .next (s.refusal out))

/-- R27, R160: the values the spec gives for reset. -/
def Obligations.ResetIsIdleAndReleased : Prop :=
  State.reset.link.ts = .idle ∧ State.reset.link.sel = .released ∧ State.reset.cc = .idle ∧ State.reset.tx.len = 0 ∧
  State.reset.poll.elapsed = 0 ∧ State.reset.poll.probes = 0 ∧ State.reset.poll.ready = false ∧
  State.reset.lcsOk = false ∧ State.reset.dcsOk = false ∧ State.reset.ackOk = false ∧ State.reset.result = .ok ∧
  State.reset.link.trace = []

/-! ## Consumer sequences -/

/-- R127: `bind` copies the logical number and the UID into the session record, and touches nothing of the block. -/
def Obligations.BindBuildsTheSession : Prop :=
  ∀ (t : TagRecord) (s : State), ∃ out,
    exec (.bind t) s = .next { s with session := { logical := t.logical, uid := t.uid }, output := out }

/-- R121 to R125 put together: `detect` of a card without ATS: the command handshake, then one read transaction of chunks
(a), (b) and (c), and the record made of their bytes. -/
def Obligations.DetectReadsACardWithoutAts : Prop :=
  ∀ (s : State) (h : Handshake) (q : Byte) (a b uid : List Byte) (rest : List Answer),
    let cmd := [s.consumer.opcListPassive, s.consumer.maxTg, s.consumer.brtyIso14443a]
    let f := buildFrame 0xD4 cmd
    s.cfg.legal → s.tx.mem.wf → s.link.ts = .idle → s.consumer.respPoll = false → 3 ≤ s.cfg.maxPd → 11 ≤ s.cfg.txCap →
    h.timely s.cfg f → s.link.answers = h.answers Config.ackFrame ++ .ok q :: answersOf (a ++ b ++ uid) ++ rest →
    a.length = 8 → ((byteAt a 3).toNat + (byteAt a 4).toNat) % 256 = 0 → 1 ≤ (byteAt a 3).toNat → byteAt a 7 ≠ 0 →
    b.length = 5 → uid.length = (byteAt b 4).toNat → uid.length = 4 ∨ uid.length = 7 ∨ uid.length = 10 →
    byteAt b 3 &&& 0x20 = 0 →
    ∃ (l : Latch) (c : Nat), exec .detect s = .next (({ s.answered h f Config.ackFrame rest c with
      cc := .acked
      link := { (s.answered h f Config.ackFrame rest c).link with
        trace := s.link.trace ++ h.events s.cfg f Config.ackFrame ++
          openEvents s.cfg q (a ++ b ++ uid) ++ [.rel] } } : State).returned .ok
      (.tag { logical := byteAt b 0, atqa := [byteAt b 1, byteAt b 2], sak := byteAt b 3, uid := uid, ats := none }) l)

/-- R121 to R125 put together: of an ISO14443-4 compliant card `detect` also reads the ATS length and as many bytes, and
concludes after them. -/
def Obligations.DetectReadsACardWithAts : Prop :=
  ∀ (s : State) (h : Handshake) (q n : Byte) (a b uid ats : List Byte) (rest : List Answer),
    let cmd := [s.consumer.opcListPassive, s.consumer.maxTg, s.consumer.brtyIso14443a]
    let f := buildFrame 0xD4 cmd
    s.cfg.legal → s.tx.mem.wf → s.link.ts = .idle → s.consumer.respPoll = false → 3 ≤ s.cfg.maxPd → 11 ≤ s.cfg.txCap →
    h.timely s.cfg f →
    s.link.answers = h.answers Config.ackFrame ++ .ok q :: answersOf (a ++ b ++ uid ++ [n] ++ ats) ++ rest →
    a.length = 8 → ((byteAt a 3).toNat + (byteAt a 4).toNat) % 256 = 0 → 1 ≤ (byteAt a 3).toNat → byteAt a 7 ≠ 0 →
    b.length = 5 → uid.length = (byteAt b 4).toNat → uid.length = 4 ∨ uid.length = 7 ∨ uid.length = 10 →
    byteAt b 3 &&& 0x20 ≠ 0 → ats.length = n.toNat →
    ∃ (l : Latch) (c : Nat), exec .detect s = .next (({ s.answered h f Config.ackFrame rest c with
      cc := .acked
      link := { (s.answered h f Config.ackFrame rest c).link with
        trace := s.link.trace ++ h.events s.cfg f Config.ackFrame ++
          openEvents s.cfg q (a ++ b ++ uid ++ [n] ++ ats) ++ [.rel] } } : State).returned .ok
      (.tag { logical := byteAt b 0, atqa := [byteAt b 1, byteAt b 2], sak := byteAt b 3, uid := uid, ats := some ats }) l)

/-- R123, R122: `detect` is its series of operations, in every state and whatever they return: `issue`, the second wait
where RESP_POLL asks for it, then chunks (a) to (e), each step taken as the ones before allow; the early exits conclude
the stream first; of the record, every field. Where a stream is open already its `issue` is refused and the stream stays as
it was (log 23); the release from idle is `DetectReleasesAndMapsErrors`. -/
def Obligations.DetectIsItsSeriesOfOperations : Prop :=
  ∀ s : State,
    let c := s.consumer
    let isErr := fun (u : State) (e : DetectError) => exec .detect s = .next { u with output := .detectErr e }
    let lower := fun u : State => isErr u (if u.result = .timeoutError then .timeout else .protocol)
    let concludes := fun (u : State) (e : DetectError) => ∃ x, exec (.readResponse 0 false true) u = .next x ∧ isErr x e
    ∃ u, exec (.issue (some 0xD4) [c.opcListPassive, c.maxTg, c.brtyIso14443a]) s = .next u ∧
    (u.result ≠ .ok → lower u) ∧ (u.result = .ok →
    ∃ v, (if c.respPoll then exec (.pollReady none none) u else .next u) = .next v ∧
    (v.result ≠ .ok → lower v) ∧ (v.result = .ok →
    ∃ w, exec (.readResponse 8 true false) v = .next w ∧
    (w.result ≠ .ok → isErr w .protocol) ∧ (w.result = .ok →
    ∃ a, w.output = .data a ∧
    let header := ((byteAt a 3).toNat + (byteAt a 4).toNat) % 256 = 0 ∧ 1 ≤ (byteAt a 3).toNat
    (¬ header → concludes w .protocol) ∧ (header → byteAt a 7 = 0 → concludes w .noTag) ∧ (header → byteAt a 7 ≠ 0 →
    ∃ x, exec (.readResponse 5 false false) w = .next x ∧
    (x.result ≠ .ok → isErr x .protocol) ∧ (x.result = .ok →
    ∃ b, x.output = .data b ∧
    let ulen := (byteAt b 4).toNat
    let iso : Bool := byteAt b 3 &&& 0x20 != 0
    let tag := fun (uid : List Byte) (ats : Option (List Byte)) => Output.tag
      { logical := byteAt b 0, atqa := [byteAt b 1, byteAt b 2], sak := byteAt b 3, uid := uid, ats := ats }
    (ulen ∉ [4, 7, 10] → concludes x .malformedUid) ∧ (ulen ∈ [4, 7, 10] →
    ∃ y, exec (.readResponse ulen false (!iso)) x = .next y ∧
    (y.result ≠ .ok → isErr y .protocol) ∧ (y.result = .ok →
    ∃ uid, y.output = .data uid ∧ (iso = false → exec .detect s = .next { y with output := tag uid none }) ∧ (iso = true →
    ∃ z, exec (.readResponse 1 false false) y = .next z ∧
    (z.result ≠ .ok → isErr z .protocol) ∧ (z.result = .ok →
    ∃ n : Byte, z.output = .data [n] ∧
    ∃ t, exec (.readResponse n.toNat false true) z = .next t ∧
    (t.result ≠ .ok → isErr t .protocol) ∧ (t.result = .ok →
    ∃ ats, t.output = .data ats ∧ exec .detect s = .next { t with output := tag uid (some ats) }))))))))))

/-- From R123 and R126: a failure below `detect` is `Timeout` where it is a `TimeoutError` and `Protocol` otherwise, and a
record comes only with RESULT `Ok`; whatever the environment answers, from idle `detect` ends idle with select released.
-/
def Obligations.DetectReleasesAndMapsErrors : Prop :=
  ∀ s : State, s.cfg.legal → s.link.settled → s.link.traced → s.link.ts = .idle →
    ∃ t, exec .detect s = .next t ∧ t.link.ts = .idle ∧ t.link.sel = .released ∧
      (t.result = .timeoutError → t.output = .detectErr .timeout) ∧
      (t.result ≠ .ok → t.result ≠ .timeoutError → t.output = .detectErr .protocol) ∧
      (t.result = .ok → (∃ r, t.output = .tag r) ∨
        ∃ e, t.output = .detectErr e ∧ (e = .protocol ∨ e = .noTag ∨ e = .malformedUid))

/-- R128 to R133 put together: `authenticate`, `read_block` and `write_block` on the bound session: the payload sent, the
one full read of 10 or 26 bytes, and what a well-formed response with status 0 returns; R133: `BadStatus` for another
status. -/
def Obligations.SessionOperationsExchange : Prop :=
  ∀ (s : State) (i : Instr) (p : List Byte) (d : Nat) (k : KeyType) (blk : Byte) (key data : List Byte) (h : Handshake)
    (q : Byte) (r : List Byte) (rest : List Answer),
    let c := s.consumer
    let f := buildFrame 0xD4 p
    (i = .authenticate none k blk key ∧ d = 0 ∧
        p = [c.opcDataExchange, s.session.logical, (if k = .a then c.mfAuthA else c.mfAuthB), blk] ++ key ++
          slice s.session.uid 0 4) ∨
      (i = .readBlock none blk ∧ d = 16 ∧ p = [c.opcDataExchange, s.session.logical, c.mfRead, blk]) ∨
      (i = .writeBlock none blk data ∧ d = 0 ∧ p = [c.opcDataExchange, s.session.logical, c.mfWrite, blk] ++ data) →
    s.cfg.legal → s.tx.mem.wf → s.link.ts = .idle → c.respPoll = false → p.length ≤ s.cfg.maxPd →
    p.length + 8 ≤ s.cfg.txCap → h.timely s.cfg f → r.length = 10 + d →
    s.link.answers = h.answers Config.ackFrame ++ .ok q :: answersOf r ++ rest →
    ∃ (l : Latch) (n : Nat), exec i s = .next (({ s.answered h f Config.ackFrame rest n with
      cc := .acked, lcsOk := frameLcsOk r, dcsOk := frameDcsOk r
      link := { (s.answered h f Config.ackFrame rest n).link with
        trace := s.link.trace ++ h.events s.cfg f Config.ackFrame ++ openEvents s.cfg q r ++ [.rel] } } :
        State).returned .ok
      (if frameValid r = false then .cardErr .malformed
        else if byteAt r 7 ≠ 0 then .cardErr (.badStatus (byteAt r 7)) else .card (slice r 8 (8 + d))) l)

/-- The same three on a session that the row's own words name (the opcode table's forms): they are the operation on that
session, the session record itself untouched. The form is the model's (log 20). -/
def Obligations.ExplicitTargetsAreSessions : Prop :=
  ∀ (tg blk : Byte) (u key data : List Byte) (k : KeyType) (s : State),
    let on := fun (uid : List Byte) => ({ s with session := { logical := tg, uid := uid } } : State)
    (∃ t, exec (.authenticate none k blk key) (on u) = .next t ∧
      exec (.authenticate (some (tg, u)) k blk key) s = .next { t with session := s.session }) ∧
    (∃ t, exec (.readBlock none blk) (on u) = .next t ∧
      exec (.readBlock (some tg) blk) s = .next { t with session := s.session }) ∧
    (∃ t, exec (.writeBlock none blk data) (on u) = .next t ∧
      exec (.writeBlock (some tg) blk data) s = .next { t with session := s.session })

/-- R128 to R133: `authenticate`, `read_block` and `write_block` are their series of operations, in every state and whatever
they return: the payload of R128 issued, the second wait where RESP_POLL asks for it, one full read of `10 + d` bytes,
`validate`, the status byte; the first failure is `NotAcked` with its cause. -/
def Obligations.SessionOperationsAreTheirSeries : Prop :=
  ∀ (s : State) (i : Instr) (p : List Byte) (d : Nat) (k : KeyType) (blk : Byte) (key data : List Byte),
    let c := s.consumer
    (i = .authenticate none k blk key ∧ d = 0 ∧
        p = [c.opcDataExchange, s.session.logical, (if k = .a then c.mfAuthA else c.mfAuthB), blk] ++ key ++
          slice s.session.uid 0 4) ∨
      (i = .readBlock none blk ∧ d = 16 ∧ p = [c.opcDataExchange, s.session.logical, c.mfRead, blk]) ∨
      (i = .writeBlock none blk data ∧ d = 0 ∧ p = [c.opcDataExchange, s.session.logical, c.mfWrite, blk] ++ data) →
    let notAcked := fun u : State => exec i s = .next { u with output := .cardErr (.notAcked u.result) }
    ∃ u, exec (.issue (some 0xD4) p) s = .next u ∧ (u.result ≠ .ok → notAcked u) ∧ (u.result = .ok →
    ∃ v, (if c.respPoll then exec (.pollReady none none) u else .next u) = .next v ∧
    (v.result ≠ .ok → notAcked v) ∧ (v.result = .ok →
    ∃ w, exec (.readResponse (10 + d) true true) v = .next w ∧ (w.result ≠ .ok → notAcked w) ∧ (w.result = .ok →
    ∃ (f : List Byte) (x : State), w.output = .data f ∧ exec (.validate f) w = .next x ∧
      let answer : Output :=
        if x.output ≠ .verdict true then .cardErr .malformed
        else if byteAt f 7 ≠ 0 then .cardErr (.badStatus (byteAt f 7)) else .card (slice f 8 (8 + d))
      exec i s = .next { x with output := answer })))

/-! ## Who writes what: frames over every instruction -/

/-- R15, R100: CC is written by the instructions that run `issue` and by reset, and by no other. -/
def Obligations.OnlyIssueMovesTheChannel : Prop :=
  ∀ (i : Instr) (s t : State), exec i s = .next t → commandOf s i = none → resets i = false → t.cc = s.cc

/-- R12: TXBUF and TXLEN are written by `encode`, by the instructions that run `issue`, and by reset; every other
instruction leaves every byte and the length. An instruction that runs `issue` puts its one frame at offset 0 and leaves
every byte past it, or leaves all of TXBUF. -/
def Obligations.OnlyEncodeWritesTxbuf : Prop :=
  ∀ (i : Instr) (s t : State), exec i s = .next t →
    ((∀ x p, i ≠ .encode x p) → commandOf s i = none → resets i = false → s.sameTx t) ∧
    (∀ tfi p, commandOf s i = some (tfi, p) → s.tx.mem.wf →
      (s.link.ts = .idle ∧ p.length ≤ s.cfg.maxPd ∧ p.length + 8 ≤ s.cfg.txCap →
        t.tx.contents = buildFrame tfi p ∧ t.tx.len = p.length + 8 ∧
        ∀ a, p.length + 8 ≤ a → t.tx.mem.byte a = s.tx.mem.byte a) ∧
      (¬ (s.link.ts = .idle ∧ p.length ≤ s.cfg.maxPd ∧ p.length + 8 ≤ s.cfg.txCap) → s.sameTx t))

/-- R19: LCS_OK and DCS_OK are written by the instructions that run `validate` or `decode`, and by reset (that the rows NIF
and NIF_C2H do is log 12); ACK_OK and ACKBUF (R13) by those that run `issue`, and by reset. -/
def Obligations.VerdictFlagsHaveTheirWriters : Prop :=
  ∀ (i : Instr) (s t : State), exec i s = .next t → resets i = false →
    (judges i = false → t.lcsOk = s.lcsOk ∧ t.dcsOk = s.dcsOk) ∧ (acks i = false → t.ackOk = s.ackOk ∧ t.ackbuf = s.ackbuf)

/-- R17, R18: ELAPSED, PROBES, STATUS and READY are written by the instructions that probe, and by reset, and by no other:
not by STATUS_BYTE either, which makes no probe (log 13). -/
def Obligations.OnlyProbesWriteThePollRegisters : Prop :=
  ∀ (i : Instr) (s t : State), exec i s = .next t → probes i = false → resets i = false → t.poll = s.poll

/-- R21: CFG is constant but for `initialize`; the consumers' parameters (R120) never change, the session (R127) only by
`bind`, and no instruction touches the requests to come. -/
def Obligations.ConfigurationIsFixed : Prop :=
  ∀ (i : Instr) (s t : State), exec i s = .next t → (resets i = false → t.cfg = s.cfg) ∧ t.consumer = s.consumer ∧
    t.requests = s.requests ∧ ((∀ r, i ≠ .bind r) → t.session = s.session)

/-- From R30 and R76: the instructions that have no access to the link leave it: no event, no phase, no answer consumed.
That the frame rows NIF, NIF_C2H, ACK_FRAME and NACK_FRAME (log 12) and STATUS_BYTE (log 13), presented alone, are among
them is the model's reading. -/
def Obligations.OffLinkInstructionsMakeNoEvent : Prop :=
  ∀ (i : Instr) (s t : State), exec i s = .next t → offLink i = true → t.link = s.link

/-- From R175, by the mark of misuse `seqFaulted`, a field of the model's own (log 3): an operation that returns `SeqFault`
sets the mark, every later one keeps it, `initialize` included, and nothing else sets it, whatever phase or requests are
left. So a run in which an operation returned `SeqFault` has not ended cleanly, then or later; one without, with the link
idle and released and no request left, has. -/
def Obligations.MisuseNeverEndsCleanly : Prop :=
  ∀ (i : Instr) (s t : State), exec i s = .next t →
    (s.seqFaulted = true → t.seqFaulted = true ∧ ¬ t.endedCleanly) ∧
    (t.result = .seqFault → s.result ≠ .seqFault → t.seqFaulted = true ∧ ¬ t.endedCleanly) ∧
    (s.seqFaulted = false → t.result ≠ .seqFault → t.seqFaulted = false ∧
      (t.link.ts = .idle → t.link.sel = .released → s.requests = [] → t.endedCleanly))

/-- R37: the trace is a record: whatever runs, the events it makes are appended to it, in every state. -/
def Obligations.TraceIsAppendOnly : Prop :=
  ∀ (i : Instr) (s t : State), exec i s = .next t → ∃ evs, t.link.trace = s.link.trace ++ evs

/-! ## The machine -/

/-- The invariant of R12, R14, R15, R19, R26, R37, R95, R146 and R6 (`State.Inv`) is kept by every step, from every state
that has it. -/
def Obligations.StepKeepsTheInvariant : Prop :=
  ∀ s t : State, s.Inv → step s = .next t → t.Inv

/-- The invariant holds at reset. Its clause on CFG rests on the values log 5 names, that on ACKBUF on log 4. -/
def Obligations.ResetHasTheInvariant : Prop := State.reset.Inv

/-- A step takes the next request and executes the instruction it decodes to; with no request it waits. -/
def Obligations.StepRunsTheDecodedInstruction : Prop :=
  (∀ (r : Request) (rest : List Request) (i : Instr) (s : State), s.requests = r :: rest → decode r = .ok i →
    i.wellFormed = true ∧ step s = exec i { s with requests := rest }) ∧
  (∀ s : State, s.requests = [] → step s = .next s)

/-- A step stops only on a request that is no instruction of the spec; every instruction, in every state, has a next state
(log 18 names the one stop). -/
def Obligations.OnlyAMalformedRequestStops : Prop :=
  (∀ (i : Instr) (s : State), ∃ t, exec i s = .next t) ∧
  (∀ s : State, (∃ t, step s = .next t) ∨
    ∃ (r : Request) (rest : List Request) (e : DecodeError), s.requests = r :: rest ∧ decode r = .error e ∧
      (∀ w, e ≠ .reservedBits w) ∧ step s = .refused .noSuchRequest)

/-- Words of the spec's tables decode to the instructions they stand for (R49, R57, R56, R124, R128). -/
def Obligations.WordsOfTheSpecDecode : Prop :=
  decode ⟨.opw, [0x30], { buf := [0x02] }⟩ = .ok (.writeFrame [0x02]) ∧
  decode ⟨.opw, [0x80], { tfi := some 0xD5, buf := [0x02] }⟩ = .ok (.issue (some 0xD5) [0x02]) ∧
  decode ⟨.opw, [0xA1], { len := 4 }⟩ = .ok (.readResponseClose 4) ∧
  decode ⟨.opw, [0xB7], {}⟩ = .ok (.reservedB 7) ∧
  decode ⟨.opw, [0x04], {}⟩ = .error (.reservedBits 0x04) ∧
  decode ⟨.frame, [0x00, 0x00, 0xFF, 0x00, 0xFF, 0x00], {}⟩ = .ok .ackFrame ∧
  decode ⟨.status, [0x01], {}⟩ = .ok (.statusByte 0x01) ∧
  decode ⟨.sequence, [0x4A, 0x01, 0x00], {}⟩ = .ok .detect ∧
  decode ⟨.sequence, [0x40, 0x01, 0x30, 0x02], {}⟩ = .ok (.readBlock (some 0x01) 0x02)

/-- Every well-formed instruction is decoded from the request it is encoded as, every operand at every value. -/
def Obligations.DecodeOfEncodeIsTheInstruction : Prop :=
  ∀ i : Instr, i.wellFormed = true → Sys2Proof.decode (Sys2Proof.encode i) = .ok i

end
end

