-- ==== Sys2Proof/Laws/State.lean ====
section
/-! SUPPORT. One lemma per field per update of the state, so that no later proof unfolds one. -/

namespace Sys2Proof.Machine

/-! ## Link updates -/

@[simp] theorem Link.emit_ts (e : Event) (l : Link) : (l.emit e).ts = l.ts := rfl
@[simp] theorem Link.emit_sel (e : Event) (l : Link) : (l.emit e).sel = l.sel := rfl
@[simp] theorem Link.emit_cnt (e : Event) (l : Link) : (l.emit e).cnt = l.cnt := rfl
@[simp] theorem Link.emit_answers (e : Event) (l : Link) : (l.emit e).answers = l.answers := rfl
@[simp] theorem Link.emit_draws (e : Event) (l : Link) : (l.emit e).draws = l.draws := rfl
@[simp] theorem Link.emit_trace (e : Event) (l : Link) : (l.emit e).trace = l.trace ++ [e] := rfl
@[simp] theorem Link.select_ts (l : Link) : l.select.ts = .selected := rfl
@[simp] theorem Link.select_sel (l : Link) : l.select.sel = .asserted := rfl
@[simp] theorem Link.select_cnt (l : Link) : l.select.cnt = l.cnt := rfl
@[simp] theorem Link.select_answers (l : Link) : l.select.answers = l.answers := rfl
@[simp] theorem Link.select_draws (l : Link) : l.select.draws = l.draws := rfl
@[simp] theorem Link.select_trace (l : Link) : l.select.trace = l.trace ++ [.sel] := rfl
@[simp] theorem Link.sleep_ts (t : Nat) (l : Link) : (l.sleep t).ts = l.ts := rfl
@[simp] theorem Link.sleep_sel (t : Nat) (l : Link) : (l.sleep t).sel = l.sel := rfl
@[simp] theorem Link.sleep_cnt (t : Nat) (l : Link) : (l.sleep t).cnt = l.cnt := rfl
@[simp] theorem Link.sleep_answers (t : Nat) (l : Link) : (l.sleep t).answers = l.answers := rfl
@[simp] theorem Link.sleep_draws (t : Nat) (l : Link) : (l.sleep t).draws = l.draws := rfl
@[simp] theorem Link.sleep_trace (t : Nat) (l : Link) : (l.sleep t).trace = l.trace ++ [.sleep t] := rfl
@[simp] theorem Link.expect_ts (n : Nat) (l : Link) : (l.expect n).ts = l.ts := rfl
@[simp] theorem Link.expect_sel (n : Nat) (l : Link) : (l.expect n).sel = l.sel := rfl
@[simp] theorem Link.expect_cnt (n : Nat) (l : Link) : (l.expect n).cnt = n := rfl
@[simp] theorem Link.expect_answers (n : Nat) (l : Link) : (l.expect n).answers = l.answers := rfl
@[simp] theorem Link.expect_draws (n : Nat) (l : Link) : (l.expect n).draws = l.draws := rfl
@[simp] theorem Link.expect_trace (n : Nat) (l : Link) : (l.expect n).trace = l.trace := rfl
@[simp] theorem Link.freeBytes_ts (n : Nat) (l : Link) : (l.freeBytes n).2.ts = l.ts := rfl
@[simp] theorem Link.freeBytes_sel (n : Nat) (l : Link) : (l.freeBytes n).2.sel = l.sel := rfl
@[simp] theorem Link.freeBytes_cnt (n : Nat) (l : Link) : (l.freeBytes n).2.cnt = l.cnt := rfl
@[simp] theorem Link.freeBytes_answers (n : Nat) (l : Link) : (l.freeBytes n).2.answers = l.answers := rfl
@[simp] theorem Link.freeBytes_draws (n : Nat) (l : Link) : (l.freeBytes n).2.draws = l.draws + n := rfl
@[simp] theorem Link.freeBytes_trace (n : Nat) (l : Link) : (l.freeBytes n).2.trace = l.trace := rfl

/-! ## Operations of the link in the whole state -/

@[simp] theorem State.onLink_link (s : State) (r : LinkReply) : (s.onLink r).st.link = r.link := rfl
@[simp] theorem State.onLink_cc (s : State) (r : LinkReply) : (s.onLink r).st.cc = s.cc := rfl
@[simp] theorem State.onLink_tx (s : State) (r : LinkReply) : (s.onLink r).st.tx = s.tx := rfl
@[simp] theorem State.onLink_poll (s : State) (r : LinkReply) : (s.onLink r).st.poll = s.poll := rfl
@[simp] theorem State.onLink_ackbuf (s : State) (r : LinkReply) : (s.onLink r).st.ackbuf = s.ackbuf := rfl
@[simp] theorem State.onLink_lcsOk (s : State) (r : LinkReply) : (s.onLink r).st.lcsOk = s.lcsOk := rfl
@[simp] theorem State.onLink_dcsOk (s : State) (r : LinkReply) : (s.onLink r).st.dcsOk = s.dcsOk := rfl
@[simp] theorem State.onLink_ackOk (s : State) (r : LinkReply) : (s.onLink r).st.ackOk = s.ackOk := rfl
@[simp] theorem State.onLink_result (s : State) (r : LinkReply) : (s.onLink r).st.result = s.result := rfl
@[simp] theorem State.onLink_cfg (s : State) (r : LinkReply) : (s.onLink r).st.cfg = s.cfg := rfl
@[simp] theorem State.onLink_latch (s : State) (r : LinkReply) : (s.onLink r).st.latch = s.latch := rfl
@[simp] theorem State.onLink_session (s : State) (r : LinkReply) : (s.onLink r).st.session = s.session := rfl
@[simp] theorem State.onLink_consumer (s : State) (r : LinkReply) : (s.onLink r).st.consumer = s.consumer := rfl
@[simp] theorem State.onLink_output (s : State) (r : LinkReply) : (s.onLink r).st.output = s.output := rfl
@[simp] theorem State.onLink_requests (s : State) (r : LinkReply) : (s.onLink r).st.requests = s.requests := rfl
@[simp] theorem State.onLink_seqFaulted (s : State) (r : LinkReply) : (s.onLink r).st.seqFaulted = s.seqFaulted := rfl
@[simp] theorem State.onLink_res (s : State) (r : LinkReply) : (s.onLink r).res = r.res := rfl
@[simp] theorem State.onLink_data (s : State) (r : LinkReply) : (s.onLink r).data = r.data := rfl

/-! ## The return of an operation -/

@[simp] theorem Reply.finish_link (r : Reply) : r.finish.st.link = r.st.link := rfl
@[simp] theorem Reply.finish_cc (r : Reply) : r.finish.st.cc = r.st.cc := rfl
@[simp] theorem Reply.finish_tx (r : Reply) : r.finish.st.tx = r.st.tx := rfl
@[simp] theorem Reply.finish_poll (r : Reply) : r.finish.st.poll = r.st.poll := rfl
@[simp] theorem Reply.finish_ackbuf (r : Reply) : r.finish.st.ackbuf = r.st.ackbuf := rfl
@[simp] theorem Reply.finish_lcsOk (r : Reply) : r.finish.st.lcsOk = r.st.lcsOk := rfl
@[simp] theorem Reply.finish_dcsOk (r : Reply) : r.finish.st.dcsOk = r.st.dcsOk := rfl
@[simp] theorem Reply.finish_ackOk (r : Reply) : r.finish.st.ackOk = r.st.ackOk := rfl
@[simp] theorem Reply.finish_result (r : Reply) : r.finish.st.result = r.res := rfl
@[simp] theorem Reply.finish_cfg (r : Reply) : r.finish.st.cfg = r.st.cfg := rfl
@[simp] theorem Reply.finish_latch (r : Reply) : r.finish.st.latch = r.st.latch := rfl
@[simp] theorem Reply.finish_session (r : Reply) : r.finish.st.session = r.st.session := rfl
@[simp] theorem Reply.finish_consumer (r : Reply) : r.finish.st.consumer = r.st.consumer := rfl
@[simp] theorem Reply.finish_output (r : Reply) : r.finish.st.output = r.st.output := rfl
@[simp] theorem Reply.finish_requests (r : Reply) : r.finish.st.requests = r.st.requests := rfl
@[simp] theorem Reply.finish_seqFaulted (r : Reply) : r.finish.st.seqFaulted = (r.st.seqFaulted || r.res == .seqFault) := rfl
@[simp] theorem Reply.finish_res (r : Reply) : r.finish.res = r.res := rfl
@[simp] theorem Reply.finish_data (r : Reply) : r.finish.data = r.data := rfl
@[simp] theorem Reply.finishAs_link (l : Latch) (r : Reply) : (r.finishAs l).st.link = r.st.link := by
  unfold Reply.finishAs; split <;> simp_all [Reply.finish]
@[simp] theorem Reply.finishAs_cc (l : Latch) (r : Reply) : (r.finishAs l).st.cc = r.st.cc := by
  unfold Reply.finishAs; split <;> simp_all [Reply.finish]
@[simp] theorem Reply.finishAs_tx (l : Latch) (r : Reply) : (r.finishAs l).st.tx = r.st.tx := by
  unfold Reply.finishAs; split <;> simp_all [Reply.finish]
@[simp] theorem Reply.finishAs_poll (l : Latch) (r : Reply) : (r.finishAs l).st.poll = r.st.poll := by
  unfold Reply.finishAs; split <;> simp_all [Reply.finish]
@[simp] theorem Reply.finishAs_ackbuf (l : Latch) (r : Reply) : (r.finishAs l).st.ackbuf = r.st.ackbuf := by
  unfold Reply.finishAs; split <;> simp_all [Reply.finish]
@[simp] theorem Reply.finishAs_lcsOk (l : Latch) (r : Reply) : (r.finishAs l).st.lcsOk = r.st.lcsOk := by
  unfold Reply.finishAs; split <;> simp_all [Reply.finish]
@[simp] theorem Reply.finishAs_dcsOk (l : Latch) (r : Reply) : (r.finishAs l).st.dcsOk = r.st.dcsOk := by
  unfold Reply.finishAs; split <;> simp_all [Reply.finish]
@[simp] theorem Reply.finishAs_ackOk (l : Latch) (r : Reply) : (r.finishAs l).st.ackOk = r.st.ackOk := by
  unfold Reply.finishAs; split <;> simp_all [Reply.finish]
@[simp] theorem Reply.finishAs_result (l : Latch) (r : Reply) : (r.finishAs l).st.result = r.res := by
  unfold Reply.finishAs; split <;> simp_all [Reply.finish]
@[simp] theorem Reply.finishAs_cfg (l : Latch) (r : Reply) : (r.finishAs l).st.cfg = r.st.cfg := by
  unfold Reply.finishAs; split <;> simp_all [Reply.finish]
@[simp] theorem Reply.finishAs_latch (l : Latch) (r : Reply) : (r.finishAs l).st.latch = if r.res == .seqFault then r.st.latch else l := by
  unfold Reply.finishAs; split <;> simp_all [Reply.finish]
@[simp] theorem Reply.finishAs_session (l : Latch) (r : Reply) : (r.finishAs l).st.session = r.st.session := by
  unfold Reply.finishAs; split <;> simp_all [Reply.finish]
@[simp] theorem Reply.finishAs_consumer (l : Latch) (r : Reply) : (r.finishAs l).st.consumer = r.st.consumer := by
  unfold Reply.finishAs; split <;> simp_all [Reply.finish]
@[simp] theorem Reply.finishAs_output (l : Latch) (r : Reply) : (r.finishAs l).st.output = r.st.output := by
  unfold Reply.finishAs; split <;> simp_all [Reply.finish]
@[simp] theorem Reply.finishAs_requests (l : Latch) (r : Reply) : (r.finishAs l).st.requests = r.st.requests := by
  unfold Reply.finishAs; split <;> simp_all [Reply.finish]
@[simp] theorem Reply.finishAs_seqFaulted (l : Latch) (r : Reply) : (r.finishAs l).st.seqFaulted = (r.st.seqFaulted || r.res == .seqFault) := by
  unfold Reply.finishAs; split <;> simp_all [Reply.finish]
@[simp] theorem Reply.finishAs_res (l : Latch) (r : Reply) : (r.finishAs l).res = r.res := by
  unfold Reply.finishAs; split <;> rfl
@[simp] theorem Reply.finishAs_data (l : Latch) (r : Reply) : (r.finishAs l).data = r.data := by
  unfold Reply.finishAs; split <;> rfl

end Sys2Proof.Machine
end

