-- ==== Sys2Proof/Laws/Link.lean ====
section
/-! SUPPORT. What the link primitives and the transport operations can do, said once: the phase, the select line and the
discipline of the trace after each (R80 to R95). -/

namespace Sys2Proof.Machine

theorem Scan.run_append (sc : Scan) (es fs : List Event) :
    Scan.run sc (es ++ fs) = (Scan.run sc es).bind fun sc' => Scan.run sc' fs := by
  induction es generalizing sc with
  | nil => rfl
  | cons e es ih =>
    simp only [List.cons_append, Scan.run]
    cases sc.next e with
    | none => rfl
    | some sc' => exact ih sc'

/-- Inside a transaction: select asserted and the trace open. -/
structure Link.Open (l : Link) : Prop where
  sel : l.sel = .asserted
  ts : l.ts = .selected ∨ l.ts = .streaming
  trace : Scan.run .closed l.trace = some .opened

/-- Just after a failed exchange. -/
structure Link.Broken (l : Link) : Prop where
  sel : l.sel = .asserted
  trace : Scan.run .closed l.trace = some .failed

/-- Between operations with the trace disciplined. -/
structure Link.Quiet (l : Link) : Prop where
  settled : l.settled
  traced : l.traced

theorem Link.Quiet.idle {l : Link} (h : l.Quiet) (hi : l.ts = .idle) :
    l.sel = .released ∧ Scan.run .closed l.trace = some .closed := by
  obtain ⟨hs | hs, ht⟩ := h
  · exact ⟨hs.2, by simpa [Link.traced, hs.2] using ht⟩
  · simp [hi] at hs

theorem Link.Quiet.streaming {l : Link} (h : l.Quiet) (hi : l.ts = .streaming) : l.Open := by
  obtain ⟨hs | hs, ht⟩ := h
  · simp [hi] at hs
  · exact ⟨hs.2, Or.inr hs.1, by simpa [Link.traced, hs.2] using ht⟩

theorem Link.Open.quiet {l : Link} (h : l.Open) (hs : l.ts = .streaming) : l.Quiet :=
  ⟨Or.inr ⟨hs, h.sel⟩, by simp [Link.traced, h.sel, h.trace]⟩

/-! ## Primitives -/

/-- `Release()`, where select is asserted (R81). -/
theorem Link.release_asserted {l : Link} (h : l.sel = .asserted) :
    l.release = { l with ts := .idle, sel := .released, trace := l.trace ++ [.rel] } := by
  simp [Link.release, h, Link.emit]

/-- `Release()`, where select is released already: no event, no change (R81). -/
theorem Link.release_released {l : Link} (h : l.sel = .released) : l.release = l := by
  simp [Link.release, h]

theorem Link.release_quiet_of {l : Link} {sc : Scan} (h : l.sel = .asserted)
    (ht : Scan.run .closed l.trace = some sc) (hn : sc.next .rel = some .closed) :
    l.release.Quiet ∧ l.release.ts = .idle := by
  rw [Link.release_asserted h]
  refine ⟨⟨Or.inl ⟨rfl, rfl⟩, ?_⟩, rfl⟩
  simp [Link.traced, Scan.run_append, ht, Scan.run, hn]

theorem Link.Open.release {l : Link} (h : l.Open) : l.release.Quiet ∧ l.release.ts = .idle :=
  Link.release_quiet_of h.sel h.trace rfl

theorem Link.Broken.release {l : Link} (h : l.Broken) : l.release.Quiet ∧ l.release.ts = .idle :=
  Link.release_quiet_of h.sel h.trace rfl

/-- `end_read` and `initialize` release whatever is open. -/
theorem Link.Quiet.release {l : Link} (h : l.Quiet) : l.release.Quiet ∧ l.release.ts = .idle := by
  rcases h.settled with hs | hs
  · rw [Link.release_released hs.2]
    exact ⟨h, hs.1⟩
  · exact (h.streaming hs.1).release

theorem Link.select_open {l : Link} (h : l.Quiet) (hi : l.ts = .idle) : l.select.Open := by
  have ht := (h.idle hi).2
  exact ⟨rfl, Or.inl rfl, by simp [Scan.run_append, ht, Scan.run, Scan.next]⟩

theorem Link.Open.sleep {l : Link} (h : l.Open) (t : Nat) : (l.sleep t).Open :=
  ⟨h.sel, h.ts, by simp [Scan.run_append, h.trace, Scan.run, Scan.next]⟩

theorem Link.Open.expect {l : Link} (h : l.Open) (n : Nat) : (l.expect n).Open := ⟨h.sel, h.ts, h.trace⟩

theorem Link.Quiet.sleep {l : Link} (h : l.Quiet) (hi : l.ts = .idle) (t : Nat) : (l.sleep t).Quiet := by
  obtain ⟨hs, ht⟩ := h.idle hi
  exact ⟨Or.inl ⟨hi, hs⟩, by simp [Link.traced, hs, Scan.run_append, ht, Scan.run, Scan.next]⟩

theorem Link.Quiet.freeBytes {l : Link} (h : l.Quiet) (n : Nat) : (l.freeBytes n).2.Quiet := ⟨h.settled, h.traced⟩

@[simp] theorem Link.freeBytes_length (n : Nat) (l : Link) : (l.freeBytes n).1.length = n := by
  simp [Link.freeBytes]

/-- The answer changes no phase, no line and no trace. -/
theorem Link.answer_keeps (l : Link) :
    l.answer.2.ts = l.ts ∧ l.answer.2.sel = l.sel ∧ l.answer.2.cnt = l.cnt ∧ l.answer.2.trace = l.trace := by
  unfold Link.answer
  split <;> simp

/-- One exchange (R82): a byte and `X`, or nothing and `XFail`; the phase as R86 says. -/
theorem Link.xchg_cases (tx : Byte) (l : Link) :
    (∃ rx, (l.xchg tx).1 = some rx ∧ (l.xchg tx).2.trace = l.trace ++ [.x tx rx] ∧ (l.xchg tx).2.cnt = l.cnt - 1 ∧
      (l.xchg tx).2.ts = l.ts.exchanged ∧ (l.xchg tx).2.sel = l.sel) ∨
    ((l.xchg tx).1 = none ∧ (l.xchg tx).2.trace = l.trace ++ [.xfail tx] ∧ (l.xchg tx).2.cnt = l.cnt ∧
      (l.xchg tx).2.ts = l.ts.exchanged ∧ (l.xchg tx).2.sel = l.sel) := by
  obtain ⟨hts, hsel, hcnt, htr⟩ := Link.answer_keeps l
  unfold Link.xchg
  split
  · rename_i rx l' h
    left
    rw [h] at hts hsel hcnt htr
    simp only at hts hsel hcnt htr
    exact ⟨rx, by simp [hts, hsel, hcnt, htr]⟩
  · rename_i l' h
    right
    rw [h] at hts hsel hcnt htr
    simp only at hts hsel hcnt htr
    simp [hts, hsel, hcnt, htr]

/-- An exchange the environment answers with a byte. -/
theorem Link.xchg_ok (tx rx : Byte) (l : Link) (as : List Answer) (h : l.answers = .ok rx :: as) :
    l.xchg tx = (some rx, { l with answers := as, trace := l.trace ++ [.x tx rx], ts := l.ts.exchanged, cnt := l.cnt - 1 }) := by
  simp [Link.xchg, Link.answer, h, Link.emit]

/-- An exchange the environment fails. -/
theorem Link.xchg_fail (tx : Byte) (l : Link) (as : List Answer) (h : l.answers = .fail :: as) :
    l.xchg tx = (none, { l with answers := as, trace := l.trace ++ [.xfail tx], ts := l.ts.exchanged }) := by
  simp [Link.xchg, Link.answer, h, Link.emit]

/-- Inside a transaction an exchange leaves it open and streaming, or broken. -/
theorem Link.Open.xchg {l : Link} (h : l.Open) (tx : Byte) :
    ((l.xchg tx).1.isSome ∧ (l.xchg tx).2.Open ∧ (l.xchg tx).2.ts = .streaming) ∨
    ((l.xchg tx).1 = none ∧ (l.xchg tx).2.Broken) := by
  have hts : l.ts.exchanged = .streaming := by
    rcases h.ts with h | h <;> simp [h, TS.exchanged]
  rcases Link.xchg_cases tx l with ⟨rx, h1, h2, -, h3, h4⟩ | ⟨h1, h2, -, h3, h4⟩
  · left
    rw [hts] at h3
    refine ⟨by simp [h1], ⟨h4.trans h.sel, Or.inr h3, ?_⟩, h3⟩
    simp [h2, Scan.run_append, h.trace, Scan.run, Scan.next]
  · right
    refine ⟨h1, ⟨h4.trans h.sel, ?_⟩⟩
    simp [h2, Scan.run_append, h.trace, Scan.run, Scan.next]

/-- Sending bytes leaves the transaction open, or broken at the first failure (R84). -/
theorem Link.Open.sendAll {l : Link} (h : l.Open) (bs : List Byte) :
    ((Link.sendAll bs l).1 = true ∧ (Link.sendAll bs l).2.Open) ∨
    ((Link.sendAll bs l).1 = false ∧ (Link.sendAll bs l).2.Broken) := by
  induction bs generalizing l with
  | nil => exact Or.inl ⟨rfl, h⟩
  | cons b bs ih =>
    unfold Link.sendAll
    rcases h.xchg b with ⟨h1, h2, -⟩ | ⟨h1, h2⟩
    · split
      · rename_i rx l' hx
        rw [hx] at h2
        exact ih h2
      · rename_i l' hx
        simp [hx] at h1
    · split
      · rename_i rx l' hx
        simp [hx] at h1
      · rename_i l' hx
        rw [hx] at h2
        exact Or.inr ⟨rfl, h2⟩

/-- Receiving `n` bytes gives `n` bytes and leaves the transaction open in the same phase or streaming, or broken (R84). -/
theorem Link.Open.recvAll {l : Link} (h : l.Open) (dummy : Byte) (n : Nat) :
    (∃ ds, (Link.recvAll dummy n l).1 = some ds ∧ ds.length = n ∧ (Link.recvAll dummy n l).2.Open ∧
      (l.ts = .streaming → (Link.recvAll dummy n l).2.ts = .streaming)) ∨
    ((Link.recvAll dummy n l).1 = none ∧ (Link.recvAll dummy n l).2.Broken) := by
  induction n generalizing l with
  | zero => exact Or.inl ⟨[], rfl, rfl, h, id⟩
  | succ n ih =>
    rcases h.xchg dummy with ⟨h1, h2, h3⟩ | ⟨h1, h2⟩
    · obtain ⟨rx, hrx⟩ := Option.isSome_iff_exists.mp h1
      have hx : l.xchg dummy = (some rx, (l.xchg dummy).2) := Prod.ext hrx rfl
      rcases ih h2 with ⟨ds, g1, g2, g3, g4⟩ | ⟨g1, g2⟩
      · left
        have hr : Link.recvAll dummy n (l.xchg dummy).2 = (some ds, (Link.recvAll dummy n (l.xchg dummy).2).2) :=
          Prod.ext g1 rfl
        have : Link.recvAll dummy (n + 1) l = (some (rx :: ds), (Link.recvAll dummy n (l.xchg dummy).2).2) := by
          rw [Link.recvAll, hx]
          simp only
          rw [hr]
        rw [this]
        exact ⟨rx :: ds, rfl, by simp [g2], g3, fun _ => g4 h3⟩
      · right
        have hr : Link.recvAll dummy n (l.xchg dummy).2 = (none, (Link.recvAll dummy n (l.xchg dummy).2).2) :=
          Prod.ext g1 rfl
        have : Link.recvAll dummy (n + 1) l = (none, (Link.recvAll dummy n (l.xchg dummy).2).2) := by
          rw [Link.recvAll, hx]
          simp only
          rw [hr]
        rw [this]
        exact ⟨rfl, g2⟩
    · right
      have hx : l.xchg dummy = (none, (l.xchg dummy).2) := Prod.ext h1 rfl
      have : Link.recvAll dummy (n + 1) l = (none, (l.xchg dummy).2) := by
        rw [Link.recvAll, hx]
      rw [this]
      exact ⟨rfl, h2⟩

/-! ## Transactions -/

/-- What a link operation that was not refused leaves: a quiet link, idle after any failure (R92, R146). -/
structure LinkReply.Kept (r : LinkReply) : Prop where
  quiet : r.link.Quiet
  failed : r.res ≠ .ok → r.link.ts = .idle

theorem Link.Broken.abort {l : Link} (h : l.Broken) (r : Result) : (l.abort r).Kept :=
  ⟨h.release.1, fun _ => h.release.2⟩

theorem Link.Broken.abortRead {l : Link} (h : l.Broken) (len : Nat) : (l.abortRead len).Kept :=
  ⟨h.release.1.freeBytes len, fun _ => h.release.2⟩

/-- A write transaction ends `Ok` or `TransportError`, always idle and released (R87). -/
theorem writeTxn_kept (cfg : Cfg) (bytes : List Byte) {l : Link} (h : l.Quiet) (hi : l.ts = .idle) :
    (writeTxn cfg bytes l).Kept ∧ (writeTxn cfg bytes l).link.ts = .idle ∧
      ((writeTxn cfg bytes l).res = .ok ∨ (writeTxn cfg bytes l).res = .transportError) := by
  have ho : ((l.select.sleep cfg.tSettle).expect (writeBody cfg bytes).length).Open :=
    ((Link.select_open h hi).sleep _).expect _
  unfold writeTxn
  rcases ho.sendAll (writeBody cfg bytes) with ⟨h1, h2⟩ | ⟨h1, h2⟩
  · simp only
    split
    · rename_i l' hs
      rw [hs] at h2
      exact ⟨⟨h2.release.1, fun hne => absurd rfl hne⟩, h2.release.2, Or.inl rfl⟩
    · rename_i l' hs
      simp [hs] at h1
  · simp only
    split
    · rename_i l' hs
      simp [hs] at h1
    · rename_i l' hs
      rw [hs] at h2
      exact ⟨h2.abort _, h2.release.2, Or.inr rfl⟩

/-- Reading bytes of an open transaction: `len` bytes and still streaming, or `TransportError` and idle; either way the
data has `len` bytes (R13, R44, R88, R89). -/
theorem readBytes_kept (cfg : Cfg) (len : Nat) {l : Link} (h : l.Open) (hs : l.ts = .streaming) :
    (readBytes cfg len l).Kept ∧ (readBytes cfg len l).data.length = len ∧
      (((readBytes cfg len l).res = .ok ∧ (readBytes cfg len l).link.ts = .streaming ∧ (readBytes cfg len l).link.Open) ∨
        ((readBytes cfg len l).res = .transportError ∧ (readBytes cfg len l).link.ts = .idle)) := by
  unfold readBytes
  rcases h.recvAll cfg.dummy len with ⟨ds, h1, h2, h3, h4⟩ | ⟨h1, h2⟩
  · have hr : Link.recvAll cfg.dummy len l = (some ds, (Link.recvAll cfg.dummy len l).2) := Prod.ext h1 rfl
    rw [hr]
    exact ⟨⟨h3.quiet (h4 hs), fun hne => absurd rfl hne⟩, h2, Or.inl ⟨rfl, h4 hs, h3⟩⟩
  · have hr : Link.recvAll cfg.dummy len l = (none, (Link.recvAll cfg.dummy len l).2) := Prod.ext h1 rfl
    rw [hr]
    exact ⟨h2.abortRead len, by simp [Link.abortRead], Or.inr ⟨rfl, h2.release.2⟩⟩

/-- Opening a read transaction: as `readBytes` (R53, R88). -/
theorem openRead_kept (cfg : Cfg) (len : Nat) {l : Link} (h : l.Quiet) (hi : l.ts = .idle) :
    (openRead cfg len l).Kept ∧ (openRead cfg len l).data.length = len ∧
      (((openRead cfg len l).res = .ok ∧ (openRead cfg len l).link.ts = .streaming ∧ (openRead cfg len l).link.Open) ∨
        ((openRead cfg len l).res = .transportError ∧ (openRead cfg len l).link.ts = .idle)) := by
  have ho : ((l.select.sleep cfg.tSettle).expect (len + 1)).Open := ((Link.select_open h hi).sleep _).expect _
  unfold openRead
  rcases ho.xchg cfg.readPrime with ⟨h1, h2, h3⟩ | ⟨h1, h2⟩
  · split
    · rename_i rx l' hx
      rw [hx] at h2 h3
      exact readBytes_kept cfg len h2 h3
    · rename_i l' hx
      simp [hx] at h1
  · split
    · rename_i rx l' hx
      simp [hx] at h1
    · rename_i l' hx
      rw [hx] at h2
      exact ⟨h2.abortRead len, by simp [Link.abortRead], Or.inr ⟨rfl, h2.release.2⟩⟩

theorem closeAfter_res (r : LinkReply) : (closeAfter r).res = r.res ∧ (closeAfter r).data = r.data := by
  unfold closeAfter
  split <;> simp

theorem closeAfter_kept {r : LinkReply} (h : r.Kept) : (closeAfter r).Kept ∧ (closeAfter r).link.ts = .idle := by
  unfold closeAfter
  split
  · exact ⟨⟨h.quiet.release.1, fun _ => h.quiet.release.2⟩, h.quiet.release.2⟩
  · rename_i hne
    exact ⟨h, h.failed hne⟩

/-! ## Operations -/

theorem writeFrame_quiet (cfg : Cfg) (bytes : List Byte) {l : Link} (h : l.Quiet) : (writeFrame cfg bytes l).link.Quiet := by
  unfold writeFrame
  split
  · exact (writeTxn_kept cfg bytes h ‹_›).1.quiet
  · exact h

theorem beginRead_quiet (cfg : Cfg) (len : Nat) {l : Link} (h : l.Quiet) : (beginRead cfg len l).link.Quiet := by
  unfold beginRead
  split
  · exact (openRead_kept cfg len h ‹_›).1.quiet
  · exact h

theorem continueRead_quiet (cfg : Cfg) (len : Nat) {l : Link} (h : l.Quiet) : (continueRead cfg len l).link.Quiet := by
  unfold continueRead
  split
  · exact (readBytes_kept cfg len ((h.streaming ‹_›).expect len) ‹_›).1.quiet
  · exact h

theorem endRead_quiet {l : Link} (h : l.Quiet) : (endRead l).link.Quiet := h.release.1

theorem closeAfter_quiet {r : LinkReply} (h : r.link.Quiet) : (closeAfter r).link.Quiet := by
  unfold closeAfter
  split
  · exact h.release.1
  · exact h

theorem readAll_quiet (cfg : Cfg) (len : Nat) {l : Link} (h : l.Quiet) : (readAll cfg len l).link.Quiet :=
  closeAfter_quiet (beginRead_quiet cfg len h)

end Sys2Proof.Machine
end

