-- ==== Sys2Proof/Laws/Memory.lean ====
section
/-! SUPPORT. TXBUF as memory: read after write, and every memory operation keeps the canonical form. -/

namespace Sys2Proof.Machine

@[simp] theorem Memory.byte_nil (a : Nat) : Memory.byte [] a = unlistedByte := rfl

theorem Memory.wf_nil : Memory.wf [] := by decide

theorem Memory.wf_tail {c : Host.Cell} {m : Memory} (h : Memory.wf (c :: m)) : Memory.wf m :=
  ⟨(List.pairwise_cons.mp h.1).2, fun d hd => h.2 d (List.mem_cons_of_mem _ hd)⟩

/-- Below its first listed offset a canonical memory lists nothing. -/
theorem Memory.byte_below {m : Memory} {a : Nat} (h : ∀ c ∈ m, a < c.1) : m.byte a = unlistedByte := by
  induction m with
  | nil => rfl
  | cons c m ih =>
    have hc := h c (List.mem_cons_self ..)
    simp only [Memory.byte]
    rw [if_neg (by omega)]
    exact ih fun d hd => h d (List.mem_cons_of_mem _ hd)

/-- A write touches no offset but its own. -/
theorem Memory.mem_store {m : Memory} {a : Nat} {v : Byte} {c : Host.Cell} (h : c ∈ m.store a v) :
    c ∈ m ∨ (c = (a, v) ∧ v ≠ unlistedByte) := by
  induction m with
  | nil =>
    simp only [Memory.store] at h
    split at h <;> simp_all
  | cons d m ih =>
    simp only [Memory.store] at h
    repeat' split at h
    all_goals simp_all
    · tauto
    · tauto
    · rcases h with h | h
      · exact Or.inl (Or.inl h)
      · rcases ih h with h | h
        · exact Or.inl (Or.inr h)
        · exact Or.inr h

theorem Memory.wf_store {m : Memory} (h : m.wf) (a : Nat) (v : Byte) : (m.store a v).wf := by
  induction m with
  | nil =>
    simp only [Memory.store]
    split <;> simp_all [Memory.wf]
  | cons d m ih =>
    have ht := Memory.wf_tail h
    have hp := (List.pairwise_cons.mp h.1).1
    have hd := h.2 d (List.mem_cons_self ..)
    simp only [Memory.store]
    split
    · split
      · exact h
      · refine ⟨List.pairwise_cons.mpr ⟨?_, h.1⟩, ?_⟩
        · intro c hc
          rcases List.mem_cons.mp hc with rfl | hc
          · assumption
          · have := hp c hc
            show a < c.1
            omega
        · intro c hc
          rcases List.mem_cons.mp hc with rfl | hc
          · assumption
          · exact h.2 c hc
    · split
      · split
        · exact ht
        · refine ⟨List.pairwise_cons.mpr ⟨?_, ht.1⟩, ?_⟩
          · intro c hc
            have := hp c hc
            show a < c.1
            omega
          · intro c hc
            rcases List.mem_cons.mp hc with rfl | hc
            · assumption
            · exact ht.2 c hc
      · refine ⟨List.pairwise_cons.mpr ⟨?_, (ih ht).1⟩, ?_⟩
        · intro c hc
          rcases Memory.mem_store hc with hc | ⟨rfl, _⟩
          · exact hp c hc
          · show d.1 < a
            omega
        · intro c hc
          rcases List.mem_cons.mp hc with rfl | hc
          · exact hd
          · exact (ih ht).2 c hc

/-- Read after write: the offset written gives the byte, every other offset is as before. -/
theorem Memory.byte_store {m : Memory} (h : m.wf) (a : Nat) (v : Byte) (b : Nat) :
    (m.store a v).byte b = if b = a then v else m.byte b := by
  induction m with
  | nil =>
    simp only [Memory.store]
    split <;> simp_all [Memory.byte]
  | cons d m ih =>
    have ht := Memory.wf_tail h
    have hp := (List.pairwise_cons.mp h.1).1
    have below : ∀ x, x ≤ d.1 → Memory.byte m x = unlistedByte := fun x hx =>
      Memory.byte_below fun c hc => lt_of_le_of_lt hx (hp c hc)
    simp only [Memory.store]
    split
    · rename_i hlt
      split
      · by_cases hb : b = a
        · subst hb
          have hne : b ≠ d.1 := by omega
          have hb := below b (by omega)
          simp_all [Memory.byte]
        · simp [hb]
      · by_cases hb : b = a <;> simp [Memory.byte, hb]
    · split
      · rename_i heq
        split
        · by_cases hb : b = a
          · subst hb
            have hb := below b (by omega)
            simp_all
          · have : b ≠ d.1 := by omega
            simp [Memory.byte, hb, this]
        · by_cases hb : b = a
          · simp [Memory.byte, hb]
          · have : b ≠ d.1 := by omega
            simp [Memory.byte, hb, this]
      · rename_i hnlt hne
        simp only [Memory.byte, ih ht]
        by_cases hb : b = d.1
        · have : b ≠ a := by omega
          simp only [hb, if_true, if_neg (show d.1 ≠ a by omega)]
        · simp [hb]

theorem Memory.wf_writeBytes {m : Memory} (h : m.wf) (off : Nat) (bs : List Byte) : (m.writeBytes off bs).wf := by
  induction bs generalizing m off with
  | nil => exact h
  | cons b bs ih => exact ih (Memory.wf_store h off b) (off + 1)

/-- A write of bytes lists no offset past its end that was not listed. -/
theorem Memory.mem_writeBytes {m : Memory} {off : Nat} {bs : List Byte} {c : Host.Cell}
    (h : c ∈ m.writeBytes off bs) : c ∈ m ∨ (off ≤ c.1 ∧ c.1 < off + bs.length) := by
  induction bs generalizing m off with
  | nil => exact Or.inl h
  | cons b bs ih =>
    rcases ih h with h | h
    · rcases Memory.mem_store h with h | ⟨rfl, _⟩
      · exact Or.inl h
      · right; simp
    · right; simp only [List.length_cons]; omega

/-- Read after a write of bytes: the written range gives the bytes, every other offset is as before. -/
theorem Memory.byte_writeBytes {m : Memory} (h : m.wf) (off : Nat) (bs : List Byte) (a : Nat) :
    (m.writeBytes off bs).byte a =
      if off ≤ a ∧ a < off + bs.length then bs.getD (a - off) 0 else m.byte a := by
  induction bs generalizing m off with
  | nil =>
    have : ¬(off ≤ a ∧ a < off + ([] : List Byte).length) := by simp
    rw [if_neg this]
    rfl
  | cons b bs ih =>
    simp only [Memory.writeBytes, ih (Memory.wf_store h off b), Memory.byte_store h, List.length_cons]
    by_cases hc : off + 1 ≤ a ∧ a < off + 1 + bs.length
    · have h1 : off ≤ a ∧ a < off + (bs.length + 1) := by omega
      have h2 : a - off = (a - (off + 1)) + 1 := by omega
      rw [if_pos hc, if_pos h1, h2, List.getD_cons_succ]
    · rw [if_neg hc]
      by_cases ha : a = off
      · simp [ha]
      · have h1 : ¬(off ≤ a ∧ a < off + (bs.length + 1)) := by omega
        rw [if_neg ha, if_neg h1]

/-- TXBUF holds the frame just loaded. -/
theorem TxBuf.contents_load {t : TxBuf} (h : t.mem.wf) (frame : List Byte) : (t.load frame).contents = frame := by
  unfold TxBuf.contents TxBuf.load Memory.readBytes
  apply List.ext_getElem
  · simp
  · intro k h1 h2
    simp at h1
    simp [Memory.byte_writeBytes h, h1]

end Sys2Proof.Machine
end

