-- ==== Sys2Proof/Laws/Channel.lean ====
section
/-! SUPPORT. What the command channel can do, said once: the poll's fuel is never what ends it, and every operation leaves
a quiet link (R100 to R107). -/

namespace Sys2Proof.Machine

theorem statusTxn_quiet (cfg : Cfg) {l : Link} (h : l.Quiet) (hi : l.ts = .idle) :
    (statusTxn cfg l).2.Quiet ∧ (statusTxn cfg l).2.ts = .idle := by
  have ho : (l.select.expect 2).Open := (Link.select_open h hi).expect 2
  unfold statusTxn
  rcases ho.xchg cfg.statusProbe with ⟨h1, h2, -⟩ | ⟨h1, h2⟩
  · split
    · rename_i l' hx
      simp [hx] at h1
    · rename_i rx l' hx
      rw [hx] at h2
      rcases h2.xchg cfg.dummy with ⟨g1, g2, -⟩ | ⟨g1, g2⟩
      · split
        · rename_i l'' hy
          simp [hy] at g1
        · rename_i s l'' hy
          rw [hy] at g2
          exact g2.release
      · split
        · rename_i l'' hy
          rw [hy] at g2
          exact g2.release
        · rename_i s l'' hy
          simp [hy] at g1
  · split
    · rename_i l' hx
      rw [hx] at h2
      exact h2.release
    · rename_i rx l' hx
      simp [hx] at h1

theorem probe_quiet (cfg : Cfg) {l : Link} (p : Poll) (h : l.Quiet) (hi : l.ts = .idle) :
    (probe cfg l p).2.1.Quiet ∧ (probe cfg l p).2.1.ts = .idle := by
  have hs := statusTxn_quiet cfg h hi
  unfold probe
  split <;> (rename_i hx; rw [hx] at hs; exact hs)

/-- A completed probe adds T_PROBE to the elapsed time (R102). -/
theorem probe_elapsed {cfg : Cfg} {l l' : Link} {p p' : Poll} (h : probe cfg l p = (true, l', p')) :
    p'.elapsed = p.elapsed + cfg.tProbe := by
  unfold probe at h
  split at h
  · simp only [Prod.mk.injEq, true_and] at h
    rw [← h.2]
    simp [Poll.probed, Poll.latch]
  · simp at h

theorem pollLoop_quiet (cfg : Cfg) (timeout interval fuel : Nat) {l : Link} (p : Poll) (h : l.Quiet) (hi : l.ts = .idle) :
    (pollLoop cfg timeout interval fuel l p).link.Quiet ∧ (pollLoop cfg timeout interval fuel l p).link.ts = .idle := by
  induction fuel generalizing l p with
  | zero => exact ⟨h, hi⟩
  | succ n ih =>
    have hp := probe_quiet cfg p h hi
    unfold pollLoop
    split
    · rename_i l' p' hx
      rw [hx] at hp
      exact hp
    · rename_i l' p' hx
      rw [hx] at hp
      split
      · exact hp
      · split
        · exact hp
        · exact ih _ (hp.1.sleep hp.2 _) hp.2

/-- The fuel is never what ends the loop: one that covers the intervals left gives what any larger one gives (R103). -/
theorem pollLoop_enough (cfg : Cfg) (timeout interval fuel more : Nat) (l : Link) (p : Poll)
    (hf : timeout < p.elapsed + fuel * interval) :
    1 ≤ fuel → pollLoop cfg timeout interval (fuel + more) l p = pollLoop cfg timeout interval fuel l p := by
  induction fuel generalizing l p with
  | zero => intro h; omega
  | succ n ih =>
    intro _
    rw [Nat.add_right_comm, pollLoop, pollLoop]
    split
    · rfl
    · rename_i l' p' hx
      have he := probe_elapsed hx
      split
      · rfl
      · split
        · rfl
        · rename_i hnt
          rw [Nat.add_one_mul] at hf
          by_cases hn : n = 0
          · subst hn
            simp only [Nat.zero_mul] at hf
            omega
          · exact ih _ _ (by simp only; omega) (by omega)

/-- The fuel of `pollReady` covers the whole poll. -/
theorem pollReady_fuel {timeout interval : Nat} (hi : 1 ≤ interval) : timeout < (timeout / interval + 1) * interval := by
  have := Nat.lt_mul_div_succ timeout hi
  rw [Nat.mul_comm] at this
  exact this

theorem pollReady_quiet (cfg : Cfg) (timeout interval : Nat) {l : Link} (p : Poll) (h : l.Quiet) :
    (pollReady cfg timeout interval l p).link.Quiet ∧ (pollReady cfg timeout interval l p).link.ts = l.ts := by
  unfold pollReady
  split
  · exact ⟨h, rfl⟩
  · rename_i hc
    have hi : l.ts = .idle := by
      by_contra hne
      exact hc (Or.inl hne)
    have := pollLoop_quiet cfg timeout interval (timeout / interval + 1) { p with elapsed := 0, probes := 0 } h hi
    exact ⟨this.1, this.2.trans hi.symm⟩

theorem readResponse_quiet (cfg : Cfg) (len : Nat) (start conclude : Bool) {l : Link} (h : l.Quiet) :
    (readResponse cfg len start conclude l).link.Quiet := by
  unfold readResponse
  cases start <;> cases conclude <;>
    simp [beginRead_quiet cfg len h, continueRead_quiet cfg len h, closeAfter_quiet]

/-- `read_all` from idle ends idle, whatever its result, and its data has `len` bytes (R91). -/
theorem readAll_idle (cfg : Cfg) (len : Nat) {l : Link} (h : l.Quiet) (hi : l.ts = .idle) :
    (readAll cfg len l).link.ts = .idle ∧ (readAll cfg len l).data.length = len := by
  obtain ⟨hk, hd, -⟩ := openRead_kept cfg len h hi
  unfold readAll beginRead
  rw [if_pos hi]
  exact ⟨(closeAfter_kept hk).2, by rw [(closeAfter_res _).2, hd]⟩

theorem writeFrame_idle (cfg : Cfg) (bytes : List Byte) {l : Link} (h : l.Quiet) (hi : l.ts = .idle) :
    (writeFrame cfg bytes l).link.ts = .idle := by
  unfold writeFrame
  rw [if_pos hi]
  exact (writeTxn_kept cfg bytes h hi).2.1

/-! ## issue -/

/-- What `issue` leaves once admitted: a quiet idle link, CC `Acked` exactly with `Ok` and `Failed` with any other result,
and TXBUF, CFG and the host's records as they were after `encode` (R100, R101). -/
structure Reply.Issued (s : State) (r : Reply) : Prop where
  quiet : r.st.link.Quiet
  idle : r.st.link.ts = .idle
  channel : (r.res = .ok ∧ r.st.cc = .acked) ∨ (r.res ≠ .ok ∧ r.st.cc = .failed)
  same : r.st.tx = s.tx ∧ r.st.cfg = s.cfg ∧ r.st.consumer = s.consumer ∧ r.st.session = s.session ∧
    r.st.requests = s.requests ∧ r.st.lcsOk = s.lcsOk ∧ r.st.dcsOk = s.dcsOk ∧ r.st.result = s.result ∧
    r.st.seqFaulted = s.seqFaulted
  ackbuf : s.ackbuf.length = Config.ackLen → r.st.ackbuf.length = Config.ackLen

theorem issueAck_issued {s : State} (h : s.link.Quiet) (hi : s.link.ts = .idle) : (issueAck s).Issued s := by
  have hq := readAll_quiet s.cfg Config.ackLen h
  have ⟨ht, hd⟩ := readAll_idle s.cfg Config.ackLen h hi
  unfold issueAck
  simp only
  split
  · rename_i hne
    exact ⟨hq, ht, Or.inr ⟨hne, rfl⟩, by simp [issueFailed], fun ha => ha⟩
  · split
    · exact ⟨hq, ht, Or.inl ⟨rfl, rfl⟩, by simp [latchAck], fun _ => hd⟩
    · exact ⟨hq, ht, Or.inr ⟨by simp [issueFailed], rfl⟩, by simp [issueFailed, latchAck], fun _ => hd⟩

theorem issuePoll_issued {s : State} (h : s.link.Quiet) (hi : s.link.ts = .idle) : (issuePoll s).Issued s := by
  have ⟨hq, ht⟩ := pollReady_quiet s.cfg s.cfg.defaultTimeout s.cfg.defaultInterval s.poll h
  rw [hi] at ht
  unfold issuePoll
  simp only
  split
  · rename_i hne
    exact ⟨hq, ht, Or.inr ⟨hne, rfl⟩, by simp [issueFailed, State.onPoll], fun ha => ha⟩
  · have hr := issueAck_issued (s := { (s.onPoll
        (pollReady s.cfg s.cfg.defaultTimeout s.cfg.defaultInterval s.link s.poll)).st with cc := .awaitingAck }) hq ht
    exact ⟨hr.quiet, hr.idle, hr.channel, hr.same, hr.ackbuf⟩

theorem issueWrite_issued {s : State} (h : s.link.Quiet) (hi : s.link.ts = .idle) : (issueWrite s).Issued s := by
  have hq := writeFrame_quiet s.cfg s.tx.contents h
  have ht := writeFrame_idle s.cfg s.tx.contents h hi
  unfold issueWrite
  simp only
  split
  · rename_i hne
    exact ⟨hq, ht, Or.inr ⟨hne, rfl⟩, by simp [issueFailed], fun ha => ha⟩
  · have hr := issuePoll_issued (s := { (s.onLink (writeFrame s.cfg s.tx.contents s.link)).st with
        cc := .awaitingReady }) hq ht
    exact ⟨hr.quiet, hr.idle, hr.channel, hr.same, hr.ackbuf⟩

/-- `encode` inside `issue`, as outside: the frame in TXBUF, or nothing changed (R67). -/
theorem putFrame_cases (tfi : Byte) (payload : List Byte) (s : State) :
    (fits s.cfg payload = true ∧ putFrame tfi payload s = ⟨{ s with tx := s.tx.load (buildFrame tfi payload) }, .ok, []⟩) ∨
    (fits s.cfg payload = false ∧ putFrame tfi payload s = ⟨s, .encodeReject, []⟩) := by
  unfold putFrame
  cases fits s.cfg payload <;> simp

/-- `issue`: refused with nothing changed where a stream is open; else as `Reply.Issued` says, TXBUF holding the frame
unless the payload was rejected (R100, R101). -/
theorem issue_cases (tfi : Byte) (payload : List Byte) {s : State} (h : s.link.Quiet) :
    (s.link.ts ≠ .idle ∧ issue tfi payload s = ⟨s, .seqFault, []⟩) ∨
    (s.link.ts = .idle ∧ fits s.cfg payload = false ∧
      issue tfi payload s = ⟨{ s with cc := .failed }, .encodeReject, []⟩) ∨
    (s.link.ts = .idle ∧ fits s.cfg payload = true ∧
      (issue tfi payload s).Issued { s with tx := s.tx.load (buildFrame tfi payload) }) := by
  unfold issue
  by_cases hi : s.link.ts = .idle
  · right
    simp only [hi, ne_eq, not_true_eq_false, if_false]
    rcases putFrame_cases tfi payload { s with cc := .issuing } with ⟨hf, hp⟩ | ⟨hf, hp⟩
    · right
      refine ⟨trivial, hf, ?_⟩
      rw [hp]
      have hr := issueWrite_issued (s := { s with cc := .issuing, tx := s.tx.load (buildFrame tfi payload) }) h hi
      exact ⟨hr.quiet, hr.idle, hr.channel, hr.same, hr.ackbuf⟩
    · left
      refine ⟨trivial, hf, ?_⟩
      rw [hp]
      rfl
  · left
    simp [hi]

end Sys2Proof.Machine
end

