-- ==== Sys2Proof/Laws/Codec.lean ====
section
/-! SUPPORT. The checksums (R65, R66), the layout of a built frame (R46, R47, R72), classification (R51) and wire order
(R85). -/

namespace Sys2Proof.Machine

/-- `(v + neg8(v)) mod 256 = 0` (R65). -/
theorem neg8_cancels (v : Nat) : (v + (neg8 v).toNat) % 256 = 0 := by
  simp only [neg8, BitVec.toNat_ofNat]
  omega

/-- `neg8(v)` is the only byte with that property (R65). -/
theorem neg8_unique (v : Nat) (c : Byte) (h : (v + c.toNat) % 256 = 0) : c = neg8 v := by
  apply BitVec.eq_of_toNat_eq
  have := c.isLt
  simp only [neg8, BitVec.toNat_ofNat]
  omega

theorem lcsOk_iff (len c : Byte) : lcsOk len c = true ↔ c = lcs len := by
  constructor
  · intro h
    exact neg8_unique _ _ (by simpa [lcsOk] using h)
  · rintro rfl
    simp [lcsOk, lcs, neg8_cancels]

theorem sum8_lt (s : List Byte) : sum8 s < 256 := Nat.mod_lt _ (by decide)

theorem sum8_cons (b : Byte) (s : List Byte) : sum8 (b :: s) = (b.toNat + sum8 s) % 256 := by
  simp [sum8]

theorem sum8_append (s t : List Byte) : sum8 (s ++ t) = (sum8 s + sum8 t) % 256 := by
  simp [sum8]

theorem dcsOk_iff (s : List Byte) (d : Byte) : dcsOk s d = true ↔ d = neg8 (sum8 s) := by
  constructor
  · intro h
    exact neg8_unique _ _ (by simpa [dcsOk] using h)
  · rintro rfl
    simp [dcsOk, neg8_cancels]

theorem dcs_eq (t : Byte) (p : List Byte) : dcs t p = neg8 (sum8 (t :: p)) := by
  simp [dcs, sum8_cons]

/-! ## The built frame -/

/-- `n + 8` bytes (R45). -/
@[simp] theorem buildFrame_length (t : Byte) (p : List Byte) : (buildFrame t p).length = p.length + 8 := by
  simp [buildFrame]

theorem buildFrame_len (t : Byte) (p : List Byte) (h : p.length ≤ 254) :
    (byteAt (buildFrame t p) 3).toNat = p.length + 1 := by
  simp [byteAt, buildFrame]
  omega

theorem buildFrame_lcs (t : Byte) (p : List Byte) : byteAt (buildFrame t p) 4 = lcs (byteAt (buildFrame t p) 3) := rfl

theorem buildFrame_tfi (t : Byte) (p : List Byte) : byteAt (buildFrame t p) 5 = t := rfl

theorem buildFrame_body (t : Byte) (p : List Byte) (h : p.length ≤ 254) :
    slice (buildFrame t p) 5 (5 + (byteAt (buildFrame t p) 3).toNat) = t :: p := by
  rw [buildFrame_len t p h]
  simp [slice, buildFrame]

theorem buildFrame_payload (t : Byte) (p : List Byte) (h : p.length ≤ 254) :
    slice (buildFrame t p) 6 (5 + (byteAt (buildFrame t p) 3).toNat) = p := by
  rw [buildFrame_len t p h]
  have : 5 + (p.length + 1) - 6 = p.length := by omega
  simp [slice, buildFrame, this]

theorem buildFrame_dcs (t : Byte) (p : List Byte) (h : p.length ≤ 254) :
    byteAt (buildFrame t p) (5 + (byteAt (buildFrame t p) 3).toNat) = dcs t p := by
  rw [buildFrame_len t p h]
  have h1 : 5 + (p.length + 1) = p.length + 6 := by omega
  rw [h1]
  simp [byteAt, buildFrame]

theorem fits_length {cfg : Cfg} {p : List Byte} (h : fits cfg p = true) (hm : cfg.maxPd ≤ 254) : p.length ≤ 254 := by
  simp [fits] at h
  omega

theorem fits_cap {cfg : Cfg} {p : List Byte} (h : fits cfg p = true) : p.length + 8 ≤ cfg.txCap := by
  simp [fits] at h
  omega

/-! ## Wire order -/

/-- A byte shifted out and in with the same order is the same byte (R85). -/
theorem fromWire_wireBits (b : Byte) (o : BitOrder) : fromWire (wireBits b o) o = b := by
  have h : ∀ n : Fin 256, fromWire (wireBits (BitVec.ofFin n) o) o = BitVec.ofFin n := by
    cases o <;> decide +kernel
  exact h b.toFin

end Sys2Proof.Machine
end

