-- ==== Sys2Proof/Laws/Config.lean ====
section
/-! SUPPORT. What `initialize` makes of its operand and leaves in the block (R6, R21, R160, R161), said once. -/

namespace Sys2Proof.Machine

theorem inRangeOr_true {p : Prop} [Decidable p] (h : p) (v free : Nat) : inRangeOr (decide p) v free = v := by
  simp [inRangeOr, h]

theorem resolveMaxPd_le (given : Option Nat) (free : Nat) : resolveMaxPd given free ≤ 254 := by
  unfold resolveMaxPd inRangeOr
  split
  · simp_all
  · omega

theorem resolveTxCap_ge (given : Option Nat) (maxPd free : Nat) : 8 ≤ resolveTxCap given maxPd free := by
  unfold resolveTxCap inRangeOr
  split
  · simp_all
  · omega

theorem resolveInterval_pos (given : Option Nat) (free : Nat) : 1 ≤ resolveInterval given free := by
  unfold resolveInterval inRangeOr
  split
  · simp_all
  · omega

/-- Whatever the operand, CFG is in the ranges of R6. -/
theorem resolveCfg_legal (c : CfgArg) (k : Nat) : (resolveCfg c k).legal :=
  ⟨resolveMaxPd_le _ _, resolveTxCap_ge _ _ _, resolveInterval_pos _ _, rfl, rfl⟩

/-! ## Drawing free values leaves the rest of the link -/

@[simp] theorem Link.freeCfg_trace (c : CfgArg) (l : Link) : (l.freeCfg c).2.trace = l.trace := rfl
@[simp] theorem Link.freeCfg_answers (c : CfgArg) (l : Link) : (l.freeCfg c).2.answers = l.answers := rfl
@[simp] theorem Link.free_trace {α : Type} (kind : Nat → α) (l : Link) : (l.free kind).2.trace = l.trace := rfl
@[simp] theorem Link.free_answers {α : Type} (kind : Nat → α) (l : Link) : (l.free kind).2.answers = l.answers := rfl

theorem Link.freeCfg_legal (c : CfgArg) (l : Link) : (l.freeCfg c).1.legal := resolveCfg_legal c l.draws

/-! ## What `initialize` leaves -/

/-- The one event there can be is the release of an open stream (R160, R161). -/
theorem initializeBlock_trace (c : CfgArg) (s : State) : (initializeBlock c s).st.link.trace = s.link.release.trace := by
  simp [initializeBlock]

theorem initializeBlock_cfg_legal (c : CfgArg) (s : State) : (initializeBlock c s).st.cfg.legal := Link.freeCfg_legal c _

end Sys2Proof.Machine
end

