-- ==== Sys2Proof/Laws/Decode.lean ====
section
/-! SUPPORT. The decoder: its rows do not overlap, and what it gives is well formed (R57, R59). -/

namespace Sys2Proof

/-- Two rows of the table differ in a bit both of them fix. -/
theorem opwTable_apart : opwTable.Pairwise fun r q => (r.pattern ^^^ q.pattern) &&& r.mask &&& q.mask ≠ 0 := by
  decide +kernel

/-- So no request word belongs to both. -/
theorem covers_apart {r q : OpwRow} {w : Byte} (h : (r.pattern ^^^ q.pattern) &&& r.mask &&& q.mask ≠ 0)
    (hr : r.covers w = true) : q.covers w = false := by
  by_contra hq
  simp only [Bool.not_eq_false, OpwRow.covers, beq_iff_eq] at hq hr
  apply h
  rw [← hr, ← hq]
  ext i hi
  simp only [BitVec.getElem_and, BitVec.getElem_xor]
  show _ = (0#8)[i]
  rw [BitVec.getElem_zero]
  cases w[i] <;> cases r.mask[i] <;> cases q.mask[i] <;> rfl

theorem decode_shape {r : Request} {i : Instr} (h : decode r = .ok i) :
    decodeShape r = .ok i ∧ i.wellFormed = true := by
  unfold decode at h
  split at h
  · split at h
    · simp_all
    · simp at h
  · simp at h

/-- A well-formed instruction is decoded from any request that names it. -/
theorem decode_of_shape {r : Request} {i : Instr} (h : decodeShape r = .ok i) (hw : i.wellFormed = true) :
    decode r = .ok i := by
  unfold decode
  rw [h]
  simp [hw]

end Sys2Proof
end

