-- ==== Sys2Proof/Laws/Script.lean ====
section
/-! SUPPORT. What each operation does when the environment's answers are given: the events, the bytes and the registers,
exactly (R52 to R54, R87 to R92, R102, R103, R105). -/

namespace Sys2Proof.Machine

@[simp] theorem answersOf_cons (rx : Byte) (rxs : List Byte) : answersOf (rx :: rxs) = .ok rx :: answersOf rxs := rfl
@[simp] theorem answersOf_nil : answersOf [] = [] := rfl
@[simp] theorem exchanges_cons (tx rx : Byte) (txs rxs : List Byte) :
    exchanges (tx :: txs) (rx :: rxs) = .x tx rx :: exchanges txs rxs := rfl
@[simp] theorem exchanges_nil (rxs : List Byte) : exchanges [] rxs = [] := rfl
@[simp] theorem dummyReads_cons (dummy d : Byte) (ds : List Byte) :
    dummyReads dummy (d :: ds) = .x dummy d :: dummyReads dummy ds := rfl
@[simp] theorem dummyReads_nil (dummy : Byte) : dummyReads dummy [] = [] := rfl
@[simp] theorem probeAnswers_nil : probeAnswers [] = [] := rfl
@[simp] theorem probeAnswers_cons (ab : Byte × Byte) (abs : List (Byte × Byte)) :
    probeAnswers (ab :: abs) = .ok ab.1 :: .ok ab.2 :: probeAnswers abs := rfl
@[simp] theorem waitingEvents_nil (cfg : Cfg) (interval : Nat) : waitingEvents cfg interval [] = [] := rfl
@[simp] theorem waitingEvents_cons (cfg : Cfg) (interval : Nat) (ab : Byte × Byte) (abs : List (Byte × Byte)) :
    waitingEvents cfg interval (ab :: abs) = statusEvents cfg ab ++ [.sleep interval] ++ waitingEvents cfg interval abs := rfl

theorem dummyReads_append (dummy : Byte) (ds es : List Byte) :
    dummyReads dummy (ds ++ es) = dummyReads dummy ds ++ dummyReads dummy es := by
  simp [dummyReads]

@[simp] theorem TS.exchanged_twice (ts : TS) : ts.exchanged.exchanged = ts.exchanged := by
  cases ts <;> rfl

/-- A link state is its six fields: two with the same fields are equal. -/
theorem Link.ext_fields {l m : Link} (h1 : l.ts = m.ts) (h2 : l.sel = m.sel) (h3 : l.cnt = m.cnt)
    (h4 : l.answers = m.answers) (h5 : l.draws = m.draws) (h6 : l.trace = m.trace) : l = m := by
  cases l; cases m; simp_all

/-! ## Byte strings over the link -/

/-- Sending bytes the environment answers. -/
theorem Link.sendAll_ok (bs : List Byte) (rxs : List Byte) (rest : List Answer) (l : Link)
    (ha : l.answers = answersOf rxs ++ rest) (hl : rxs.length = bs.length) :
    Link.sendAll bs l = (true, { l with
      answers := rest, trace := l.trace ++ exchanges bs rxs, cnt := l.cnt - bs.length,
      ts := if bs = [] then l.ts else l.ts.exchanged }) := by
  induction bs generalizing rxs l with
  | nil =>
    cases rxs with
    | nil => simp_all [Link.sendAll]; exact Link.ext_fields rfl rfl rfl ha rfl rfl
    | cons r rs => simp at hl
  | cons b bs ih =>
    cases rxs with
    | nil => simp at hl
    | cons r rs =>
      simp only [List.length_cons, Nat.add_right_cancel_iff] at hl
      rw [answersOf_cons, List.cons_append] at ha
      rw [Link.sendAll, Link.xchg_ok b r l _ ha]
      simp only
      rw [ih rs _ rfl hl]
      refine Prod.ext rfl (Link.ext_fields ?_ rfl ?_ rfl rfl ?_)
      · by_cases hb : bs = [] <;> simp [hb]
      · simp; omega
      · simp

/-- Sending bytes of which the environment fails number `rxs.length`. -/
theorem Link.sendAll_fail (pre : List Byte) (b : Byte) (post rxs : List Byte) (rest : List Answer) (l : Link)
    (ha : l.answers = answersOf rxs ++ .fail :: rest) (hl : rxs.length = pre.length) :
    Link.sendAll (pre ++ b :: post) l = (false, { l with
      answers := rest, trace := l.trace ++ exchanges pre rxs ++ [.xfail b], cnt := l.cnt - pre.length,
      ts := l.ts.exchanged }) := by
  induction pre generalizing rxs l with
  | nil =>
    cases rxs with
    | nil =>
      rw [List.nil_append, Link.sendAll, Link.xchg_fail b l rest (by simpa using ha)]
      simp
    | cons r rs => simp at hl
  | cons p pre ih =>
    cases rxs with
    | nil => simp at hl
    | cons r rs =>
      simp only [List.length_cons, Nat.add_right_cancel_iff] at hl
      rw [answersOf_cons, List.cons_append] at ha
      rw [List.cons_append, Link.sendAll, Link.xchg_ok p r l _ ha]
      simp only
      rw [ih rs _ rfl hl]
      refine Prod.ext rfl (Link.ext_fields ?_ rfl ?_ rfl rfl ?_) <;> simp
      omega

/-- Receiving bytes the environment answers. -/
theorem Link.recvAll_ok (dummy : Byte) (ds : List Byte) (rest : List Answer) (l : Link)
    (ha : l.answers = answersOf ds ++ rest) :
    Link.recvAll dummy ds.length l = (some ds, { l with
      answers := rest, trace := l.trace ++ dummyReads dummy ds, cnt := l.cnt - ds.length,
      ts := if ds = [] then l.ts else l.ts.exchanged }) := by
  induction ds generalizing l with
  | nil =>
    simp_all [Link.recvAll]
    exact Link.ext_fields rfl rfl rfl ha rfl rfl
  | cons d ds ih =>
    rw [answersOf_cons, List.cons_append] at ha
    rw [List.length_cons, Link.recvAll, Link.xchg_ok dummy d l _ ha]
    simp only
    rw [ih _ rfl]
    refine Prod.ext rfl (Link.ext_fields ?_ rfl ?_ rfl rfl ?_)
    · by_cases hd : ds = [] <;> simp [hd]
    · simp; omega
    · simp

/-- Receiving `len` bytes of which the environment fails number `ds.length`. -/
theorem Link.recvAll_fail (dummy : Byte) (len : Nat) (ds : List Byte) (rest : List Answer) (l : Link)
    (ha : l.answers = answersOf ds ++ .fail :: rest) (hl : ds.length < len) :
    Link.recvAll dummy len l = (none, { l with
      answers := rest, trace := l.trace ++ dummyReads dummy ds ++ [.xfail dummy], cnt := l.cnt - ds.length,
      ts := l.ts.exchanged }) := by
  induction ds generalizing l len with
  | nil =>
    obtain ⟨n, rfl⟩ : ∃ n, len = n + 1 := ⟨len - 1, by simp at hl; omega⟩
    rw [Link.recvAll, Link.xchg_fail dummy l rest (by simpa using ha)]
    simp
  | cons d ds ih =>
    obtain ⟨n, rfl⟩ : ∃ n, len = n + 1 := ⟨len - 1, by simp at hl; omega⟩
    rw [answersOf_cons, List.cons_append] at ha
    rw [Link.recvAll, Link.xchg_ok dummy d l _ ha]
    simp only
    rw [ih n _ rfl (by simp at hl; omega)]
    refine Prod.ext rfl (Link.ext_fields ?_ rfl ?_ rfl rfl ?_) <;> simp
    omega

/-! ## Transactions -/

/-- A write transaction whose exchanges all succeed (R52, R87). -/
theorem writeTxn_ok (cfg : Cfg) (bytes rxs : List Byte) (rest : List Answer) (l : Link)
    (ha : l.answers = answersOf rxs ++ rest) (hl : rxs.length = (writeBody cfg bytes).length) :
    writeTxn cfg bytes l = ⟨{ l with
      ts := .idle, sel := .released, cnt := 0, answers := rest,
      trace := l.trace ++ [.sel, .sleep cfg.tSettle] ++ exchanges (writeBody cfg bytes) rxs ++ [.rel] }, .ok, []⟩ := by
  unfold writeTxn
  simp only
  rw [Link.sendAll_ok _ rxs rest _ (by simpa using ha) hl]
  simp [Link.release, Link.emit]

/-- A write transaction of which one exchange fails (R87, R92). -/
theorem writeTxn_fail (cfg : Cfg) (bytes pre : List Byte) (b : Byte) (post rxs : List Byte) (rest : List Answer) (l : Link)
    (hb : writeBody cfg bytes = pre ++ b :: post)
    (ha : l.answers = answersOf rxs ++ .fail :: rest) (hl : rxs.length = pre.length) :
    writeTxn cfg bytes l = ⟨{ l with
      ts := .idle, sel := .released, cnt := post.length + 1, answers := rest,
      trace := l.trace ++ [.sel, .sleep cfg.tSettle] ++ exchanges pre rxs ++ [.xfail b, .rel] }, .transportError, []⟩ := by
  unfold writeTxn
  simp only [hb]
  rw [Link.sendAll_fail pre b post rxs rest _ (by simpa using ha) hl]
  simp [Link.abort, Link.release, Link.emit]

/-- A read of an open stream that succeeds (R53, R89). -/
theorem readBytes_ok (cfg : Cfg) (ds : List Byte) (rest : List Answer) (l : Link)
    (ha : l.answers = answersOf ds ++ rest) (hs : l.ts = .streaming) (hc : l.cnt = ds.length) :
    readBytes cfg ds.length l = ⟨{ l with
      cnt := 0, answers := rest, trace := l.trace ++ dummyReads cfg.dummy ds }, .ok, ds⟩ := by
  unfold readBytes
  rw [Link.recvAll_ok cfg.dummy ds rest l ha]
  simp [hc, hs, TS.exchanged]

/-- A read of an open stream that fails (R89, R92, R44). -/
theorem readBytes_fail (cfg : Cfg) (len : Nat) (ds : List Byte) (rest : List Answer) (l : Link)
    (ha : l.answers = answersOf ds ++ .fail :: rest) (hl : ds.length < len) (hs : l.sel = .asserted) :
    readBytes cfg len l = ⟨{ l with
      ts := .idle, sel := .released, cnt := l.cnt - ds.length, answers := rest, draws := l.draws + len,
      trace := l.trace ++ dummyReads cfg.dummy ds ++ [.xfail cfg.dummy, .rel] }, .transportError,
      freeData l.draws len⟩ := by
  unfold readBytes
  rw [Link.recvAll_fail cfg.dummy len ds rest l ha hl]
  simp [Link.abortRead, Link.release, hs, Link.emit, Link.freeBytes, freeData]

/-- A read transaction opened with success (R53, R88). -/
theorem openRead_ok (cfg : Cfg) (q : Byte) (ds : List Byte) (rest : List Answer) (l : Link)
    (ha : l.answers = .ok q :: answersOf ds ++ rest) :
    openRead cfg ds.length l = ⟨{ l with
      ts := .streaming, sel := .asserted, cnt := 0, answers := rest,
      trace := l.trace ++ [.sel, .sleep cfg.tSettle, .x cfg.readPrime q] ++ dummyReads cfg.dummy ds }, .ok, ds⟩ := by
  unfold openRead
  rw [Link.xchg_ok cfg.readPrime q _ (answersOf ds ++ rest) (by simpa using ha)]
  simp only
  rw [readBytes_ok cfg ds rest _ rfl (by simp [TS.exchanged]) (by simp)]
  simp [TS.exchanged]

/-- A read transaction whose priming exchange fails (R88, R92). -/
theorem openRead_failPrime (cfg : Cfg) (len : Nat) (rest : List Answer) (l : Link) (ha : l.answers = .fail :: rest) :
    openRead cfg len l = ⟨{ l with
      ts := .idle, sel := .released, cnt := len + 1, answers := rest, draws := l.draws + len,
      trace := l.trace ++ [.sel, .sleep cfg.tSettle, .xfail cfg.readPrime, .rel] }, .transportError,
      freeData l.draws len⟩ := by
  unfold openRead
  rw [Link.xchg_fail cfg.readPrime _ rest (by simpa using ha)]
  simp [Link.abortRead, Link.release, Link.emit, Link.freeBytes, freeData]

/-- A read transaction of which a data exchange fails (R88, R92). -/
theorem openRead_fail (cfg : Cfg) (len : Nat) (q : Byte) (ds : List Byte) (rest : List Answer) (l : Link)
    (ha : l.answers = .ok q :: answersOf ds ++ .fail :: rest) (hl : ds.length < len) :
    openRead cfg len l = ⟨{ l with
      ts := .idle, sel := .released, cnt := len - ds.length, answers := rest, draws := l.draws + len,
      trace := l.trace ++ [.sel, .sleep cfg.tSettle, .x cfg.readPrime q] ++ dummyReads cfg.dummy ds ++
        [.xfail cfg.dummy, .rel] }, .transportError, freeData l.draws len⟩ := by
  unfold openRead
  rw [Link.xchg_ok cfg.readPrime q _ (answersOf ds ++ .fail :: rest) (by simpa using ha)]
  simp only
  rw [readBytes_fail cfg len ds rest _ rfl hl (by simp)]
  simp

/-- A status transaction that completes (R54). -/
theorem statusTxn_ok (cfg : Cfg) (a b : Byte) (rest : List Answer) (l : Link) (ha : l.answers = .ok a :: .ok b :: rest) :
    statusTxn cfg l = (some b, { l with
      ts := .idle, sel := .released, cnt := 0, answers := rest, trace := l.trace ++ statusEvents cfg (a, b) }) := by
  unfold statusTxn
  rw [Link.xchg_ok cfg.statusProbe a _ (.ok b :: rest) (by simpa using ha)]
  simp only
  rw [Link.xchg_ok cfg.dummy b _ rest rfl]
  simp [Link.release, Link.emit, statusEvents]

/-- A status transaction whose first exchange fails (R92). -/
theorem statusTxn_failFirst (cfg : Cfg) (rest : List Answer) (l : Link) (ha : l.answers = .fail :: rest) :
    statusTxn cfg l = (none, { l with
      ts := .idle, sel := .released, cnt := 2, answers := rest,
      trace := l.trace ++ [.sel, .xfail cfg.statusProbe, .rel] }) := by
  unfold statusTxn
  rw [Link.xchg_fail cfg.statusProbe _ rest (by simpa using ha)]
  simp [Link.release, Link.emit]

/-- A status transaction whose second exchange fails (R92). -/
theorem statusTxn_failSecond (cfg : Cfg) (a : Byte) (rest : List Answer) (l : Link) (ha : l.answers = .ok a :: .fail :: rest) :
    statusTxn cfg l = (none, { l with
      ts := .idle, sel := .released, cnt := 1, answers := rest,
      trace := l.trace ++ [.sel, .x cfg.statusProbe a, .xfail cfg.dummy, .rel] }) := by
  unfold statusTxn
  rw [Link.xchg_ok cfg.statusProbe a _ (.fail :: rest) (by simpa using ha)]
  simp only
  rw [Link.xchg_fail cfg.dummy _ rest rfl]
  simp [Link.release, Link.emit]

/-! ## The poll -/

theorem probe_ok (cfg : Cfg) (a b : Byte) (rest : List Answer) (l : Link) (p : Poll)
    (ha : l.answers = .ok a :: .ok b :: rest) :
    probe cfg l p = (true, { l with
      ts := .idle, sel := .released, cnt := 0, answers := rest, trace := l.trace ++ statusEvents cfg (a, b) },
      p.probed cfg b) := by
  unfold probe
  rw [statusTxn_ok cfg a b rest l ha]

/-- The poll reports ready on the probe after those of `abs`, none of which did; the fuel and the bound allow it (R103). -/
theorem pollLoop_ready (cfg : Cfg) (timeout interval : Nat) (abs : List (Byte × Byte)) (a b : Byte) (rest : List Answer)
    (fuel : Nat) (l : Link) (p : Poll) (ha : l.answers = probeAnswers abs ++ .ok a :: .ok b :: rest)
    (hn : ∀ ab ∈ abs, readyOf cfg ab.2 = false) (hr : readyOf cfg b = true) (hf : abs.length < fuel)
    (ht : p.elapsed + abs.length * (interval + cfg.tProbe) ≤ timeout) :
    pollLoop cfg timeout interval fuel l p = ⟨{ l with
        ts := .idle, sel := .released, cnt := 0, answers := rest,
        trace := l.trace ++ waitingEvents cfg interval abs ++ statusEvents cfg (a, b) },
      { elapsed := p.elapsed + abs.length * (interval + cfg.tProbe) + cfg.tProbe, probes := p.probes + abs.length + 1,
        status := b, ready := true }, .ok⟩ := by
  induction abs generalizing fuel l p with
  | nil =>
    obtain ⟨n, rfl⟩ : ∃ n, fuel = n + 1 := ⟨fuel - 1, by simp at hf; omega⟩
    rw [pollLoop, probe_ok cfg a b rest l p (by simpa using ha)]
    simp [Poll.probed, Poll.latch, hr]
  | cons ab abs ih =>
    obtain ⟨n, rfl⟩ : ∃ n, fuel = n + 1 := ⟨fuel - 1, by simp at hf; omega⟩
    have h0 := hn ab (List.mem_cons_self ..)
    rw [pollLoop, probe_ok cfg ab.1 ab.2 (probeAnswers abs ++ .ok a :: .ok b :: rest) l p (by simpa using ha)]
    simp only [List.length_cons] at hf ht
    rw [Nat.add_one_mul] at ht
    have hle : ¬ timeout < p.elapsed + cfg.tProbe + interval := by omega
    simp only [Poll.probed, Poll.latch, h0, hle, if_false, Bool.false_eq_true]
    rw [ih n _ _ rfl (fun x hx => hn x (List.mem_cons_of_mem _ hx)) (by omega) (by simp only; omega)]
    simp only [List.length_cons, Nat.add_one_mul, waitingEvents_cons, Link.sleep_trace, List.append_assoc,
      PollReply.mk.injEq, Poll.mk.injEq, and_true]
    refine ⟨Link.ext_fields rfl rfl rfl rfl rfl ?_, ?_, ?_⟩
    · simp
    · omega
    · omega

/-- No probe reports ready: the poll gives up after the probes of `abs` and the last one, when the next would start past
the bound (R103, R105). -/
theorem pollLoop_timeout (cfg : Cfg) (timeout interval : Nat) (abs : List (Byte × Byte)) (a b : Byte) (rest : List Answer)
    (fuel : Nat) (l : Link) (p : Poll) (ha : l.answers = probeAnswers abs ++ .ok a :: .ok b :: rest)
    (hn : ∀ ab ∈ abs, readyOf cfg ab.2 = false) (hr : readyOf cfg b = false) (hf : abs.length < fuel)
    (ht : p.elapsed + abs.length * (interval + cfg.tProbe) ≤ timeout)
    (he : timeout < p.elapsed + (abs.length + 1) * (interval + cfg.tProbe)) :
    pollLoop cfg timeout interval fuel l p = ⟨{ l with
        ts := .idle, sel := .released, cnt := 0, answers := rest,
        trace := l.trace ++ waitingEvents cfg interval abs ++ statusEvents cfg (a, b) },
      { elapsed := p.elapsed + abs.length * (interval + cfg.tProbe) + cfg.tProbe, probes := p.probes + abs.length + 1,
        status := b, ready := false }, .timeoutError⟩ := by
  induction abs generalizing fuel l p with
  | nil =>
    obtain ⟨n, rfl⟩ : ∃ n, fuel = n + 1 := ⟨fuel - 1, by simp at hf; omega⟩
    rw [pollLoop, probe_ok cfg a b rest l p (by simpa using ha)]
    have hlt : timeout < p.elapsed + cfg.tProbe + interval := by simp at he; omega
    simp [Poll.probed, Poll.latch, hr, hlt]
  | cons ab abs ih =>
    obtain ⟨n, rfl⟩ : ∃ n, fuel = n + 1 := ⟨fuel - 1, by simp at hf; omega⟩
    have h0 := hn ab (List.mem_cons_self ..)
    rw [pollLoop, probe_ok cfg ab.1 ab.2 (probeAnswers abs ++ .ok a :: .ok b :: rest) l p (by simpa using ha)]
    simp only [List.length_cons] at hf ht he
    rw [Nat.add_one_mul] at ht
    rw [Nat.add_one_mul] at he
    have hle : ¬ timeout < p.elapsed + cfg.tProbe + interval := by omega
    simp only [Poll.probed, Poll.latch, h0, hle, if_false, Bool.false_eq_true]
    rw [ih n _ _ rfl (fun x hx => hn x (List.mem_cons_of_mem _ hx)) (by omega) (by simp only; omega)
      (by simp only; omega)]
    simp only [List.length_cons, Nat.add_one_mul, waitingEvents_cons, Link.sleep_trace, List.append_assoc,
      PollReply.mk.injEq, Poll.mk.injEq, and_true]
    refine ⟨Link.ext_fields rfl rfl rfl rfl rfl ?_, ?_, ?_⟩
    · simp
    · omega
    · omega

end Sys2Proof.Machine
end

