-- ==== Sys2Proof/Laws/Issue.lean ====
section
/-! SUPPORT. `write_frame`, `read_all`, `poll_ready` and `issue` when the environment's answers are given (R87, R91, R101 to
R105), in the words of `Handshake`. -/

namespace Sys2Proof.Machine

/-- READY is bit 0 of the status byte in every legal configuration (R18, R55). -/
theorem readyOf_legal {cfg : Cfg} (h : cfg.legal) (b : Byte) : readyOf cfg b = b.getLsbD 0 := by
  obtain ⟨-, -, -, hm, hv⟩ := h
  unfold readyOf
  rw [hm, hv]
  revert b
  decide +kernel

theorem writeFrame_ok (cfg : Cfg) (bytes rxs : List Byte) (rest : List Answer) (l : Link) (hi : l.ts = .idle)
    (ha : l.answers = answersOf rxs ++ rest) (hl : rxs.length = (writeBody cfg bytes).length) :
    writeFrame cfg bytes l = ⟨{ l with
      ts := .idle, sel := .released, cnt := 0, answers := rest, trace := l.trace ++ writeEvents cfg bytes rxs }, .ok, []⟩ := by
  unfold writeFrame
  rw [if_pos hi, writeTxn_ok cfg bytes rxs rest l ha hl]
  simp [writeEvents]

theorem readAll_ok (cfg : Cfg) (q : Byte) (ds : List Byte) (rest : List Answer) (l : Link) (hi : l.ts = .idle)
    (ha : l.answers = .ok q :: answersOf ds ++ rest) :
    readAll cfg ds.length l = ⟨{ l with
      ts := .idle, sel := .released, cnt := 0, answers := rest, trace := l.trace ++ openEvents cfg q ds ++ [.rel] },
      .ok, ds⟩ := by
  unfold readAll beginRead
  rw [if_pos hi, openRead_ok cfg q ds rest l ha]
  simp [closeAfter, Link.release, Link.emit, openEvents]

/-- A bound on the waits is a bound on the fuel. -/
theorem waits_fuel {k timeout interval tProbe : Nat} (hi : 1 ≤ interval) (ht : k * (interval + tProbe) ≤ timeout) :
    k < timeout / interval + 1 := by
  have : k * interval ≤ timeout := Nat.le_trans (Nat.mul_le_mul_left k (Nat.le_add_right _ _)) ht
  have := (Nat.le_div_iff_mul_le hi).mpr this
  omega

theorem pollReady_ready (cfg : Cfg) (timeout interval : Nat) (waits : List (Byte × Byte)) (a b : Byte)
    (rest : List Answer) (l : Link) (p : Poll) (hts : l.ts = .idle) (hi : 1 ≤ interval)
    (ha : l.answers = probeAnswers waits ++ .ok a :: .ok b :: rest)
    (hn : ∀ ab ∈ waits, readyOf cfg ab.2 = false) (hr : readyOf cfg b = true)
    (ht : waits.length * (interval + cfg.tProbe) ≤ timeout) :
    pollReady cfg timeout interval l p = ⟨{ l with
        ts := .idle, sel := .released, cnt := 0, answers := rest,
        trace := l.trace ++ waitingEvents cfg interval waits ++ statusEvents cfg (a, b) },
      { elapsed := waits.length * (interval + cfg.tProbe) + cfg.tProbe, probes := waits.length + 1,
        status := b, ready := true }, .ok⟩ := by
  unfold pollReady
  rw [if_neg (by simp [hts]; omega),
    pollLoop_ready cfg timeout interval waits a b rest _ l _ ha hn hr (waits_fuel hi ht) (by simpa using ht)]
  simp

theorem pollReady_timeout (cfg : Cfg) (timeout interval : Nat) (waits : List (Byte × Byte)) (a b : Byte)
    (rest : List Answer) (l : Link) (p : Poll) (hts : l.ts = .idle) (hi : 1 ≤ interval)
    (ha : l.answers = probeAnswers waits ++ .ok a :: .ok b :: rest)
    (hn : ∀ ab ∈ waits, readyOf cfg ab.2 = false) (hr : readyOf cfg b = false)
    (hk : waits.length = timeout / (interval + cfg.tProbe)) :
    pollReady cfg timeout interval l p = ⟨{ l with
        ts := .idle, sel := .released, cnt := 0, answers := rest,
        trace := l.trace ++ waitingEvents cfg interval waits ++ statusEvents cfg (a, b) },
      { elapsed := waits.length * (interval + cfg.tProbe) + cfg.tProbe, probes := waits.length + 1,
        status := b, ready := false }, .timeoutError⟩ := by
  have hpos : 0 < interval + cfg.tProbe := by omega
  have ht : waits.length * (interval + cfg.tProbe) ≤ timeout := by
    rw [hk]
    exact Nat.div_mul_le_self _ _
  have he : timeout < (waits.length + 1) * (interval + cfg.tProbe) := by
    rw [hk, Nat.mul_comm]
    exact Nat.lt_mul_div_succ _ hpos
  unfold pollReady
  rw [if_neg (by simp [hts]; omega),
    pollLoop_timeout cfg timeout interval waits a b rest _ l _ ha hn hr (waits_fuel hi ht) (by simpa using ht)
      (by simpa using he)]
  simp

/-- A poll of which a probe fails after those of `waits`: the registers keep what the last completed probe and the sleep
after it left (R102, R103). -/
theorem pollLoop_fail (cfg : Cfg) (timeout interval : Nat) (waits : List (Byte × Byte)) (tail : List Answer)
    (fuel : Nat) (l l' : Link) (p : Poll) (ha : l.answers = probeAnswers waits ++ tail)
    (hn : ∀ ab ∈ waits, readyOf cfg ab.2 = false) (hf : waits.length < fuel)
    (ht : p.elapsed + waits.length * (interval + cfg.tProbe) ≤ timeout)
    (hp : statusTxn cfg { l with
        ts := if waits = [] then l.ts else .idle, sel := if waits = [] then l.sel else .released,
        cnt := if waits = [] then l.cnt else 0, answers := tail,
        trace := l.trace ++ waitingEvents cfg interval waits } = (none, l')) :
    pollLoop cfg timeout interval fuel l p = ⟨l',
      { elapsed := p.elapsed + waits.length * (interval + cfg.tProbe), probes := p.probes + waits.length,
        status := (waits.map (·.2)).getLastD p.status, ready := if waits = [] then p.ready else false }, .transportError⟩ := by
  induction waits generalizing fuel l p with
  | nil =>
    obtain ⟨n, rfl⟩ : ∃ n, fuel = n + 1 := ⟨fuel - 1, by simp at hf; omega⟩
    have hl : ({ l with answers := tail, trace := l.trace ++ [] } : Link) = l :=
      Link.ext_fields rfl rfl rfl (by simpa using ha.symm) rfl (by simp)
    simp only [if_true, waitingEvents_nil, hl] at hp
    rw [pollLoop]
    simp [probe, hp]
  | cons ab waits ih =>
    obtain ⟨n, rfl⟩ : ∃ n, fuel = n + 1 := ⟨fuel - 1, by simp at hf; omega⟩
    have h0 := hn ab (List.mem_cons_self ..)
    rw [pollLoop, probe_ok cfg ab.1 ab.2 (probeAnswers waits ++ tail) l p (by simpa using ha)]
    simp only [List.length_cons] at hf ht
    rw [Nat.add_one_mul] at ht
    have hle : ¬ timeout < p.elapsed + cfg.tProbe + interval := by omega
    simp only [Poll.probed, Poll.latch, h0, hle, if_false, Bool.false_eq_true]
    rw [ih n _ _ rfl (fun x hx => hn x (List.mem_cons_of_mem _ hx)) (by omega) (by simp only; omega)
      (by simpa [Link.sleep, Link.emit] using hp)]
    simp only [List.length_cons, Nat.add_one_mul, PollReply.mk.injEq, Poll.mk.injEq, and_true, true_and]
    refine ⟨by omega, by omega, ?_, ?_⟩
    · cases waits <;> simp [List.getLast?_cons]
    · simp

/-- `issue` on a scripted handshake: it ends at the comparison of the 6 bytes `a` with the ACK (R101, R104). -/
theorem issue_script (tfi : Byte) (payload a : List Byte) (h : Handshake) (rest : List Answer) (s : State)
    (hleg : s.cfg.legal) (hi : s.link.ts = .idle) (hf : fits s.cfg payload = true) (hw : s.tx.mem.wf)
    (ha : s.link.answers = h.answers a ++ rest) (hl : a.length = Config.ackLen)
    (ht : h.timely s.cfg (buildFrame tfi payload)) :
    issue tfi payload s =
      if isAck a then ⟨{ s.answered h (buildFrame tfi payload) a rest 0 with cc := .acked }, .ok, []⟩
      else ⟨{ s.answered h (buildFrame tfi payload) a rest 0 with cc := .failed }, .ackMismatch, []⟩ := by
  obtain ⟨h1, h2, h3, h4⟩ := ht
  have hn : ∀ ab ∈ h.waits, readyOf s.cfg ab.2 = false := fun ab hab => by rw [readyOf_legal hleg]; exact h2 ab hab
  have hr : readyOf s.cfg h.ready.2 = true := by rw [readyOf_legal hleg]; exact h3
  unfold issue
  simp only [hi, ne_eq, not_true_eq_false, if_false]
  rw [show putFrame tfi payload { s with cc := .issuing } =
    ⟨{ s with cc := .issuing, tx := s.tx.load (buildFrame tfi payload) }, .ok, []⟩ by simp [putFrame, hf]]
  simp only [not_true_eq_false, if_false]
  unfold issueWrite
  simp only
  rw [TxBuf.contents_load hw, writeFrame_ok s.cfg _ h.written
    (probeAnswers h.waits ++ .ok h.ready.1 :: .ok h.ready.2 :: .ok h.prime :: answersOf a ++ rest) s.link hi
    (by simpa [Handshake.answers] using ha) h1]
  simp only [State.onLink, ne_eq, not_true_eq_false, if_false]
  unfold issuePoll
  simp only
  rw [pollReady_ready s.cfg _ _ h.waits h.ready.1 h.ready.2 (.ok h.prime :: answersOf a ++ rest) _ _ rfl hleg.2.2.1
    (by simp) hn hr h4]
  simp only [State.onPoll, ne_eq, not_true_eq_false, if_false]
  unfold issueAck
  simp only
  rw [← hl, readAll_ok s.cfg h.prime a rest _ rfl (by simp)]
  simp only [State.onLink, latchAck, issueFailed, ne_eq, not_true_eq_false, if_false]
  simp only [State.answered, Handshake.events, Handshake.poll, List.append_assoc]

end Sys2Proof.Machine
end

