-- ==== Sys2Proof/Laws/Trace.lean ====
section
/-! SUPPORT. The event trace only grows, and how long each operation can sleep, whatever the environment answers (R37, R83,
R105, R177). -/

namespace Sys2Proof.Machine

theorem sleptIn_append (a b : List Event) : sleptIn (a ++ b) = sleptIn a + sleptIn b := by
  induction a with
  | nil => simp [sleptIn]
  | cons e es ih => cases e <;> simp [sleptIn, ih]; omega

/-- The trace of `l'` is that of `l` and more, of which at most `k` milliseconds are sleeps (R37, R177). -/
def Link.Grew (k : Nat) (l l' : Link) : Prop := ∃ evs, l'.trace = l.trace ++ evs ∧ sleptIn evs ≤ k

theorem Link.Grew.of_trace {k : Nat} {l l' : Link} (h : l'.trace = l.trace) :
    Link.Grew k l l' := ⟨[], by simp [h], by simp [sleptIn]⟩

theorem Link.Grew.trans {j k n : Nat} {a b c : Link} (h1 : Link.Grew j a b) (h2 : Link.Grew k b c)
    (hn : j + k ≤ n) : Link.Grew n a c := by
  obtain ⟨e1, a1, b1⟩ := h1; obtain ⟨e2, a2, b2⟩ := h2
  exact ⟨e1 ++ e2, by simp [a2, a1], by rw [sleptIn_append]; omega⟩

theorem Link.Grew.mono {j k : Nat} {a b : Link} (h : Link.Grew j a b) (hk : j ≤ k) : Link.Grew k a b := by
  obtain ⟨e1, a1, b1⟩ := h; exact ⟨e1, a1, by omega⟩

theorem Link.grew_release (l : Link) : Link.Grew 0 l l.release := by
  cases h : l.sel
  · rw [Link.release_released h]; exact Link.Grew.of_trace rfl
  · rw [Link.release_asserted h]; exact ⟨[.rel], rfl, by simp [sleptIn]⟩

theorem Link.grew_xchg (b : Byte) (l : Link) : Link.Grew 0 l (l.xchg b).2 := by
  rcases Link.xchg_cases b l with ⟨rx, _, h, _⟩ | ⟨_, h, _⟩
  · exact ⟨_, h, by simp [sleptIn]⟩
  · exact ⟨_, h, by simp [sleptIn]⟩

theorem Link.grew_sendAll (bs : List Byte) (l : Link) : Link.Grew 0 l (Link.sendAll bs l).2 := by
  induction bs generalizing l with
  | nil => exact Link.Grew.of_trace rfl
  | cons b bs ih =>
    rw [Link.sendAll]
    have h1 := Link.grew_xchg b l
    rcases hx : Link.xchg b l with ⟨_ | x, l'⟩
    · rw [hx] at h1; exact h1
    · rw [hx] at h1; exact h1.trans (ih l') (by omega)

theorem Link.grew_recvAll (d : Byte) (n : Nat) (l : Link) : Link.Grew 0 l (Link.recvAll d n l).2 := by
  induction n generalizing l with
  | zero => exact Link.Grew.of_trace rfl
  | succ n ih =>
    rw [Link.recvAll]
    have h1 := Link.grew_xchg d l
    rcases hx : Link.xchg d l with ⟨_ | x, l'⟩
    · rw [hx] at h1; exact h1
    · rw [hx] at h1
      have h2 := ih l'
      simp only
      rcases hy : Link.recvAll d n l' with ⟨_ | x, l''⟩
      · rw [hy] at h2; exact h1.trans h2 (by omega)
      · rw [hy] at h2; exact h1.trans h2 (by omega)

theorem Link.grew_select (t n : Nat) (l : Link) : Link.Grew t l
    ((l.select.sleep t).expect n) := ⟨[.sel, .sleep t], by simp, by simp [sleptIn]⟩

theorem Link.grew_abortRead (len : Nat) (l : Link) : Link.Grew 0 l (l.abortRead len).link := by
  have := Link.grew_release l
  exact this

theorem writeTxn_grew (cfg : Cfg) (bs : List Byte) (l : Link) : Link.Grew cfg.tSettle l (writeTxn cfg bs l).link := by
  unfold writeTxn
  have h1 := Link.grew_sendAll (writeBody cfg bs) ((l.select.sleep cfg.tSettle).expect (writeBody cfg bs).length)
  have h0 := Link.grew_select cfg.tSettle (writeBody cfg bs).length l
  rcases hr : Link.sendAll (writeBody cfg bs) ((l.select.sleep cfg.tSettle).expect
      (writeBody cfg bs).length) with ⟨_ | _, l'⟩ <;> rw [hr] at h1 <;> simp only [hr]
  · exact (h0.trans h1 (Nat.le_refl _)).trans (Link.grew_release l') (by omega)
  · exact (h0.trans h1 (Nat.le_refl _)).trans (Link.grew_release l') (by omega)

theorem readBytes_grew (cfg : Cfg) (len : Nat) (l : Link) : Link.Grew 0 l (readBytes cfg len l).link := by
  unfold readBytes
  have h1 := Link.grew_recvAll cfg.dummy len l
  rcases hr : Link.recvAll cfg.dummy len l with ⟨_ | d, l'⟩
  · rw [hr] at h1; exact h1.trans (Link.grew_abortRead _ _) (by omega)
  · rw [hr] at h1; exact h1

theorem openRead_grew (cfg : Cfg) (len : Nat) (l : Link) : Link.Grew cfg.tSettle l (openRead cfg len l).link := by
  unfold openRead
  have h0 := Link.grew_select cfg.tSettle (len + 1) l
  have h1 := Link.grew_xchg cfg.readPrime ((l.select.sleep cfg.tSettle).expect (len + 1))
  rcases hr : Link.xchg cfg.readPrime ((l.select.sleep cfg.tSettle).expect (len + 1)) with ⟨_ | d, l'⟩
  · rw [hr] at h1; exact (h0.trans h1 (Nat.le_refl _)).trans (Link.grew_abortRead _ _) (by omega)
  · rw [hr] at h1; exact (h0.trans h1 (Nat.le_refl _)).trans (readBytes_grew _ _ _) (by omega)

theorem closeAfter_grew {k : Nat} {l : Link} {r : LinkReply} (h : Link.Grew k l r.link) : Link.Grew k l
    (closeAfter r).link := by
  unfold closeAfter; split
  · exact h.trans (Link.grew_release _) (by omega)
  · exact h

theorem writeFrame_grew (cfg : Cfg) (bs : List Byte) (l : Link) : Link.Grew cfg.tSettle l (writeFrame cfg bs l).link := by
  unfold writeFrame; split
  · exact writeTxn_grew _ _ _
  · exact Link.Grew.of_trace rfl

theorem beginRead_grew (cfg : Cfg) (len : Nat) (l : Link) : Link.Grew cfg.tSettle l (beginRead cfg len l).link := by
  unfold beginRead; split
  · exact openRead_grew _ _ _
  · exact Link.Grew.of_trace rfl

theorem continueRead_grew (cfg : Cfg) (len : Nat) (l : Link) : Link.Grew 0 l (continueRead cfg len l).link := by
  unfold continueRead; split
  · have h : Link.Grew 0 l (l.expect len) := Link.Grew.of_trace rfl
    exact h.trans (readBytes_grew _ _ _) (by omega)
  · exact Link.Grew.of_trace rfl

theorem readAll_grew (cfg : Cfg) (len : Nat) (l : Link) : Link.Grew cfg.tSettle l
    (readAll cfg len l).link := closeAfter_grew (beginRead_grew _ _ _)

theorem readResponse_grew (cfg : Cfg) (len : Nat) (st co : Bool) (l : Link) : Link.Grew
    (if st then cfg.tSettle else 0) l (readResponse cfg len st co l).link := by
  unfold readResponse
  cases st <;> cases co <;> simp [beginRead_grew, continueRead_grew, closeAfter_grew]

theorem statusTxn_grew (cfg : Cfg) (l : Link) : Link.Grew 0 l (statusTxn cfg l).2 := by
  unfold statusTxn
  have h0 : Link.Grew 0 l (l.select.expect 2) := ⟨[.sel], by simp, by simp [sleptIn]⟩
  have h1 := Link.grew_xchg cfg.statusProbe (l.select.expect 2)
  rcases hx : Link.xchg cfg.statusProbe (l.select.expect 2) with ⟨_ | x, l'⟩
  · rw [hx] at h1; exact (h0.trans h1 (Nat.le_refl _)).trans (Link.grew_release _) (by omega)
  · rw [hx] at h1
    have h2 := Link.grew_xchg cfg.dummy l'
    simp only
    rcases hy : Link.xchg cfg.dummy l' with ⟨_ | x, l''⟩
    · rw [hy] at h2; exact ((h0.trans h1 (Nat.le_refl _)).trans h2 (Nat.le_refl _)).trans (Link.grew_release _) (by omega)
    · rw [hy] at h2; exact ((h0.trans h1 (Nat.le_refl _)).trans h2 (Nat.le_refl _)).trans (Link.grew_release _) (by omega)

theorem probe_grew (cfg : Cfg) (l : Link) (p : Poll) : Link.Grew 0 l (probe cfg l p).2.1 := by
  have := statusTxn_grew cfg l
  unfold probe
  rcases hx : statusTxn cfg l with ⟨_ | x, l'⟩ <;> (rw [hx] at this; exact this)

theorem probe_registers {cfg : Cfg} {l l' : Link} {p p' : Poll} {ok : Bool} (h : probe cfg l p = (ok, l', p')) :
    (ok = true ∧ p'.elapsed = p.elapsed + cfg.tProbe ∧ p'.probes = p.probes + 1) ∨ (ok = false ∧ p' = p) := by
  unfold probe at h
  rcases hx : statusTxn cfg l with ⟨_ | x, l''⟩ <;> rw [hx] at h <;> simp only [Prod.mk.injEq] at h
  · right; exact ⟨h.1.symm, h.2.2.symm⟩
  · left; refine ⟨h.1.symm, ?_, ?_⟩ <;> rw [← h.2.2] <;> simp [Poll.probed, Poll.latch]

/-- The loop sleeps no more than the time left, and probes at most once more than the intervals in it (R103, R105). -/
theorem pollLoop_bound (cfg : Cfg) (t iv n : Nat) (l : Link) (p : Poll) (he : p.elapsed ≤ t) (hiv : 1 ≤ iv) :
    Link.Grew (t - p.elapsed) l (pollLoop cfg t iv n l p).link ∧ (pollLoop cfg t iv n l p).poll.probes ≤ p.probes +
        ((t - p.elapsed) / iv + 1) := by
  induction n generalizing l p with
  | zero => exact ⟨Link.Grew.of_trace rfl, by simp [pollLoop]⟩
  | succ n ih =>
    rw [pollLoop]
    have hg := probe_grew cfg l p
    rcases hp : probe cfg l p with ⟨ok, l', p'⟩
    rw [hp] at hg
    rcases probe_registers hp with ⟨rfl, e1, e2⟩ | ⟨rfl, rfl⟩
    · simp only
      split
      · exact ⟨hg.mono (by omega), by simp [e2]⟩
      · split
        · exact ⟨hg.mono (by omega), by simp [e2]⟩
        · rename_i hnt
          have hs : Link.Grew iv l' (l'.sleep iv) := ⟨[.sleep iv], by simp, by simp [sleptIn]⟩
          obtain ⟨i1, i2⟩ := ih (l'.sleep iv) { p' with elapsed := p'.elapsed + iv } (by simp only; omega)
          simp only at i1 i2
          refine ⟨(hg.trans hs (Nat.le_refl _)).trans i1 (by omega), Nat.le_trans i2 ?_⟩
          have : (t - (p'.elapsed + iv)) / iv + 1 ≤ (t - p.elapsed) / iv := by
            rw [Nat.le_div_iff_mul_le (by omega), Nat.add_one_mul]
            have := Nat.div_mul_le_self (t - (p'.elapsed + iv)) iv
            omega
          omega
    · exact ⟨hg.mono (by omega), by simp⟩

theorem pollReady_bound (cfg : Cfg) (t iv : Nat) (l : Link) (p : Poll) : Link.Grew t l
    (pollReady cfg t iv l p).link ∧ ((pollReady cfg t iv l p).res ≠ .seqFault →
        (pollReady cfg t iv l p).poll.probes ≤ t / iv + 1) := by
  unfold pollReady
  split
  · exact ⟨Link.Grew.of_trace rfl, by simp⟩
  · rename_i h
    have := pollLoop_bound cfg t iv (t / iv + 1) l { p with elapsed := 0, probes := 0 } (by simp) (by omega)
    simp at this
    exact ⟨this.1, fun _ => this.2⟩

theorem issue_grew (tfi : Byte) (p : List Byte) (s : State) : Link.Grew
    (s.cfg.tSettle + s.cfg.defaultTimeout + s.cfg.tSettle) s.link (issue tfi p s).st.link := by
  unfold issue
  split
  · exact Link.Grew.of_trace rfl
  · rcases putFrame_cases tfi p { s with cc := .issuing } with ⟨hf, hp⟩ | ⟨hf, hp⟩ <;> rw [hp]
    · simp only [ne_eq, not_true_eq_false, if_false]
      unfold issueWrite
      simp only
      have g1 := writeFrame_grew s.cfg (s.tx.load (buildFrame tfi p)).contents s.link
      split
      · exact g1.mono (by simp)
      · unfold issuePoll
        simp only
        have g2 := (pollReady_bound s.cfg s.cfg.defaultTimeout s.cfg.defaultInterval (writeFrame s.cfg (s.tx.load
            (buildFrame tfi p)).contents s.link).link s.poll).1
        have g12 := g1.trans g2 (Nat.le_refl _)
        split
        · exact g12.mono (by omega)
        · unfold issueAck
          simp only
          have g3 := readAll_grew s.cfg Config.ackLen (pollReady s.cfg s.cfg.defaultTimeout s.cfg.defaultInterval
              (writeFrame s.cfg (s.tx.load (buildFrame tfi p)).contents s.link).link s.poll).link
          have g := g12.trans g3 (Nat.le_refl _)
          split
          · exact g
          · split <;> exact g
    · exact Link.Grew.of_trace rfl

end Sys2Proof.Machine
end

