-- ==== Sys2Proof/Laws/Exec.lean ====
section
/-! SUPPORT. How operations return (R20, R146, R150), which results they can have (R140), and what `issue` and
`read_response` leave unchanged (R15, R106). -/

namespace Sys2Proof.Machine

/-! ## Returning -/

theorem Reply.finishAs_ok (l : Latch) (s : State) (d : List Byte) :
    Reply.finishAs l ⟨s, .ok, d⟩ = ⟨{ s with latch := l, result := .ok }, .ok, d⟩ := by
  simp [Reply.finishAs, Reply.finish]

theorem Reply.finishAs_transportError (l : Latch) (s : State) (d : List Byte) :
    Reply.finishAs l ⟨s, .transportError, d⟩ =
      ⟨{ s with latch := l, result := .transportError }, .transportError, d⟩ := by
  simp [Reply.finishAs, Reply.finish]

theorem Reply.finishAs_seqFault (l : Latch) (s : State) (d : List Byte) :
    Reply.finishAs l ⟨s, .seqFault, d⟩ = ⟨{ s with result := .seqFault, seqFaulted := true }, .seqFault, d⟩ := by
  simp [Reply.finishAs, Reply.finish]

/-- Any return: RESULT, the returned value, the mark of a refusal, and the latch unless refused. -/
theorem Reply.next_finishAs (l : Latch) (r : Reply) (out : Output) :
    (Reply.finishAs l r).next out =
      .next (({ r.st with seqFaulted := r.st.seqFaulted || r.res == .seqFault } : State).returned r.res out
        (if r.res == .seqFault then r.st.latch else l)) := by
  by_cases h : r.res == .seqFault <;> simp [Reply.next, Reply.finishAs, Reply.finish, h, State.returned]

/-- The five rows of `read_response` are one operation. -/
theorem exec_mode (i : Instr) (len : Nat) (st co : Bool) (s : State)
    (h : i = .readResponse len st co ∨ i = modeRow st co len) :
    exec i s = (opReadResponse len st co s).next (opReadResponse len st co s).readOutput := by
  rcases h with rfl | rfl
  · rfl
  · cases st <;> cases co <;> rfl

/-! ## Results, in every state -/

/-- `recv` of `n` bytes that all succeed gives `n` bytes and counts them down (R16, R84). -/
theorem Link.recvAll_some (d : Byte) (n : Nat) (l : Link) (xs : List Byte) (h : (Link.recvAll d n l).1 = some xs) :
    (Link.recvAll d n l).2.cnt = l.cnt - n ∧ xs.length = n := by
  induction n generalizing l xs with
  | zero =>
    simp only [Link.recvAll, Option.some.injEq] at h ⊢
    subst h
    simp
  | succ n ih =>
    rw [Link.recvAll] at h ⊢
    rcases Link.xchg_cases d l with ⟨rx, h1, -, h3, -⟩ | ⟨h1, -⟩
    · rcases hx : Link.xchg d l with ⟨_ | b, l'⟩
      · rw [hx] at h1
        simp at h1
      · rw [hx] at h3 h
        simp only at h3 h ⊢
        have hi := ih l'
        rcases hr : Link.recvAll d n l' with ⟨_ | ds, l''⟩ <;> rw [hr] at h hi
        · simp at h
        · have := hi ds rfl
          simp only [Option.some.injEq] at h ⊢
          subst h
          simp only at this
          simp only [List.length_cons]
          omega
    · rcases hx : Link.xchg d l with ⟨_ | b, l'⟩
      · rw [hx] at h
        simp at h
      · rw [hx] at h1
        simp at h1

/-- Reading an open transaction gives its `len` bytes, or fails with `TransportError` (R88, R89). -/
theorem readBytes_result (cfg : Cfg) (len : Nat) (l : Link) :
    ((readBytes cfg len l).res = .ok ∧ (readBytes cfg len l).data.length = len) ∨
      (readBytes cfg len l).res = .transportError := by
  unfold readBytes
  rcases hr : Link.recvAll cfg.dummy len l with ⟨_ | ds, l'⟩
  · exact Or.inr rfl
  · exact Or.inl ⟨rfl, (Link.recvAll_some cfg.dummy len l ds (by rw [hr])).2⟩

theorem openRead_result (cfg : Cfg) (len : Nat) (l : Link) :
    ((openRead cfg len l).res = .ok ∧ (openRead cfg len l).data.length = len) ∨
      (openRead cfg len l).res = .transportError := by
  unfold openRead
  split
  · exact readBytes_result cfg len _
  · exact Or.inr rfl

theorem writeTxn_result (cfg : Cfg) (bytes : List Byte) (l : Link) :
    (writeTxn cfg bytes l).res = .ok ∨ (writeTxn cfg bytes l).res = .transportError := by
  unfold writeTxn
  simp only
  split <;> simp [Link.abort]

theorem pollLoop_result (cfg : Cfg) (timeout interval fuel : Nat) (l : Link) (p : Poll) :
    (pollLoop cfg timeout interval fuel l p).res ≠ .seqFault := by
  induction fuel generalizing l p with
  | zero => simp [pollLoop]
  | succ n ih =>
    rw [pollLoop]
    split
    · simp
    · split
      · simp
      · split
        · simp
        · exact ih _ _

/-! ## What `issue` and `read_response` leave unchanged -/

/-- `issue` in any state: CFG, the host's records and the codec's verdicts as before; TXBUF the one frame, or as before
(R12, R19, R101). -/
theorem issue_frame (tfi : Byte) (p : List Byte) (s : State) :
    (issue tfi p s).st.cfg = s.cfg ∧ (issue tfi p s).st.consumer = s.consumer ∧
    (issue tfi p s).st.session = s.session ∧ (issue tfi p s).st.requests = s.requests ∧
    (issue tfi p s).st.lcsOk = s.lcsOk ∧ (issue tfi p s).st.dcsOk = s.dcsOk ∧
    (issue tfi p s).st.seqFaulted = s.seqFaulted ∧
    ((s.link.ts ≠ .idle ∨ fits s.cfg p = false) → (issue tfi p s).st.tx = s.tx) ∧
    (s.link.ts = .idle → fits s.cfg p = true → (issue tfi p s).st.tx = s.tx.load (buildFrame tfi p)) := by
  unfold issue
  split
  · rename_i h
    simp [h]
  · rename_i h
    rcases putFrame_cases tfi p { s with cc := .issuing } with ⟨hf, hp⟩ | ⟨hf, hp⟩ <;> rw [hp] <;> simp only at hf
    · simp only [ne_eq, not_not] at h
      simp only [h, hf, ne_eq, not_true_eq_false, false_or, Bool.true_eq_false, false_imp_iff, forall_const, true_and,
        if_false]
      unfold issueWrite
      simp only
      split
      · simp [issueFailed]
      · unfold issuePoll
        simp only
        split
        · simp [issueFailed, State.onPoll]
        · unfold issueAck
          simp only
          split
          · simp [issueFailed, State.onPoll]
          · split <;> simp [issueFailed, State.onPoll, latchAck]
    · simp [issueFailed, hf]

/-- Everything but the link, the latch, RESULT, the misuse mark and the returned value is as before. -/
structure State.KeptBesideLink (s t : State) : Prop where
  cc : t.cc = s.cc
  tx : t.tx = s.tx
  poll : t.poll = s.poll
  ackbuf : t.ackbuf = s.ackbuf
  lcsOk : t.lcsOk = s.lcsOk
  dcsOk : t.dcsOk = s.dcsOk
  ackOk : t.ackOk = s.ackOk
  cfg : t.cfg = s.cfg
  session : t.session = s.session
  consumer : t.consumer = s.consumer
  requests : t.requests = s.requests

theorem State.KeptBesideLink.trans {a b c : State} (h : a.KeptBesideLink b) (k : b.KeptBesideLink c) :
    a.KeptBesideLink c := by
  constructor
  exacts [k.cc.trans h.cc, k.tx.trans h.tx, k.poll.trans h.poll, k.ackbuf.trans h.ackbuf, k.lcsOk.trans h.lcsOk,
    k.dcsOk.trans h.dcsOk, k.ackOk.trans h.ackOk, k.cfg.trans h.cfg, k.session.trans h.session,
    k.consumer.trans h.consumer, k.requests.trans h.requests]

theorem onLink_kept (s : State) (r : LinkReply) (l : Latch) : s.KeptBesideLink ((s.onLink r).finishAs l).st := by
  constructor <;> simp

theorem opReadResponse_kept (len : Nat) (st co : Bool) (s : State) : s.KeptBesideLink (opReadResponse len st co s).st :=
  onLink_kept s _ _

theorem opReadResponse_result (len : Nat) (st co : Bool) (s : State) :
    (opReadResponse len st co s).st.result = (opReadResponse len st co s).res := by
  simp [opReadResponse]

end Sys2Proof.Machine
end

