-- ==== Sys2Proof/Laws/PerInstr.lean ====
section
/-! SUPPORT. One lemma per instruction: its encoding names it again (LAWS.json, family Roundtrip). -/

namespace Sys2Proof.Laws.Roundtrip

/-- The request an instruction is encoded as names that instruction, operands and all. -/
def Statement (i : Instr) : Prop := i.wellFormed = true → decodeShape (Sys2Proof.encode i) = .ok i

/-- A frame with a direction marker is neither fixed frame: their byte 5 is 00. -/
theorem fixed_tfi {f : List Byte} {t : Byte} (h : f[5]? = some t) (ht : t ≠ 0) :
    f ≠ Config.ackFrame ∧ f ≠ Config.nackFrame := by
  constructor <;> rintro rfl <;> simp_all [Config.ackFrame, Config.nackFrame]

theorem nif (frame : List Byte) : Statement (.nif frame) := by
  intro h
  simp only [Instr.wellFormed, startsFrame, fixedFrame, Bool.and_eq_true, Bool.not_eq_true', Bool.or_eq_false_iff, bne_iff_ne, beq_iff_eq] at h
  obtain ⟨⟨⟨hs, h1, h2⟩, h3⟩, h4⟩ := h
  simp_all [Sys2Proof.encode, decodeShape, decodeFrame, startsFrame]

theorem nifH2C (frame : List Byte) : Statement (.nifH2C frame) := by
  intro h
  simp only [Instr.wellFormed, Bool.and_eq_true, beq_iff_eq] at h
  have hf := fixed_tfi h.2 (by decide)
  simp [Sys2Proof.encode, decodeShape, decodeFrame, h.1, h.2, hf]

theorem nifC2H (frame : List Byte) : Statement (.nifC2H frame) := by
  intro h
  simp only [Instr.wellFormed, Bool.and_eq_true, beq_iff_eq] at h
  have hf := fixed_tfi h.2 (by decide)
  simp [Sys2Proof.encode, decodeShape, decodeFrame, h.1, h.2, hf, Config.tfiC2H, Config.tfiH2C]

theorem ackFrame : Statement .ackFrame := fun _ => rfl

theorem nackFrame : Statement .nackFrame := fun _ => rfl

theorem writeTxn (bytes : List Byte) : Statement (.writeTxn bytes) := fun _ => rfl

theorem readTxn (len : Nat) : Statement (.readTxn len) := fun _ => rfl

theorem statusTxn : Statement .statusTxn := fun _ => rfl

theorem statusByte (s : Byte) : Statement (.statusByte s) := fun _ => rfl

theorem encode (tfi : Byte) (payload : List Byte) : Statement (.encode tfi payload) := fun _ => rfl

theorem validate (frame : List Byte) : Statement (.validate frame) := fun _ => rfl

theorem decode (frame : List Byte) : Statement (.decode frame) := fun _ => rfl

theorem writeFrame (bytes : List Byte) : Statement (.writeFrame bytes) := fun _ => rfl

theorem beginRead (len : Nat) : Statement (.beginRead len) := fun _ => rfl

theorem continueRead (len : Nat) : Statement (.continueRead len) := fun _ => rfl

theorem endRead : Statement .endRead := fun _ => rfl

theorem readAll (len : Nat) : Statement (.readAll len) := fun _ => rfl

theorem issue (tfi : Option Byte) (payload : List Byte) : Statement (.issue tfi payload) := fun _ => rfl

theorem pollReady (timeout interval : Option Nat) : Statement (.pollReady timeout interval) := fun _ => rfl

theorem readResponse (len : Nat) (start conclude : Bool) : Statement (.readResponse len start conclude) := fun _ => rfl

theorem readResponseFull (len : Nat) : Statement (.readResponseFull len) := fun _ => rfl

theorem readResponseOpen (len : Nat) : Statement (.readResponseOpen len) := fun _ => rfl

theorem readResponseContinue (len : Nat) : Statement (.readResponseContinue len) := fun _ => rfl

theorem readResponseClose (len : Nat) : Statement (.readResponseClose len) := fun _ => rfl

theorem initializeBlock (cfg : CfgArg) : Statement (.initializeBlock cfg) := fun _ => rfl

theorem reservedB (low : BitVec 4) : Statement (.reservedB low) := fun _ => by
  revert low
  decide +kernel

theorem reservedC (low : BitVec 4) : Statement (.reservedC low) := fun _ => by
  revert low
  decide +kernel

theorem reservedD (low : BitVec 4) : Statement (.reservedD low) := fun _ => by
  revert low
  decide +kernel

theorem reservedE (low : BitVec 4) : Statement (.reservedE low) := fun _ => by
  revert low
  decide +kernel

theorem probe : Statement .probe := fun _ => rfl

theorem isAck (b : List Byte) : Statement (.isAck b) := fun _ => rfl

theorem isNack (b : List Byte) : Statement (.isNack b) := fun _ => rfl

theorem headerOk (h : List Byte) : Statement (.headerOk h) := fun _ => rfl

theorem detect : Statement .detect := fun _ => rfl

theorem bind (tag : TagRecord) : Statement (.bind tag) := fun _ => rfl

theorem authenticate (target : Option (Byte × List Byte)) (keyType : KeyType) (block : Byte) (key : List Byte) : Statement (.authenticate target keyType block key) := by
  intro h
  rcases target with _ | ⟨tg, u⟩ <;> cases keyType <;>
    simp_all [Instr.wellFormed, Sys2Proof.encode, decodeShape, decodeSequence, decodeSession, keyByte]

theorem readBlock (target : Option Byte) (block : Byte) : Statement (.readBlock target block) := by
  intro h
  cases target <;> simp_all [Instr.wellFormed, Sys2Proof.encode, decodeShape, decodeSequence, decodeSession]

theorem writeBlock (target : Option Byte) (block : Byte) (data : List Byte) : Statement (.writeBlock target block data) := by
  intro h
  cases target <;> simp_all [Instr.wellFormed, Sys2Proof.encode, decodeShape, decodeSequence, decodeSession]

end Sys2Proof.Laws.Roundtrip
end

