-- ==== Sys2Proof/Tests/Slice0.lean ====
section
/-! SUPPORT. The author's tests: an ill-formed term for each check of WellFormed, words written out from the spec's
encodings, one step at a time on the vectors of spec/95_test_vectors.md and the examples of the rules (the source of each
expected value stands beside it), and a witness for the hypotheses of every obligation. -/

namespace Sys2Proof.Tests

open Sys2Proof Sys2Proof.Machine

/-! ## Small states -/

/-- Reset, the environment answering as listed. -/
def idle (answers : List Answer) : State := { State.reset with link := { State.reset.link with answers := answers } }

/-- As after vector T7: a stream opened by `begin_read(2)`. -/
def streaming (answers : List Answer) : State :=
  { State.reset with link := { State.reset.link with
      ts := .streaming, sel := .asserted, answers := answers
      trace := [.sel, .sleep 5, .x 0x03 0xFF, .x 0x00 0x00, .x 0x00 0x00] } }

/-- The outcome is a next state with `p`. -/
def got (o : StepOutcome) (p : State → Bool) : Bool :=
  match o with
  | .next t => p t
  | .fault _ | .refused _ => false

theorem of_got {o : StepOutcome} {p : State → Bool} (h : got o p = true) : ∃ t, o = .next t ∧ p t = true := by
  cases o with
  | next t => exact ⟨t, rfl, h⟩
  | fault _ | refused _ => simp [got] at h

/-- Bytes the chip shifts out while the block writes `n` bytes: discarded. -/
def echo (n : Nat) : List Byte := List.replicate n 0xEE

def oks (bs : List Byte) : List Answer := answersOf bs

/-- F9 of the vectors, the frame of `encode(D4, 02)`. -/
def f9 : List Byte := [0x00, 0x00, 0xFF, 0x02, 0xFE, 0xD4, 0x02, 0x2A, 0x00]

/-- The frame of vector E5 and V1. -/
def v1 : List Byte := [0x00, 0x00, 0xFF, 0x04, 0xFC, 0xD4, 0x4A, 0x01, 0x00, 0xE1, 0x00]

/-- The frame of vector V14: well formed, not canonical. -/
def v14 : List Byte := [0xAA, 0xBB, 0xCC, 0x02, 0xFE, 0xD4, 0x02, 0x2A, 0x77]

/-- Answers to a command of `n` frame bytes: the write, one ready probe, the ACK read. -/
def acked (n : Nat) : List Answer := oks (echo n) ++ oks [0xEE, 0x01] ++ oks (0xEE :: Config.ackFrame)

/-! ## WellFormed: each check refuses an ill-formed term -/

theorem test_wf_nif_start : (Instr.nif [0x00, 0x01, 0xFF, 0x01, 0xFF, 0x00, 0x00, 0x00]).wellFormed = false := by decide
theorem test_wf_nif_ack : (Instr.nif [0x00, 0x00, 0xFF, 0x00, 0xFF, 0x00]).wellFormed = false := by decide
theorem test_wf_nif_h2c : (Instr.nif f9).wellFormed = false := by decide
theorem test_wf_nif_c2h : (Instr.nif [0x00, 0x00, 0xFF, 0x01, 0xFF, 0xD5, 0x2B, 0x00]).wellFormed = false := by decide
theorem test_wf_nifH2C_tfi :
    (Instr.nifH2C [0x00, 0x00, 0xFF, 0x01, 0xFF, 0xD5, 0x2B, 0x00]).wellFormed = false := by decide
theorem test_wf_nifC2H_start :
    (Instr.nifC2H [0xFF, 0x00, 0xFF, 0x01, 0xFF, 0xD5, 0x2B, 0x00]).wellFormed = false := by decide
theorem test_wf_atqa : (Instr.bind { atqa := [0x04] }).wellFormed = false := by decide
theorem test_wf_uid : (Instr.bind { uid := [1, 2, 3, 4, 5] }).wellFormed = false := by decide
theorem test_wf_key : (Instr.authenticate none .a 2 [1, 2, 3, 4, 5]).wellFormed = false := by decide
theorem test_wf_auth_uid :
    (Instr.authenticate (some (1, [1, 2, 3])) .a 2 [1, 2, 3, 4, 5, 6]).wellFormed = false := by decide
theorem test_wf_data : (Instr.writeBlock none 2 (List.replicate 15 0)).wellFormed = false := by decide

/-! ## Decoding: the words of R46 to R59, R124, R128 and the opcode table, written out -/

/-- R57: OPW[7:4] is the operation code, OPW[1] `start`, OPW[0] `conclude`. -/
theorem test_decode_codec_words :
    decode ⟨.opw, [0b00000000], { tfi := some 0xD5, buf := [0x02] }⟩ = .ok (.encode 0xD5 [0x02]) ∧
    decode ⟨.opw, [0b00000000], { buf := [0x02] }⟩ = .ok (.encode 0xD4 [0x02]) ∧
    decode ⟨.opw, [0b00010000], { buf := v1 }⟩ = .ok (.validate v1) ∧
    decode ⟨.opw, [0b00100000], { buf := v1 }⟩ = .ok (.decode v1) := by decide +kernel

theorem test_decode_transport_words :
    decode ⟨.opw, [0b00110000], { buf := f9 }⟩ = .ok (.writeFrame f9) ∧
    decode ⟨.opw, [0b01000000], { len := 2 }⟩ = .ok (.beginRead 2) ∧
    decode ⟨.opw, [0b01010000], { len := 3 }⟩ = .ok (.continueRead 3) ∧
    decode ⟨.opw, [0b01100000], {}⟩ = .ok .endRead ∧
    decode ⟨.opw, [0b01110000], { len := 6 }⟩ = .ok (.readAll 6) := by decide +kernel

theorem test_decode_channel_words :
    decode ⟨.opw, [0b10000000], { buf := [0x02] }⟩ = .ok (.issue none [0x02]) ∧
    decode ⟨.opw, [0b10010000], { timeout := some 1000, interval := some 10 }⟩ =
      .ok (.pollReady (some 1000) (some 10)) ∧
    decode ⟨.opw, [0b10100011], { len := 13 }⟩ = .ok (.readResponseFull 13) ∧
    decode ⟨.opw, [0b10100010], { len := 8 }⟩ = .ok (.readResponseOpen 8) ∧
    decode ⟨.opw, [0b10100000], { len := 5 }⟩ = .ok (.readResponseContinue 5) ∧
    decode ⟨.opw, [0b10100001], { len := 4 }⟩ = .ok (.readResponseClose 4) := by decide +kernel

theorem test_decode_system_words :
    decode ⟨.opw, [0b11110000], { cfg := { readPrime := some 3 } }⟩ = .ok (.initializeBlock { readPrime := some 3 }) ∧
    decode ⟨.opw, [0b10110000], {}⟩ = .ok (.reservedB 0) ∧ decode ⟨.opw, [0b11001111], {}⟩ = .ok (.reservedC 15) ∧
    decode ⟨.opw, [0b11010101], {}⟩ = .ok (.reservedD 5) ∧ decode ⟨.opw, [0b11100001], {}⟩ = .ok (.reservedE 1) := by
  decide +kernel

/-- R59: the reserved bits of a word, and what is no request. -/
theorem test_decode_rejects :
    decode ⟨.opw, [0b00000100], {}⟩ = .error (.reservedBits 0x04) ∧
    decode ⟨.opw, [0b10101000], {}⟩ = .error (.reservedBits 0xA8) ∧
    decode ⟨.opw, [0b01000010], {}⟩ = .error (.reservedBits 0x42) ∧
    decode ⟨.opw, [0b11110001], {}⟩ = .error (.reservedBits 0xF1) ∧
    decode ⟨.opw, [], {}⟩ = .error .notOneByte ∧ decode ⟨.frame, [0xFF], {}⟩ = .error .noSuchFrame ∧
    decode ⟨.sequence, [0x4A, 0x02, 0x00], {}⟩ = .error .noSuchSequence ∧
    decode ⟨.session, [0xA0, 2, 0], {}⟩ = .error .illFormed := by decide +kernel

/-- R46, R48 to R50, R55. -/
theorem test_decode_frames :
    decode ⟨.frame, [0x00, 0x00, 0xFF, 0x02, 0xFE, 0x00, 0x00, 0x00, 0x00], {}⟩ =
      .ok (.nif [0x00, 0x00, 0xFF, 0x02, 0xFE, 0x00, 0x00, 0x00, 0x00]) ∧
    decode ⟨.frame, [0x00, 0x00, 0xFF, 0x01, 0xFF, 0xD4, 0x2C, 0x00], {}⟩ =
      .ok (.nifH2C [0x00, 0x00, 0xFF, 0x01, 0xFF, 0xD4, 0x2C, 0x00]) ∧
    decode ⟨.frame, [0x00, 0x00, 0xFF, 0x01, 0xFF, 0xD5, 0x2B, 0x00], {}⟩ =
      .ok (.nifC2H [0x00, 0x00, 0xFF, 0x01, 0xFF, 0xD5, 0x2B, 0x00]) ∧
    decode ⟨.frame, [0x00, 0x00, 0xFF, 0x00, 0xFF, 0x00], {}⟩ = .ok .ackFrame ∧
    decode ⟨.frame, [0x00, 0x00, 0xFF, 0xFF, 0x00, 0x00], {}⟩ = .ok .nackFrame ∧
    decode ⟨.status, [0x81], {}⟩ = .ok (.statusByte 0x81) := by decide +kernel

/-- R124, R128: the table's payloads of the sequences. -/
theorem test_decode_sequences :
    decode ⟨.sequence, [0x4A, 0x01, 0x00], {}⟩ = .ok .detect ∧
    decode ⟨.sequence, [0x40, 0x01, 0x60, 0x02, 0xA0, 0xA1, 0xA2, 0xA3, 0xA4, 0xA5, 0xDE, 0xAD, 0xBE, 0xEF], {}⟩ =
      .ok (.authenticate (some (1, [0xDE, 0xAD, 0xBE, 0xEF])) .a 2 [0xA0, 0xA1, 0xA2, 0xA3, 0xA4, 0xA5]) ∧
    decode ⟨.sequence, [0x40, 0x01, 0x61, 0x02, 0xA0, 0xA1, 0xA2, 0xA3, 0xA4, 0xA5, 0xDE, 0xAD, 0xBE, 0xEF], {}⟩ =
      .ok (.authenticate (some (1, [0xDE, 0xAD, 0xBE, 0xEF])) .b 2 [0xA0, 0xA1, 0xA2, 0xA3, 0xA4, 0xA5]) ∧
    decode ⟨.sequence, [0x40, 0x01, 0x30, 0x02], {}⟩ = .ok (.readBlock (some 1) 2) ∧
    decode ⟨.sequence, [0x40, 0x01, 0xA0, 0x02, 0, 1, 2, 3, 4, 5, 6, 7, 8, 9, 10, 11, 12, 13, 14, 15], {}⟩ =
      .ok (.writeBlock (some 1) 2 [0, 1, 2, 3, 4, 5, 6, 7, 8, 9, 10, 11, 12, 13, 14, 15]) ∧
    decode ⟨.session, [0x30, 0x02], {}⟩ = .ok (.readBlock none 2) := by decide +kernel

/-- The rows without an encoding, called by name (log 10). -/
theorem test_decode_named_rows :
    decode ⟨.writeTxn, [], { buf := f9 }⟩ = .ok (.writeTxn f9) ∧ decode ⟨.readTxn, [], { len := 6 }⟩ = .ok (.readTxn 6) ∧
    decode ⟨.statusTxn, [], {}⟩ = .ok .statusTxn ∧ decode ⟨.probe, [], {}⟩ = .ok .probe ∧
    decode ⟨.readResponse, [], { len := 3, start := true }⟩ = .ok (.readResponse 3 true false) ∧
    decode ⟨.isAck, [], { buf := [1] }⟩ = .ok (.isAck [1]) ∧ decode ⟨.isNack, [], { buf := [1] }⟩ = .ok (.isNack [1]) ∧
    decode ⟨.headerOk, [], { buf := v1 }⟩ = .ok (.headerOk v1) ∧ decode ⟨.bind, [], {}⟩ = .ok (.bind {}) := by
  decide +kernel

/-- The opcode table's own words (log 11). -/
theorem test_table_words :
    decodeTableWord 24 0x0000FF = some (.nif [0x00, 0x00, 0xFF, 0, 0, 0, 0, 0]) ∧
    decodeTableWord 48 0x0000FF0000D4 = some (.nifH2C [0x00, 0x00, 0xFF, 0, 0, 0xD4, 0, 0]) ∧
    decodeTableWord 48 0x0000FF0000D5 = some (.nifC2H [0x00, 0x00, 0xFF, 0, 0, 0xD5, 0, 0]) ∧
    decodeTableWord 48 0x0000FF00FF00 = some .ackFrame ∧ decodeTableWord 48 0x0000FFFF0000 = some .nackFrame ∧
    decodeTableWord 8 0x01 = some (.statusByte 0x01) ∧ decodeTableWord 8 0x50 = some (.continueRead 0) ∧
    decodeTableWord 24 0x4A0100 = some .detect ∧
    decodeTableWord 32 0x40006000 = some (.authenticate (some (0, [0, 0, 0, 0])) .a 0 [0, 0, 0, 0, 0, 0]) ∧
    decodeTableWord 32 0x40003000 = some (.readBlock (some 0) 0) ∧
    decodeTableWord 32 0x4000A000 = some (.writeBlock (some 0) 0 (List.replicate 16 0)) := by decide +kernel

/-- No word is matched by two rows of the decoder's table (R57, R59). -/
theorem test_no_overlap :
    opwTable.Pairwise fun r q => ((r.pattern ^^^ q.pattern) &&& (r.mask &&& q.mask)) ≠ 0 := by decide +kernel

/-- A word placed where `step` takes its next request is run by the very next step. -/
theorem test_fetch_runs_the_word :
    got (step (State.reset.withFetchWord 8 0x50)) (fun t => t.result == .seqFault && t.requests == []) = true := by
  decide +kernel

/-! ## Frame codec (vectors E1 to V21, R70, R71) -/

theorem test_encode_E9 :
    got (exec (.encode 0xD4 [0xFF, 0xFF, 0xFF]) (idle []))
      (fun t => t.output == .frame [0x00, 0x00, 0xFF, 0x04, 0xFC, 0xD4, 0xFF, 0xFF, 0xFF, 0x2F, 0x00] && t.tx.len == 11 &&
        t.tx.contents == [0x00, 0x00, 0xFF, 0x04, 0xFC, 0xD4, 0xFF, 0xFF, 0xFF, 0x2F, 0x00]) = true := by decide +kernel

theorem test_encode_E17_E18 :
    got (exec (.encode 0xD4 (List.replicate 254 0xAA)) (idle []))
      (fun t => t.tx.len == 262 && slice t.tx.contents 3 5 == [0xFF, 0x01] && byteAt t.tx.contents 260 == 0x80) = true ∧
    got (exec (.encode 0xD4 (List.replicate 255 0xAA)) (idle []))
      (fun t => t.tx == State.reset.tx && t.result == .encodeReject) = true := by decide +kernel

theorem test_validate_V4_V17 :
    got (exec (.validate [0x00, 0x00, 0xFF, 0x05, 0xFB, 0xD4, 0x4A, 0x01, 0x00, 0xE1, 0x00]) (idle []))
      (fun t => t.output == .verdict false && t.lcsOk && !t.dcsOk) = true ∧
    got (exec (.validate [0x00, 0x00, 0xFF, 0xFF, 0xFF, 0x01, 0x02, 0xD4, 0x02, 0x2A, 0x00]) (idle []))
      (fun t => t.output == .verdict false && !t.lcsOk && !t.dcsOk) = true := by decide +kernel

theorem test_validate_V9_V20 :
    got (exec (.validate [0x00, 0x00, 0xFF, 0x00, 0x00, 0xD4, 0x2C, 0x00]) (idle []))
      (fun t => t.output == .verdict false && t.lcsOk && !t.dcsOk) = true ∧
    got (exec (.validate [0x00, 0x00, 0xFF, 0x04, 0xFC, 0xD4, 0x4A, 0x01, 0x00, 0xE1, 0xFF]) (idle []))
      (fun t => t.output == .verdict true && t.lcsOk && t.dcsOk) = true := by decide +kernel

theorem test_decode_V14_V2 :
    got (exec (.decode v14) (idle [])) (fun t => t.output == .accept 0xD4 [0x02] && t.dcsOk) = true ∧
    got (exec (.decode [0x00, 0x00, 0xFF, 0x04, 0xFC, 0xD4, 0x4A, 0x01, 0x00, 0xE0, 0x00]) (idle []))
      (fun t => t.output == .reject && t.lcsOk && !t.dcsOk && t.result == .ok) = true := by decide +kernel

theorem test_isAck_last_byte :
    got (exec (.isAck [0x00, 0x00, 0xFF, 0x00, 0xFF, 0x01]) (idle [])) (fun t => t.output == .verdict false) = true ∧
    got (exec (.isAck [0x00, 0x00, 0xFF, 0x00, 0xFF, 0x00]) (idle [])) (fun t => t.output == .verdict true) = true := by
  decide +kernel

theorem test_isNack_constant :
    got (exec (.isNack [0x00, 0x00, 0xFF, 0xFF, 0x00, 0x00]) (idle [])) (fun t => t.output == .verdict true) = true ∧
    got (exec (.isNack [0x00, 0x00, 0xFF, 0x00, 0xFF, 0x00]) (idle [])) (fun t => t.output == .verdict false) = true := by
  decide +kernel

/-- R71's instances of section 3.3. -/
theorem test_headerOk_zero_len :
    got (exec (.headerOk [0x00, 0x00, 0xFF, 0x00, 0x00, 0xD4, 0x2C, 0x00]) (idle []))
      (fun t => t.output == .verdict false) = true ∧
    got (exec (.headerOk [0x00, 0x00, 0xFF, 0x0C, 0xF4, 0xD5, 0x4B, 0x01]) (idle []))
      (fun t => t.output == .verdict true) = true := by decide +kernel

/-! ## Frames, link transactions and the status byte alone (log 12, 13) -/

theorem test_nif_E7 :
    got (exec (.nif [0x00, 0x00, 0xFF, 0x02, 0xFE, 0x00, 0x00, 0x00, 0x00]) (idle []))
      (fun t => t.output == .verdict true && t.lcsOk && t.dcsOk) = true := by decide +kernel

theorem test_nifH2C_is_written :
    got (exec (.nifH2C f9) (idle (oks (echo 9))))
      (fun t => t.link.trace == [.sel, .sleep 5] ++ f9.map (fun b => .x b 0xEE) ++ [.rel]) = true := by decide +kernel

theorem test_nifC2H_V16 :
    got (exec (.nifC2H [0x00, 0x00, 0xFF, 0x03, 0xFD, 0xD5, 0x41, 0x00, 0xEA, 0x00]) (idle []))
      (fun t => t.output == .accept 0xD5 [0x41, 0x00]) = true := by decide +kernel

/-- The verdicts of R49 and R50, ACKBUF and ACK_OK left to `issue` (R19). -/
theorem test_ack_and_nack_frames :
    got (exec .ackFrame (idle [])) (fun t => t == { idle [] with output := .verdict true }) = true ∧
    got (exec .nackFrame { idle [] with ackOk := true, ackbuf := Config.ackFrame })
      (fun t => t.output == .verdict false && t.ackOk && t.ackbuf == Config.ackFrame) = true := by decide +kernel

/-- The prefix byte of R52. -/
theorem test_writeTxn_prefix :
    got (exec (.writeTxn [0x11]) { idle (oks (echo 2)) with cfg := { Cfg.atReset with writePrime := some 0x01 } })
      (fun t => t.link.trace == [.sel, .sleep 5, .x 0x01 0xEE, .x 0x11 0xEE, .rel]) = true := by decide +kernel

theorem test_readTxn_events :
    got (exec (.readTxn 2) (idle (oks [0xEE, 0x11, 0x22])))
      (fun t => t.link.trace == [.sel, .sleep 5, .x 0x03 0xEE, .x 0x00 0x11, .x 0x00 0x22, .rel] &&
        t.output == .data [0x11, 0x22]) = true := by decide +kernel

theorem test_statusTxn_has_no_settle :
    got (exec .statusTxn (idle (oks [0xEE, 0x80])))
      (fun t => t.link.trace == [.sel, .x 0x02 0xEE, .x 0x00 0x80, .rel] && t.output == .data [0x80]) = true := by
  decide +kernel

/-- R55's instances; STATUS and READY are as before (R18). -/
theorem test_statusByte_bit_zero :
    got (exec (.statusByte 0x81) (idle [])) (fun t => t == { idle [] with output := .verdict true }) = true ∧
    got (exec (.statusByte 0xFE) (idle [])) (fun t => t == { idle [] with output := .verdict false }) = true := by
  decide +kernel

/-! ## Transport session (vectors T1 to T20) -/

theorem test_writeFrame_T2 :
    got (exec (.writeFrame f9) (idle [.ok 0xEE, .ok 0xEE, .fail]))
      (fun t => t.result == .transportError && t.link.ts == .idle && t.link.sel == .released &&
        t.link.trace == [.sel, .sleep 5, .x 0x00 0xEE, .x 0x00 0xEE, .xfail 0xFF, .rel]) = true := by decide +kernel

theorem test_writeFrame_T4 :
    got (exec (.writeFrame []) (idle []))
      (fun t => t.result == .ok && t.link.trace == [.sel, .sleep 5, .rel]) = true := by decide +kernel

theorem test_beginRead_T7 :
    got (exec (.beginRead 2) (idle (oks [0xEE, 0x00, 0x00])))
      (fun t => t.output == .data [0x00, 0x00] && t.link.ts == .streaming && t.link.sel == .asserted &&
        t.link.trace == [.sel, .sleep 5, .x 0x03 0xEE, .x 0x00 0x00, .x 0x00 0x00]) = true := by decide +kernel

theorem test_beginRead_T19 :
    got (exec (.beginRead 2) (idle [.fail]))
      (fun t => t.result == .transportError && t.link.ts == .idle &&
        t.link.trace == [.sel, .sleep 5, .xfail 0x03, .rel]) = true := by decide +kernel

theorem test_continueRead_T8 :
    got (exec (.continueRead 3) (streaming (oks [0xFF, 0x0C, 0xF4])))
      (fun t => t.output == .data [0xFF, 0x0C, 0xF4] && t.link.ts == .streaming &&
        t.link.trace.drop 5 == [.x 0x00 0xFF, .x 0x00 0x0C, .x 0x00 0xF4]) = true := by decide +kernel

theorem test_continueRead_T15 :
    got (exec (.continueRead 4) (idle []))
      (fun t => t == { idle [] with result := .seqFault, seqFaulted := true }) = true := by decide +kernel

theorem test_endRead_T9 :
    got (exec .endRead (streaming []))
      (fun t => t.link.ts == .idle && t.link.sel == .released && t.link.trace.drop 5 == [.rel]) = true := by decide +kernel

theorem test_endRead_T10 :
    got (exec .endRead (idle [])) (fun t => t.link == (idle []).link && t.result == .ok) = true := by decide +kernel

theorem test_readAll_T14 :
    got (exec (.readAll 6) (idle (oks (0xEE :: Config.ackFrame))))
      (fun t => t.output == .data [0x00, 0x00, 0xFF, 0x00, 0xFF, 0x00] && t.link.ts == .idle) = true := by decide +kernel

theorem test_readAll_T20 :
    got (exec (.readAll 3) (idle [.ok 0xEE, .ok 0x09, .fail]))
      (fun t => t.result == .transportError &&
        t.link.trace == [.sel, .sleep 5, .x 0x03 0xEE, .x 0x00 0x09, .xfail 0x00, .rel]) = true := by decide +kernel

/-! ## Command channel (vectors Q1 to RR5) -/

theorem test_pollReady_Q11 :
    got (exec (.pollReady none none) { idle (List.replicate 182 (.ok 0x00)) with cfg := { Cfg.atReset with tProbe := 1 } })
      (fun t => t.result == .timeoutError && t.poll.probes == 91 && t.poll.elapsed == 991 &&
        t.link.trace.countP (· == .sleep 10) == 90) = true := by decide +kernel

theorem test_pollReady_Q17 :
    got (exec (.pollReady none none) (idle [.ok 0xEE, .ok 0x00, .ok 0xEE, .fail]))
      (fun t => t.result == .transportError && t.poll.probes == 1 && t.poll.elapsed == 10 && !t.poll.ready &&
        t.link.trace == [.sel, .x 0x02 0xEE, .x 0x00 0x00, .rel, .sleep 10, .sel, .x 0x02 0xEE, .xfail 0x00, .rel]) =
      true := by decide +kernel

theorem test_probe_counts :
    got (exec .probe (idle (oks [0xEE, 0x01])))
      (fun t => t.poll == { elapsed := 0, probes := 1, status := 0x01, ready := true }) = true := by decide +kernel

/-- The trace of vector I1: the write, two probes with a sleep between, the ACK read. -/
def traceI1 : List Event :=
  List.flatten [[.sel, .sleep 5], f9.map (Event.x · 0xEE), [.rel, .sel, .x 0x02 0xEE, .x 0x00 0x00, .rel, .sleep 10],
    [.sel, .x 0x02 0xEE, .x 0x00 0x01, .rel, .sel, .sleep 5, .x 0x03 0xEE], Config.ackFrame.map (.x 0x00), [.rel]]

/-- I1: the registers and the trace of a handshake with one wait. -/
theorem test_issue_I1 :
    got (exec (.issue none [0x02]) (idle (oks (echo 9) ++ oks [0xEE, 0x00, 0xEE, 0x01] ++ oks (0xEE :: Config.ackFrame))))
      (fun t => t.result == .ok && t.cc == .acked && t.tx.len == 9 && t.ackOk && t.ackbuf == Config.ackFrame &&
        t.poll == { elapsed := 10, probes := 2, status := 0x01, ready := true } &&
        t.link.trace == traceI1) = true := by decide +kernel

/-- I10: the ACK read fails; ACKBUF is not written. -/
theorem test_issue_I10 :
    got (exec (.issue none [0x02]) { idle (oks (echo 9) ++ [.ok 0xEE, .ok 0x01, .ok 0xEE, .ok 0x00, .ok 0x00, .fail])
        with ackbuf := [1, 2, 3, 4, 5, 6] })
      (fun t => t.result == .transportError && t.cc == .failed && t.ackbuf == [1, 2, 3, 4, 5, 6] && !t.ackOk &&
        t.link.ts == .idle) = true := by decide +kernel

theorem test_readResponse_RR5 :
    got (exec (.readResponse 2 true true) (streaming []))
      (fun t => t.result == .seqFault && t.link == (streaming []).link) = true := by decide +kernel

theorem test_readResponseFull_RR2 :
    got (exec (.readResponseFull 2) (idle (oks [0xEE, 0x96, 0x00])))
      (fun t => t.output == .data [0x96, 0x00] && t.link.ts == .idle) = true := by decide +kernel

theorem test_readResponseOpen_RR1 :
    got (exec (.readResponseOpen 2) (idle (oks [0xEE, 0x4B, 0x01])))
      (fun t => t.output == .data [0x4B, 0x01] && t.link.ts == .streaming && t.link.sel == .asserted) = true := by
  decide +kernel

theorem test_readResponseContinue_RR1 :
    got (exec (.readResponseContinue 2) (streaming (oks [0x01, 0x00])))
      (fun t => t.output == .data [0x01, 0x00] && t.link.ts == .streaming) = true := by decide +kernel

theorem test_readResponseClose_RR4 :
    got (exec (.readResponseClose 0) (streaming []))
      (fun t => t.output == .data [] && t.link.ts == .idle && t.link.trace.drop 5 == [.rel]) = true := by decide +kernel

/-! ## Reset and reserved words (R59, R161) -/

theorem test_initialize_defaults :
    got (exec (.initializeBlock { maxPd := some 8, bitOrder := some .lsbFirst }) (streaming []))
      (fun t => t.cfg.maxPd == 8 && t.cfg.txCap == 16 && t.cfg.tSettle == 5 && t.cfg.bitOrder == .lsbFirst &&
        t.link.ts == .idle && t.link.trace.drop 5 == [.rel] && t.cc == .idle && t.tx.len == 0) = true := by decide +kernel

theorem test_reserved_words :
    [Instr.reservedB 0, .reservedC 1, .reservedD 2, .reservedE 15].all (fun i =>
      got (exec i (streaming [])) fun t => t == { streaming [] with result := .seqFault, seqFaulted := true }) = true := by
  decide +kernel

/-- R59: the reserved words that have no row. -/
theorem test_reserved_bits_step :
    got (step { idle [] with requests := [⟨.opw, [0x04], {}⟩] })
      (fun t => t.result == .seqFault && t.requests == []) = true := by decide +kernel

/-- A configuration outside R6 stops nothing: every other field is stored, every register reset (R161, log 28). -/
theorem test_initialize_out_of_range :
    got (exec (.initializeBlock { maxPd := some 255, txCap := some 16, defaultInterval := some 0, tSettle := some 7 })
      { streaming [] with cc := .failed })
      (fun t => t.cfg.txCap == 16 && t.cfg.tSettle == 7 && t.cfg.readyValue && t.cc == .idle && t.link.ts == .idle &&
        t.result == .ok) = true := by decide +kernel

/-! ## Consumer sequences (scenarios A to D, vectors D1 to M11) -/

def scenarioA : List Byte :=
  [0x00, 0x00, 0xFF, 0x0C, 0xF4, 0xD5, 0x4B, 0x01, 0x01, 0x00, 0x04, 0x08, 0x04, 0xDE, 0xAD, 0xBE, 0xEF]

def scenarioB : List Byte :=
  [0x00, 0x00, 0xFF, 0x0F, 0xF1, 0xD5, 0x4B, 0x01, 0x01, 0x00, 0x04, 0x20, 0x04, 0xDE, 0xAD, 0xBE, 0xEF, 0x02, 0x75, 0x77]

theorem test_detect_scenario_A :
    got (exec .detect (idle (acked 11 ++ oks (0xEE :: scenarioA))))
      (fun t => t.output == .tag
        { logical := 1, atqa := [0x00, 0x04], sak := 0x08, uid := [0xDE, 0xAD, 0xBE, 0xEF], ats := none } &&
        t.link.ts == .idle && t.link.answers == [] && t.tx.contents == v1 && !t.lcsOk && t.cc == .acked) = true := by
  decide +kernel

theorem test_detect_scenario_B :
    got (exec .detect (idle (acked 11 ++ oks (0xEE :: scenarioB))))
      (fun t => t.output == .tag
        { logical := 1, atqa := [0x00, 0x04], sak := 0x20, uid := [0xDE, 0xAD, 0xBE, 0xEF], ats := some [0x75, 0x77] } &&
        t.link.ts == .idle) = true := by decide +kernel

theorem test_bind_scenario_A :
    got (exec (.bind { logical := 1, uid := [0xDE, 0xAD, 0xBE, 0xEF] }) (idle []))
      (fun t => t.session == { logical := 1, uid := [0xDE, 0xAD, 0xBE, 0xEF] } && t.link == (idle []).link) = true := by
  decide +kernel

/-- A session bound to scenario A's card. -/
def bound (answers : List Answer) : State :=
  { idle answers with session := { logical := 1, uid := [0xDE, 0xAD, 0xBE, 0xEF] } }

/-- M2: key B, and the command frame sent. -/
theorem test_authenticate_M2 :
    got (exec (.authenticate none .b 2 (List.replicate 6 0xFF))
        (bound (acked 22 ++ oks [0xEE, 0x00, 0x00, 0xFF, 0x03, 0xFD, 0xD5, 0x41, 0x00, 0xEA, 0x00])))
      (fun t => t.output == .card [] && t.lcsOk && t.dcsOk &&
        t.tx.contents == [0x00, 0x00, 0xFF, 0x0F, 0xF1, 0xD4, 0x40, 0x01, 0x61, 0x02, 0xFF, 0xFF, 0xFF, 0xFF, 0xFF, 0xFF,
          0xDE, 0xAD, 0xBE, 0xEF, 0x56, 0x00]) = true := by decide +kernel

/-- M3: a status byte that is not 0. -/
theorem test_authenticate_M3 :
    got (exec (.authenticate (some (1, [0xDE, 0xAD, 0xBE, 0xEF])) .a 2 (List.replicate 6 0xFF))
        (idle (acked 22 ++ oks [0xEE, 0x00, 0x00, 0xFF, 0x03, 0xFD, 0xD5, 0x41, 0x14, 0xD6, 0x00])))
      (fun t => t.output == .cardErr (.badStatus 0x14) && t.result == .ok) = true := by decide +kernel

/-- Scenario D: the 16 data bytes in order. -/
theorem test_readBlock_M7 :
    got (exec (.readBlock none 2)
        (bound (acked 12 ++ oks ([0xEE, 0x00, 0x00, 0xFF, 0x13, 0xED, 0xD5, 0x41, 0x00] ++
          [0, 1, 2, 3, 4, 5, 6, 7, 8, 9, 10, 11, 12, 13, 14, 15] ++ [0x72, 0x00]))))
      (fun t => t.output == .card [0, 1, 2, 3, 4, 5, 6, 7, 8, 9, 10, 11, 12, 13, 14, 15] &&
        t.tx.contents == [0x00, 0x00, 0xFF, 0x05, 0xFB, 0xD4, 0x40, 0x01, 0x30, 0x02, 0xB9, 0x00]) = true := by
  decide +kernel

/-- M9: an error answer shorter than the 26 bytes read. -/
theorem test_readBlock_M9 :
    got (exec (.readBlock none 2)
        (bound (acked 12 ++ oks (0xEE :: [0x00, 0x00, 0xFF, 0x03, 0xFD, 0xD5, 0x41, 0x14, 0xD6, 0x00] ++ List.replicate 16 0))))
      (fun t => t.output == .cardErr .malformed) = true := by decide +kernel

theorem test_writeBlock_M10 :
    got (exec (.writeBlock none 2 [0, 1, 2, 3, 4, 5, 6, 7, 8, 9, 10, 11, 12, 13, 14, 15])
        (bound (acked 28 ++ oks [0xEE, 0x00, 0x00, 0xFF, 0x03, 0xFD, 0xD5, 0x41, 0x00, 0xEA, 0x00])))
      (fun t => t.output == .card [] && t.tx.len == 28 && byteAt t.tx.contents 26 == 0xD1) = true := by decide +kernel

/-! ## Witnesses: for every obligation with hypotheses, states and operands that meet them together, per clause -/

theorem of_got_got {o : StepOutcome} {g : State → StepOutcome} {p q : State → Bool}
    (h : got o (fun u => p u && got (g u) q) = true) : ∃ u v, o = .next u ∧ p u = true ∧ g u = .next v ∧ q v = true := by
  obtain ⟨u, hu, h⟩ := of_got h
  rw [Bool.and_eq_true] at h
  obtain ⟨v, hv, hq⟩ := of_got h.2
  exact ⟨u, v, hu, h.1, hv, hq⟩

/-- The state with TX_CAP = 16 of section 3.1's last instance. -/
def cap16 : State := { idle [] with cfg := { Cfg.atReset with txCap := 16 } }

theorem idle_legal (a : List Answer) : (idle a).cfg.legal := by
  show Cfg.legal Cfg.atReset
  unfold Cfg.legal
  decide

theorem streaming_legal (a : List Answer) : (streaming a).cfg.legal := idle_legal a

theorem idle_settled (a : List Answer) : (idle a).link.settled := .inl ⟨rfl, rfl⟩

theorem idle_traced (a : List Answer) : (idle a).link.traced := rfl

/-- The largest payload R6 allows, one byte more, and both sides of a small TX_CAP. -/
theorem witness_EncodePutsTheFrameInTxbuf :
    (idle []).tx.mem.wf ∧ cap16.tx.mem.wf ∧
    (254 ≤ (idle []).cfg.maxPd ∧ 254 + 8 ≤ (idle []).cfg.txCap) ∧ 255 > (idle []).cfg.maxPd ∧
    (8 ≤ cap16.cfg.maxPd ∧ 8 + 8 ≤ cap16.cfg.txCap) ∧ 9 + 8 > cap16.cfg.txCap := by decide

theorem witness_EncodedFramesSatisfyTheChecksums :
    (idle []).cfg.legal ∧ ∀ p ∈ [[], List.replicate 254 (0xAA : Byte)],
      p.length ≤ (idle []).cfg.maxPd ∧ p.length + 8 ≤ (idle []).cfg.txCap :=
  ⟨idle_legal [], by decide +kernel⟩

/-- Both clauses, the second on a canonical frame and on one that is not (V1, V14). -/
theorem witness_DecodeUndoesEncode :
    (idle []).cfg.legal ∧ 3 ≤ (idle []).cfg.maxPd ∧ 3 + 8 ≤ (idle []).cfg.txCap ∧
    (∃ u, exec (.decode v1) (idle []) = .next u ∧ (u.output == .accept 0xD4 [0x4A, 0x01, 0x00]) = true) ∧
    (slice v1 0 3 = [0x00, 0x00, 0xFF] ∧ byteAt v1 (v1.length - 1) = 0x00) ∧
    (∃ u, exec (.decode v14) (idle []) = .next u ∧ (u.output == .accept 0xD4 [0x02]) = true) ∧
    ¬ (slice v14 0 3 = [0x00, 0x00, 0xFF] ∧ byteAt v14 (v14.length - 1) = 0x00) :=
  ⟨idle_legal [], by decide, by decide, of_got (by decide +kernel), by decide, of_got (by decide +kernel), by decide⟩

/-- The first and the last checked offset, and the constants beside them. -/
theorem witness_SingleByteMutationIsRejected :
    (∃ u, exec (.validate v1) (idle []) = .next u ∧ (u.output == .verdict true) = true) ∧
    (∀ i ∈ [0, 2, 3, 9, 10], (0xEE : Byte) ≠ byteAt v1 i) ∧
    (3 ≤ 3 ∧ 9 ≤ 5 + (byteAt v1 3).toNat) ∧ 10 = 6 + (byteAt v1 3).toNat :=
  ⟨of_got (by decide +kernel), by decide, by decide, by decide⟩

theorem witness_AckIsNeverAFrame :
    (byteAt [0, 0, 0, 0x00, 0xFF, 0xD4, 0, 0] 3 = 0x00 ∧ byteAt [0, 0, 0, 0x00, 0xFF, 0xD4, 0, 0] 4 = 0xFF) ∧
    (byteAt [0, 0, 0, 0xFF, 0x00, 0xD4, 0, 0] 3 = 0xFF ∧ byteAt [0, 0, 0, 0xFF, 0x00, 0xD4, 0, 0] 4 = 0x00) ∧
    ∃ u, exec (.validate v1) (idle []) = .next u ∧ (u.output == .verdict true) = true :=
  ⟨by decide, by decide, of_got (by decide +kernel)⟩

theorem witness_HeaderTestChecksLenAndLcs : 6 ≤ [0x00, 0x00, 0xFF, 0x00, 0xFF, (0x00 : Byte)].length := by decide

theorem witness_CodecIsPure (i : Instr)
    (h : i ∈ [.encode 0xD4 v1, .validate v1, .decode v1, .isAck v1, .isNack v1, .headerOk v1]) :
    i = .encode 0xD4 v1 ∨ i = .validate v1 ∨ i = .decode v1 ∨ i = .isAck v1 ∨ i = .isNack v1 ∨ i = .headerOk v1 := by
  simpa using h

/-- The clauses: the constants (one with more bytes after it), a NIF header at `LEN = 1`, `LEN = 0` beside it, and the
longest payload. -/
theorem witness_HeadersAreClassified :
    (6 ≤ (Config.ackFrame ++ [0x07]).length ∧ (Config.ackFrame ++ [0x07]).take 6 = [0x00, 0x00, 0xFF, 0x00, 0xFF, 0x00]) ∧
    (6 ≤ Config.nackFrame.length ∧ Config.nackFrame.take 6 = [0x00, 0x00, 0xFF, 0xFF, 0x00, 0x00]) ∧
    (∀ h ∈ [[0x00, 0x00, 0xFF, 0x01, 0xFF, (0xD4 : Byte)], [0x00, 0x00, 0xFF, 0x00, 0x00, 0xD4]],
      6 ≤ h.length ∧ h.take 6 ≠ Config.ackFrame ∧ h.take 6 ≠ Config.nackFrame) ∧
    ((0x01 + 0xFF) % 256 = 0 ∧ 1 ≤ 0x01) ∧ ¬ ((0x00 + 0x00) % 256 = 0 ∧ 1 ≤ 0x00) ∧
    (List.replicate 254 (0xAA : Byte)).length ≤ 254 := by decide +kernel

theorem witness_WireOrderIsTransparent :
    (∀ g, Instr.readAll 2 ≠ .initializeBlock g) ∧
    ∃ t, exec (.readAll 2) (idle (oks [0xEE, 1, 2])) = .next t ∧ (t.result == .ok) = true :=
  ⟨by simp, of_got (by decide +kernel)⟩

theorem witness_LinkPrimitivesMoveThePhases :
    (idle []).link.sel = .released ∧ (streaming []).link.sel = .asserted ∧
    (idle []).link.select.ts = .selected ∧ (streaming []).link.ts = .streaming ∧
    (streaming [.ok 7]).link.answers = .ok 7 :: [] ∧ (streaming [.fail]).link.answers = .fail :: [] ∧
    (streaming []).link.answers = [] := by decide

/-- A write that completes (the empty one too), one that fails at its last byte, one refused. -/
theorem witness_WriteFrameIsOneWriteTransaction :
    (idle []).link.ts = .idle ∧
    ((idle (oks (echo 9))).link.answers = answersOf (echo 9) ++ [] ∧
      (echo 9).length = ((idle []).cfg.writePrime.toList ++ f9).length) ∧
    ((idle []).link.answers = answersOf [] ++ [] ∧ ([] : List Byte).length = ((idle []).cfg.writePrime.toList ++ []).length) ∧
    ((idle []).cfg.writePrime.toList ++ f9 = f9.dropLast ++ 0x00 :: [] ∧
      (idle (oks (echo 8) ++ [.fail])).link.answers = answersOf (echo 8) ++ .fail :: [] ∧
      (echo 8).length = f9.dropLast.length) ∧ (streaming []).link.ts ≠ .idle := by decide

theorem witness_HostFrameIsWritten :
    (idle (oks (echo 9))).link.ts = .idle ∧ (idle (oks (echo 9))).link.answers = answersOf (echo 9) ++ [] ∧
    (echo 9).length = ((idle []).cfg.writePrime.toList ++ f9).length := by decide

theorem witness_BeginReadOpensAStream :
    (idle []).link.ts = .idle ∧ (idle (oks [0xEE])).link.answers = .ok 0xEE :: answersOf [] ++ [] ∧
    (idle (oks [0xEE, 1, 2])).link.answers = .ok 0xEE :: answersOf [1, 2] ++ [] ∧
    (idle [.fail]).link.answers = .fail :: [] ∧
    ((idle [.ok 0xEE, .ok 1, .fail]).link.answers = .ok 0xEE :: answersOf [1] ++ .fail :: [] ∧ [(1 : Byte)].length < 2) ∧
    (streaming []).link.ts ≠ .idle := by decide

theorem witness_ContinueReadExtendsTheStream :
    (streaming []).link.ts = .streaming ∧ (streaming []).link.sel = .asserted ∧
    (streaming []).link.answers = answersOf [] ++ [] ∧ (streaming (oks [1, 2])).link.answers = answersOf [1, 2] ++ [] ∧
    ((streaming [.ok 1, .fail]).link.answers = answersOf [1] ++ .fail :: [] ∧ [(1 : Byte)].length < 2) ∧
    (idle []).link.ts ≠ .streaming := by decide

theorem witness_EndReadIsIdempotent : (streaming []).link.sel = .asserted ∧ (idle []).link.sel = .released := by decide

theorem witness_ReadAllIsOneReadTransaction :
    (idle []).link.ts = .idle ∧ (idle (oks [0xEE])).link.answers = .ok 0xEE :: answersOf [] ++ [] ∧
    (∃ u, exec (.beginRead 2) (idle [.fail]) = .next u ∧ (u.result != .ok) = true) ∧ (streaming []).link.ts ≠ .idle :=
  ⟨by decide, by decide, of_got (by decide +kernel), by decide⟩

/-- Each of the reads, failing; but for READ_TXN, also straight after another failure. -/
theorem witness_FailedReadsReturnFreeValues :
    (idle [.fail]).result ≠ .transportError ∧
    (∀ i ∈ [Instr.beginRead 2, .readAll 2, .readResponse 2 true true],
      got (exec i { idle [.fail] with result := .transportError }) (fun t => t.result == .transportError) = true ∧
        i ≠ .readTxn 2) ∧
    (∀ i ∈ [Instr.beginRead 2, .readAll 2, .readTxn 2, .readResponse 2 true false, modeRow true true 2],
      got (exec i (idle [.fail])) (fun t => t.result == .transportError) = true) ∧
    (∀ i ∈ [Instr.continueRead 1, .readResponse 1 false false, modeRow false true 1],
      got (exec i (streaming [.fail])) (fun t => t.result == .transportError) = true) := by decide +kernel

theorem witness_StreamSplitIsInvisible :
    (∃ u v, exec (.beginRead 1) (idle (oks [0xEE, 1, 2])) = .next u ∧ (u.result == .ok) = true ∧
      exec (.continueRead 1) u = .next v ∧ (v.result == .ok) = true) ∧
    ∃ u v, exec (.continueRead 0) (streaming (oks [1])) = .next u ∧ (u.result == .ok) = true ∧
      exec (.continueRead 1) u = .next v ∧ (v.result == .ok) = true :=
  ⟨of_got_got (by decide +kernel), of_got_got (by decide +kernel)⟩

theorem witness_OnlyAdmittedRequestsRun :
    (idle []).cfg.legal ∧ (streaming []).cfg.legal ∧ (streaming []).link.ts ≠ .idle ∧ (idle []).link.ts = .idle ∧
    (idle []).link.ts ≠ .streaming ∧ (streaming []).link.ts = .streaming ∧ (some 1 : Option Nat) ≠ some 0 ∧
    Instr.readResponseOpen 2 = modeRow true false 2 ∧ Instr.readResponseClose 2 = modeRow false true 2 :=
  ⟨idle_legal [], streaming_legal [], by decide⟩

/-- Answers to `issue(02)`: the frame written, and one ready probe. -/
def ready9 : List Answer := oks (echo 9) ++ oks [0xEE, 0x01]

/-- The expansions' branches: a read that fails and one that does not, and each way `issue` can end (I1, I2, I7 to I11). -/
theorem witness_PseudoOperationsAreTheirExpansions :
    (idle []).link.ts = .idle ∧ (streaming []).link.ts ≠ .idle ∧
    got (exec (.beginRead 1) (idle [.fail])) (fun u => u.result != .ok) = true ∧
    got (exec (.beginRead 1) (idle (oks [0xEE, 1]))) (fun u => u.result == .ok) = true ∧
    got (exec (.continueRead 1) (streaming [.fail])) (fun u => u.result != .ok) = true ∧
    got (exec (.continueRead 1) (streaming (oks [1]))) (fun u => u.result == .ok) = true ∧
    got (exec (.issue none [0x02]) (idle (ready9 ++ oks (0xEE :: Config.ackFrame)))) (fun t => t.result == .ok) = true ∧
    got (exec (.issue none [0x02]) (idle (ready9 ++ oks (0xEE :: Config.nackFrame))))
      (fun t => t.result == .ackMismatch) = true ∧
    got (exec (.issue none [0x02]) (idle (oks (echo 9) ++ List.replicate 202 (.ok 0x00))))
      (fun t => t.result == .timeoutError && t.poll.probes == 101 && t.link.trace.length == 516) = true ∧
    got (exec (.issue none [0x02]) (idle (oks (echo 4) ++ [.fail]))) (fun t => t.result == .transportError) = true ∧
    got (exec (.issue none [0x02]) (idle (oks (echo 9) ++ [.ok 0xEE, .fail]))) (fun t => t.result == .transportError) = true ∧
    got (exec (.issue none [0x02]) (idle (ready9 ++ [.ok 0xEE, .fail]))) (fun t => t.result == .transportError) = true ∧
    got (exec (.issue none (List.replicate 255 0)) (idle [])) (fun t => t.result == .encodeReject) = true := by
  decide +kernel

/-- The four modes, each where it is admitted, with a read that completes, one that fails and, where one is sent, a priming
byte that fails. -/
theorem witness_ReadResponseHasFourModes :
    (∀ st co : Bool,
      let on := fun a : List Answer => if st then idle a else streaming a
      (on []).link.ts = (if st then .idle else .streaming) ∧ (on []).link.sel = (if st then .released else .asserted) ∧
      (on ((if st then [.ok 0xEE] else []) ++ [.ok 1])).link.answers =
        (if st then [.ok 0xEE] else []) ++ answersOf [1] ++ [] ∧
      (on ((if st then [.ok 0xEE] else []) ++ [.fail])).link.answers =
        (if st then [.ok 0xEE] else []) ++ answersOf [] ++ .fail :: [] ∧ ([] : List Byte).length < 1 ∧
      (on [.fail]).link.answers = .fail :: [] ∧ Instr.readResponse 1 st co = .readResponse 1 st co ∧
      (if st then streaming [] else idle []).link.ts ≠ (if st then .idle else .streaming)) ∧
    modeRow true true 1 = .readResponseFull 1 ∧ modeRow true false 1 = .readResponseOpen 1 ∧
    modeRow false false 1 = .readResponseContinue 1 ∧ modeRow false true 1 = .readResponseClose 1 := by decide +kernel

theorem witness_ProbeIsOneStatusTransaction :
    (idle []).cfg.legal ∧ (idle []).link.ts = .idle ∧ (idle (oks [0xEE, 1])).link.answers = .ok 0xEE :: .ok 1 :: [] ∧
    (idle [.fail]).link.answers = .fail :: [] ∧ (idle [.ok 0xEE, .fail]).link.answers = .ok 0xEE :: .fail :: [] :=
  ⟨idle_legal [], by decide⟩

/-- Probes that are not ready. -/
def waits (n : Nat) : List (Byte × Byte) := List.replicate n (0xEE, 0xFE)

theorem waits_not_ready (n : Nat) : ∀ ab ∈ waits n, ab.2.getLsbD 0 = false := by
  intro ab h
  rw [List.eq_of_mem_replicate h]
  decide

/-- At the bound of a timeout of 20 ms, two waits; below it, none; a first and a later probe that fail; a timeout of 0. -/
theorem witness_PollReadyIsABoundedWait :
    (idle []).cfg.legal ∧ (∀ ab ∈ waits 2, ab.2.getLsbD 0 = false) ∧ (idle []).link.ts = .idle ∧
    1 ≤ (some 1 : Option Nat).getD (idle []).cfg.defaultInterval ∧ (waits 2).length = 20 / (10 + (idle []).cfg.tProbe) ∧
    (idle (probeAnswers (waits 2) ++ oks [0xEE, 0xFE])).link.answers =
      probeAnswers (waits 2) ++ .ok 0xEE :: .ok 0xFE :: [] ∧
    ((waits 0).length ≤ 0 / (10 + (idle []).cfg.tProbe) ∧ (0x81 : Byte).getLsbD 0 = true) ∧
    (idle (probeAnswers (waits 2) ++ [.ok 0xEE, .fail])).link.answers =
      probeAnswers (waits 2) ++ (if true then [.ok 0xEE] else []) ++ .fail :: [] ∧
    (idle [.fail]).link.answers = probeAnswers (waits 0) ++ (if false then [.ok 0xEE] else []) ++ .fail :: [] ∧
    got (exec (.pollReady (some 0) none) (idle (oks [0xEE, 0xFE]))) (fun t => t.result == .timeoutError) = true ∧
    (streaming []).link.ts ≠ .idle ∧ (some 0 : Option Nat).getD (idle []).cfg.defaultInterval = 0 :=
  ⟨idle_legal [], waits_not_ready 2, by decide +kernel⟩

/-- A DEFAULT_TIMEOUT of 20 ms, so that two waits reach the bound. -/
def brief (answers : List Answer) : State := { idle answers with cfg := { Cfg.atReset with defaultTimeout := 20 } }

theorem brief_legal (a : List Answer) : (brief a).cfg.legal := by
  show Cfg.legal { Cfg.atReset with defaultTimeout := 20 }
  unfold Cfg.legal
  decide

/-- A handshake for an `n`-byte frame, with `w` waits. -/
def shake (n w : Nat) : Handshake := { written := echo n, waits := waits w, ready := (0xEE, 0x01), prime := 0xEE }

/-- An ACK and a mismatch, after the most waits the timeout allows. -/
theorem witness_IssueCompletesTheHandshake :
    (brief []).cfg.legal ∧ (brief []).tx.mem.wf ∧ (brief []).link.ts = .idle ∧ 1 ≤ (brief []).cfg.maxPd ∧
    1 + 8 ≤ (brief []).cfg.txCap ∧ (shake 9 2).timely (brief []).cfg (buildFrame 0xD4 [0x02]) ∧
    (∀ a ∈ [Config.ackFrame, Config.nackFrame], a.length = 6 ∧
      (brief ((shake 9 2).answers a)).link.answers = (shake 9 2).answers a ++ []) := by
  exact ⟨brief_legal [], by decide, by decide, by decide, by decide,
    ⟨by decide +kernel, waits_not_ready 2, by decide, by decide⟩, by decide +kernel⟩

theorem witness_OversizePayloadsAreRejected :
    (List.replicate 255 (0 : Byte)).length > (idle []).cfg.maxPd ∧
    (List.replicate 9 (0 : Byte)).length + 8 > cap16.cfg.txCap ∧ (idle []).link.ts = .idle ∧ cap16.link.ts = .idle ∧
    (List.replicate 255 (0 : Byte)).length > (streaming []).cfg.maxPd ∧ (streaming []).link.ts ≠ .idle := by
  decide +kernel

theorem witness_IssueLeavesAckedOrFailed :
    (idle []).cfg.legal ∧ (idle []).link.settled ∧ (idle []).link.traced ∧ (idle []).link.ts = .idle :=
  ⟨idle_legal [], idle_settled [], idle_traced [], rfl⟩

theorem witness_SleepsAreBounded :
    (∃ t, exec (.pollReady none none) (idle (oks [0xEE, 0x01])) = .next t ∧ (t.result == .ok) = true) ∧
    (∃ t, exec (.issue none [0x02]) (idle (acked 9)) = .next t ∧ (t.result == .ok) = true) ∧
    (idle []).consumer.respPoll = false ∧
    ∃ t, exec .detect (idle (acked 11 ++ oks (0xEE :: scenarioA))) = .next t ∧ (t.result == .ok) = true :=
  ⟨of_got (by decide +kernel), of_got (by decide +kernel), by decide, of_got (by decide +kernel)⟩

/-- Transactions that complete, ones that fail at their first and at their last exchange, and a state that refuses them. -/
theorem witness_LinkTransactionsAlone :
    (idle []).link.ts = .idle ∧
    ((idle (oks (echo 9))).link.answers = answersOf (echo 9) ++ [] ∧
      (echo 9).length = ((idle []).cfg.writePrime.toList ++ f9).length) ∧
    ((idle []).cfg.writePrime.toList ++ f9 = [] ++ 0x00 :: f9.drop 1 ∧
      (idle [.fail]).link.answers = answersOf [] ++ .fail :: [] ∧ ([] : List Byte).length = ([] : List Byte).length) ∧
    ((idle []).cfg.writePrime.toList ++ f9 = f9.dropLast ++ 0x00 :: [] ∧
      (idle (oks (echo 8) ++ [.fail])).link.answers = answersOf (echo 8) ++ .fail :: [] ∧
      (echo 8).length = f9.dropLast.length) ∧
    (idle (oks [0xEE])).link.answers = .ok 0xEE :: answersOf [] ++ [] ∧ (idle [.fail]).link.answers = .fail :: [] ∧
    ((idle [.ok 0xEE, .ok 1, .fail]).link.answers = .ok 0xEE :: answersOf [1] ++ .fail :: [] ∧ [(1 : Byte)].length < 2) ∧
    (idle (oks [0xEE, 0x01])).link.answers = .ok 0xEE :: .ok 0x01 :: [] ∧
    (idle [.ok 0xEE, .fail]).link.answers = .ok 0xEE :: .fail :: [] ∧ (streaming []).link.ts ≠ .idle := by decide

theorem witness_StatusByteAlone : (idle []).cfg.legal := idle_legal []

/-- A complete record at the ends of R6's ranges. -/
def fullRecord : CfgArg :=
  { bitOrder := some .lsbFirst, readPrime := some 3, statusProbe := some 2, dummy := some 0, maxPd := some 254,
    txCap := some 8, defaultInterval := some 1 }

theorem witness_InitializeResetsTheBlock :
    fullRecord.bitOrder = some .lsbFirst ∧ fullRecord.readPrime = some 3 ∧ fullRecord.statusProbe = some 2 ∧
    fullRecord.dummy = some 0 ∧ fullRecord.maxPd.getD 254 ≤ 254 ∧
    8 ≤ fullRecord.txCap.getD (fullRecord.maxPd.getD 254 + 8) ∧ 1 ≤ fullRecord.defaultInterval.getD 10 := by decide

/-- The clauses' premises, at the same ends. -/
theorem witness_InitializeRunsOnEveryRecord :
    fullRecord.bitOrder = some .lsbFirst ∧ fullRecord.readPrime = some 3 ∧ fullRecord.maxPd.getD 254 ≤ 254 ∧
    (∀ m : Nat, 8 ≤ fullRecord.txCap.getD (m + 8)) ∧ 1 ≤ fullRecord.defaultInterval.getD 10 ∧
    ({} : CfgArg).maxPd.getD 254 ≤ 254 ∧ ¬ ({ maxPd := some 255 } : CfgArg).maxPd.getD 254 ≤ 254 :=
  ⟨rfl, rfl, by decide, fun _ => Nat.le_refl 8, by decide, by decide, by decide⟩

/-- One word for each cause, at the ends of the ranges of R59, and the requests no phase admits. -/
theorem witness_RefusedRequestsChangeNothing :
    (∀ w ∈ [(0xB0 : Byte), 0xEF], w.toNat / 16 ∈ [0xB, 0xC, 0xD, 0xE]) ∧
    (∀ w ∈ [(0x04 : Byte), 0xFC, 0xAC], w.toNat / 4 % 4 ≠ 0) ∧
    (∀ w ∈ [(0x01 : Byte), 0x93, 0xF2], w.toNat % 4 ≠ 0 ∧ w.toNat / 16 ≠ 0xA) ∧
    { idle [] with requests := [⟨.opw, [0xB0], {}⟩] }.requests = ⟨.opw, [0xB0], {}⟩ :: [] ∧
    (streaming []).link.ts ≠ .idle ∧ (idle []).link.ts ≠ .streaming := by decide

/-- A card `detect` reads whole, with a 4-byte and with a 10-byte UID. -/
theorem witness_DetectReadsACardWithoutAts :
    (brief []).cfg.legal ∧ (brief []).tx.mem.wf ∧ (brief []).link.ts = .idle ∧ (brief []).consumer.respPoll = false ∧
    3 ≤ (brief []).cfg.maxPd ∧ 11 ≤ (brief []).cfg.txCap ∧ (shake 11 2).timely (brief []).cfg v1 ∧
    buildFrame 0xD4 [0x4A, 0x01, 0x00] = v1 ∧
    (∀ n ∈ [4, 10],
      let a : List Byte := [0x00, 0x00, 0xFF, 0x0C, 0xF4, 0xD5, 0x4B, 0x01]
      let b : List Byte := [0x01, 0x00, 0x04, 0xDF, BitVec.ofNat 8 n]
      let uid : List Byte := List.replicate n 0x11
      (brief ((shake 11 2).answers Config.ackFrame ++ .ok 0xEE :: answersOf (a ++ b ++ uid))).link.answers =
        (shake 11 2).answers Config.ackFrame ++ .ok 0xEE :: answersOf (a ++ b ++ uid) ++ [] ∧
      a.length = 8 ∧ ((byteAt a 3).toNat + (byteAt a 4).toNat) % 256 = 0 ∧ 1 ≤ (byteAt a 3).toNat ∧ byteAt a 7 ≠ 0 ∧
      b.length = 5 ∧ uid.length = (byteAt b 4).toNat ∧ (uid.length = 4 ∨ uid.length = 7 ∨ uid.length = 10) ∧
      byteAt b 3 &&& 0x20 = 0) := by
  refine ⟨brief_legal [], by decide, by decide, by decide, by decide, by decide,
    ⟨by decide +kernel, waits_not_ready _, by decide, by decide⟩, by decide,
    fun n hn => ⟨(List.append_nil _).symm, ?_⟩⟩
  revert n hn
  decide +kernel

/-- The same with an ATS of no byte and of 255 bytes. -/
theorem witness_DetectReadsACardWithAts :
    (brief []).cfg.legal ∧ (brief []).tx.mem.wf ∧ (brief []).link.ts = .idle ∧ (brief []).consumer.respPoll = false ∧
    3 ≤ (brief []).cfg.maxPd ∧ 11 ≤ (brief []).cfg.txCap ∧ (shake 11 0).timely (brief []).cfg v1 ∧
    buildFrame 0xD4 [0x4A, 0x01, 0x00] = v1 ∧
    (∀ n ∈ [0, 255],
      let a : List Byte := [0x00, 0x00, 0xFF, 0x0C, 0xF4, 0xD5, 0x4B, 0x01]
      let b : List Byte := [0x01, 0x00, 0x04, 0x20, 0x07]
      let uid : List Byte := List.replicate 7 0x11
      let len : Byte := BitVec.ofNat 8 n
      let ats : List Byte := List.replicate n 0x75
      (brief ((shake 11 0).answers Config.ackFrame ++ .ok 0xEE :: answersOf (a ++ b ++ uid ++ [len] ++ ats))).link.answers =
        (shake 11 0).answers Config.ackFrame ++ .ok 0xEE :: answersOf (a ++ b ++ uid ++ [len] ++ ats) ++ [] ∧
      a.length = 8 ∧ ((byteAt a 3).toNat + (byteAt a 4).toNat) % 256 = 0 ∧ 1 ≤ (byteAt a 3).toNat ∧ byteAt a 7 ≠ 0 ∧
      b.length = 5 ∧ uid.length = (byteAt b 4).toNat ∧ (uid.length = 4 ∨ uid.length = 7 ∨ uid.length = 10) ∧
      byteAt b 3 &&& 0x20 ≠ 0 ∧ ats.length = len.toNat) := by
  refine ⟨brief_legal [], by decide, by decide, by decide, by decide, by decide,
    ⟨by decide +kernel, waits_not_ready _, by decide, by decide⟩, by decide,
    fun n hn => ⟨(List.append_nil _).symm, ?_⟩⟩
  revert n hn
  decide +kernel

/-- What `detect` reads of these answers after the ACK. -/
def detects (bs : List Byte) (out : Output) : Bool :=
  got (exec .detect (idle (acked 11 ++ oks (0xEE :: bs)))) fun t => t.output == out && t.link.ts == .idle

/-- The branches of the series: D1, D3, D4, D6, a failing first step (D8), a failing chunk, and RESP_POLL. -/
theorem witness_DetectIsItsSeriesOfOperations :
    detects [0x00, 0x00, 0xFF, 0x03, 0xFD, 0xD5, 0x4B, 0x00] (.detectErr .noTag) = true ∧
    detects [0x00, 0x00, 0xFF, 0x0D, 0xF3, 0xD5, 0x4B, 0x01, 0x01, 0x00, 0x04, 0x08, 0x05] (.detectErr .malformedUid) = true ∧
    detects ([0x00, 0x00, 0xFF, 0x0D, 0xF3, 0xD5, 0x4B, 0x01, 0x01, 0x00, 0x04, 0x28, 0x04] ++
      [0xDE, 0xAD, 0xBE, 0xEF, 0x00]) (.tag
        { logical := 1, atqa := [0x00, 0x04], sak := 0x28, uid := [0xDE, 0xAD, 0xBE, 0xEF], ats := some [] }) = true ∧
    detects [0x00, 0x00, 0xFF, 0x0C, 0xF5, 0xD5, 0x4B, 0x01] (.detectErr .protocol) = true ∧
    got (exec .detect (idle (oks (echo 11) ++ oks [0xEE, 0x01] ++ oks (0xEE :: Config.nackFrame))))
      (fun t => t.output == .detectErr .protocol && t.cc == .failed) = true ∧
    got (exec .detect (idle (acked 11 ++ oks (0xEE :: scenarioA.take 10) ++ [.fail])))
      (fun t => t.output == .detectErr .protocol && t.link.ts == .idle) = true ∧
    got (exec .detect { idle (acked 11 ++ oks [0xEE, 0x01] ++ oks (0xEE :: scenarioA)) with
        consumer := { Consumer.atReset with respPoll := true } }) (fun t => t.result == .ok) = true := by decide +kernel

/-- The premises, and runs that end in a timeout (D7), in another failure and in a record. -/
theorem witness_DetectReleasesAndMapsErrors :
    ((idle []).cfg.legal ∧ (idle []).link.settled ∧ (idle []).link.traced ∧ (idle []).link.ts = .idle) ∧
    got (exec .detect (idle (oks (echo 11) ++ List.replicate 202 (.ok 0x00)))) (fun t => t.result == .timeoutError) = true ∧
    got (exec .detect (idle [.fail])) (fun t => t.result == .transportError) = true ∧
    got (exec .detect (idle (acked 11 ++ oks (0xEE :: scenarioA)))) (fun t => t.result == .ok) = true :=
  ⟨witness_IssueLeavesAckedOrFailed, by decide +kernel, by decide +kernel, by decide +kernel⟩

/-- The three operations with their payloads, and a response of `10 + d` bytes. -/
theorem witness_SessionOperationsExchange :
    let c := (brief []).consumer
    let key : List Byte := List.replicate 6 0xFF
    let data : List Byte := List.replicate 16 0x55
    (brief []).cfg.legal ∧ (brief []).tx.mem.wf ∧ (brief []).link.ts = .idle ∧ c.respPoll = false ∧
    (∀ p ∈ [[c.opcDataExchange, 1, c.mfAuthA, 2] ++ key ++ slice (brief []).session.uid 0 4,
        [c.opcDataExchange, (brief []).session.logical, c.mfRead, 2], [c.opcDataExchange, 1, c.mfWrite, 2] ++ data],
      p.length ≤ (brief []).cfg.maxPd ∧ p.length + 8 ≤ (brief []).cfg.txCap ∧
      (shake (p.length + 8) 2).timely (brief []).cfg (buildFrame 0xD4 p) ∧
      ∀ d ∈ [0, 16],
        (brief ((shake (p.length + 8) 2).answers Config.ackFrame ++
          .ok 0xEE :: answersOf (List.replicate (10 + d) 0x00))).link.answers =
          (shake (p.length + 8) 2).answers Config.ackFrame ++
          .ok 0xEE :: answersOf (List.replicate (10 + d) 0x00) ++ []) := by
  refine ⟨brief_legal [], by decide, by decide, by decide, fun p hp =>
    ⟨?_, ?_, ⟨?_, waits_not_ready 2, (by decide : (0x01 : Byte).getLsbD 0 = true), (by decide : 2 * (10 + 0) ≤ 20)⟩,
      fun _ _ => (List.append_nil _).symm⟩⟩ <;>
  · revert p hp
    decide +kernel

/-- The branches of the series: M4 (malformed), M5 (timeout), M8 (bad status), a failing read, a wait of RESP_POLL. -/
theorem witness_SessionOperationsAreTheirSeries :
    got (exec (.readBlock none 2) (bound (acked 12 ++ oks (0xEE :: List.replicate 26 0))))
      (fun t => t.output == .cardErr .malformed) = true ∧
    got (exec (.readBlock none 2) (bound (oks (echo 12) ++ List.replicate 202 (.ok 0x00))))
      (fun t => t.output == .cardErr (.notAcked .timeoutError)) = true ∧
    got (exec (.readBlock none 2) (bound (acked 12 ++ oks (0xEE :: buildFrame 0xD5 ([0x41, 0x01] ++ List.replicate 16 0)))))
      (fun t => t.output == .cardErr (.badStatus 0x01)) = true ∧
    got (exec (.readBlock none 2) (bound (acked 12 ++ [.fail])))
      (fun t => t.output == .cardErr (.notAcked .transportError)) = true ∧
    got (exec (.authenticate none .a 2 (List.replicate 6 0xFF)) { bound (acked 22 ++ oks [0xEE, 0x01] ++
        oks [0xEE, 0x00, 0x00, 0xFF, 0x03, 0xFD, 0xD5, 0x41, 0x00, 0xEA, 0x00]) with
        consumer := { Consumer.atReset with respPoll := true } }) (fun t => t.output == .card []) = true ∧
    got (exec (.writeBlock none 2 (List.replicate 16 0)) (bound [.fail]))
      (fun t => t.output == .cardErr (.notAcked .transportError)) = true := by decide +kernel

theorem witness_OnlyIssueMovesTheChannel :
    (∃ t, exec (.readAll 1) (idle (oks [0xEE, 1])) = .next t ∧ (t.result == .ok) = true) ∧
    commandOf (idle []) (.readAll 1) = none ∧ resets (.readAll 1) = false :=
  ⟨of_got (by decide +kernel), rfl, rfl⟩

/-- A read, an `issue` that loads its frame, and one that does not: too long, and while a stream is open. -/
theorem witness_OnlyEncodeWritesTxbuf :
    (∃ t, exec (.readAll 1) (idle (oks [0xEE, 1])) = .next t ∧ (t.result == .ok) = true) ∧
    (∀ x p, Instr.readAll 1 ≠ .encode x p) ∧ commandOf (idle []) (.readAll 1) = none ∧ resets (.readAll 1) = false ∧
    (∃ t, exec (.issue none [0x02]) (idle (acked 9)) = .next t ∧ (t.result == .ok) = true) ∧
    commandOf (idle []) (.issue none [0x02]) = some (0xD4, [0x02]) ∧ (idle []).tx.mem.wf ∧ (idle []).link.ts = .idle ∧
    (∃ t, exec (.issue none [0x02]) (streaming []) = .next t ∧ (t.result == .seqFault) = true) ∧
    (streaming []).link.ts ≠ .idle :=
  ⟨of_got (by decide +kernel), by simp, rfl, rfl, of_got (by decide +kernel), rfl, by decide, rfl,
    of_got (by decide +kernel), by decide⟩

theorem witness_VerdictFlagsHaveTheirWriters :
    (∃ t, exec (.encode 0xD4 []) (idle []) = .next t ∧ (t.result == .ok) = true) ∧ resets (.encode 0xD4 []) = false ∧
    judges (.encode 0xD4 []) = false ∧ acks (.encode 0xD4 []) = false :=
  ⟨of_got (by decide +kernel), rfl, rfl, rfl⟩

theorem witness_OnlyProbesWriteThePollRegisters :
    (∃ t, exec .endRead (streaming []) = .next t ∧ (t.result == .ok) = true) ∧ probes .endRead = false ∧
    resets .endRead = false :=
  ⟨of_got (by decide +kernel), rfl, rfl⟩

theorem witness_ConfigurationIsFixed :
    (∃ t, exec .endRead (streaming []) = .next t ∧ (t.result == .ok) = true) ∧ resets .endRead = false ∧
    ∀ r, Instr.endRead ≠ .bind r :=
  ⟨of_got (by decide +kernel), rfl, by simp⟩

theorem witness_OffLinkInstructionsMakeNoEvent :
    (∃ t, exec (.decode v1) (streaming []) = .next t ∧ (t.result == .ok) = true) ∧ offLink (.decode v1) = true :=
  ⟨of_got (by decide +kernel), rfl⟩

/-- A run with a refused request behind it, which now ends or opens a stream; a request refused now, idle or with a stream
left open; and a run unmarked, which ends cleanly or leaves a stream open. -/
theorem witness_MisuseNeverEndsCleanly :
    ((∃ t, exec .endRead { idle [] with seqFaulted := true } = .next t ∧ (t.result == .ok) = true) ∧
      ∃ t, exec (.beginRead 0) { idle [.ok 0] with seqFaulted := true } = .next t ∧ (t.link.ts == .streaming) = true) ∧
    ((∃ t, exec (.continueRead 1) (idle []) = .next t ∧ (t.result == .seqFault) = true) ∧ (idle []).result ≠ .seqFault ∧
      (∃ t, exec (.beginRead 1) (streaming []) = .next t ∧ (t.result == .seqFault && t.link.ts == .streaming) = true) ∧
      (streaming []).result ≠ .seqFault) ∧
    (∃ t, exec .endRead (streaming []) = .next t ∧
      (t.result != .seqFault && t.link.ts == .idle && t.link.sel == .released) = true) ∧
    (∃ t, exec (.continueRead 1) (streaming [.ok 1]) = .next t ∧
      (t.result != .seqFault && t.link.ts == .streaming) = true) ∧
    (streaming []).seqFaulted = false ∧ (streaming [.ok 1]).seqFaulted = false ∧ (streaming []).requests = [] :=
  ⟨⟨of_got (by decide +kernel), of_got (by decide +kernel)⟩,
    ⟨of_got (by decide +kernel), by decide, of_got (by decide +kernel), by decide⟩, of_got (by decide +kernel),
    of_got (by decide +kernel), by decide, by decide, by decide⟩

theorem witness_TraceIsAppendOnly :
    ∃ t, exec .endRead (streaming []) = .next t ∧ (t.link.trace.drop 5 == [.rel]) = true := of_got (by decide +kernel)

/-- The invariant of a state with an open stream and an unfinished list of requests, and a step from it. -/
theorem witness_StepKeepsTheInvariant :
    ({ streaming [.ok 1] with requests := [⟨.opw, [0x50], { len := 1 }⟩] } : State).Inv ∧
    ∃ t, step { streaming [.ok 1] with requests := [⟨.opw, [0x50], { len := 1 }⟩] } = .next t ∧
      (t.output == .data [1]) = true :=
  ⟨{ settled := .inr ⟨rfl, rfl⟩, traced := rfl, channel := .inl rfl,
     tx := ⟨by decide, by simp [streaming, State.reset], by decide⟩,
     ackbuf := rfl, ack := by decide, checks := by decide, failed := by decide, cfg := streaming_legal [], misuse := by decide },
    of_got (by decide +kernel)⟩

theorem witness_StepRunsTheDecodedInstruction :
    (State.reset.withFetchWord 8 0x60).requests = ⟨.opw, [0x60], {}⟩ :: [] ∧ decode ⟨.opw, [0x60], {}⟩ = .ok .endRead ∧
    State.reset.requests = [] := by decide +kernel

/-- One well-formed instruction of every shape of check. -/
theorem witness_DecodeOfEncodeIsTheInstruction :
    ∀ i ∈ [Instr.nif [0x00, 0x00, 0xFF], .nifH2C f9, .nifC2H [0x00, 0x00, 0xFF, 0x01, 0xFF, 0xD5, 0x2B, 0x00],
      .ackFrame, .writeTxn [], .initializeBlock { maxPd := some 255 }, .reservedE 15,
      .bind { uid := List.replicate 10 0 }, .authenticate (some (1, [1, 2, 3, 4])) .b 2 (List.replicate 6 0),
      .authenticate none .a 2 (List.replicate 6 0), .readBlock none 2, .writeBlock (some 1) 2 (List.replicate 16 0)],
      i.wellFormed = true := by decide +kernel

end Sys2Proof.Tests
end

section
/-! SUPPORT. How an operation returns, and what each read row leaves, said once through the link's reply (R20, R44, R150);
and what a refused request leaves (R59, R93, R145). -/

namespace Sys2Proof.Machine

/-- The state an operation that ends with `q` leaves, returning `out`, its operands being `l` (R16, R20, R145). -/
def Reply.after (q : Reply) (out : Output) (l : Latch) : State :=
  ({ q.st with seqFaulted := q.st.seqFaulted || q.res == .seqFault } : State).returned q.res out
    (if q.res == .seqFault then q.st.latch else l)

theorem Reply.next_finishAs_after (q : Reply) (out : Output) (l : Latch) :
    (q.finishAs l).next out = .next (q.after out l) :=
  Reply.next_finishAs l q out

@[simp] theorem Reply.after_result (q : Reply) (out : Output) (l : Latch) : (q.after out l).result = q.res := rfl

/-- The state a read that the link answered with `r` leaves (R13, R44). -/
def State.afterRead (s : State) (r : LinkReply) (l : Latch) : State :=
  (s.onLink r).after (if r.res == .seqFault then .none else .data r.data) l

@[simp] theorem State.afterRead_result (s : State) (r : LinkReply) (l : Latch) : (s.afterRead r l).result = r.res := rfl

theorem Reply.next_readOutput (s : State) (r : LinkReply) (l : Latch) :
    ((s.onLink r).finishAs l).next ((s.onLink r).finishAs l).readOutput = .next (s.afterRead r l) := by
  rw [Reply.next_finishAs_after]
  simp only [Reply.readOutput, Reply.finishAs_res, Reply.finishAs_data]
  rfl

theorem exec_beginRead (len : Nat) (s : State) : exec (.beginRead len) s =
    .next (s.afterRead (beginRead s.cfg len s.link) { op := .beginRead, len := len }) :=
  Reply.next_readOutput s _ _

theorem exec_continueRead (len : Nat) (s : State) : exec (.continueRead len) s =
    .next (s.afterRead (continueRead s.cfg len s.link) { op := .continueRead, len := len }) :=
  Reply.next_readOutput s _ _

theorem exec_readAll (len : Nat) (s : State) : exec (.readAll len) s =
    .next (s.afterRead (readAll s.cfg len s.link) { op := .readAll, len := len }) :=
  Reply.next_readOutput s _ _

/-- `read_response`, called generally or by the row of its mode (R56, R106). -/
theorem exec_readResponse {i : Instr} {len : Nat} {st co : Bool} (s : State)
    (h : i = .readResponse len st co ∨ i = modeRow st co len) : exec i s =
    .next (s.afterRead (readResponse s.cfg len st co s.link)
      { op := .readResponse, len := len, start := st, conclude := co }) := by
  rw [exec_mode i len st co s h]
  exact Reply.next_readOutput s _ _

/-- The state `end_read` leaves (R90). -/
def State.afterEndRead (s : State) : State :=
  ({ s with link := s.link.release } : State).returned .ok .none { op := .endRead }

theorem exec_endRead (s : State) : exec .endRead s = .next s.afterEndRead :=
  congrArg (Reply.next · .none) (Reply.finishAs_ok _ _ _)

/-! ## Refused requests (R59, R93, R145) -/

/-- A refused operation, returning: nothing but RESULT and the mark of R175 (R93, R145). -/
theorem Reply.after_seqFault (s : State) (d : List Byte) (out : Output) (l : Latch) :
    (Reply.mk s .seqFault d).after out l = s.refusal out := by
  simp [Reply.after, State.returned, State.refusal]

theorem refuseRequest_next (s : State) : (refuseRequest s).next .none = .next (s.refusal .none) := by
  simp [refuseRequest, Reply.next, Reply.finish, State.refusal]

theorem State.afterRead_refuse (s : State) (l : Latch) : s.afterRead (s.link.refuse .seqFault) l = s.refusal .none :=
  Reply.after_seqFault s [] .none l

theorem exec_writeFrame_refused (bytes : List Byte) {s : State} (h : s.link.ts ≠ .idle) :
    exec (.writeFrame bytes) s = .next (s.refusal .none) := by
  have hr : writeFrame s.cfg bytes s.link = s.link.refuse .seqFault := if_neg h
  show ((s.onLink (writeFrame s.cfg bytes s.link)).finishAs _).next .none = _
  rw [Reply.next_finishAs_after, hr]
  exact congrArg _ (Reply.after_seqFault s ..)

theorem beginRead_refused (cfg : Cfg) (len : Nat) {l : Link} (h : l.ts ≠ .idle) :
    beginRead cfg len l = l.refuse .seqFault := if_neg h

theorem continueRead_refused (cfg : Cfg) (len : Nat) {l : Link} (h : l.ts ≠ .streaming) :
    continueRead cfg len l = l.refuse .seqFault := if_neg h

/-- There is nothing to conclude after a refusal, so the stream stays as it was (R145). -/
@[simp] theorem closeAfter_refuse (l : Link) : closeAfter (l.refuse .seqFault) = l.refuse .seqFault := rfl

theorem readAll_refused (cfg : Cfg) (len : Nat) {l : Link} (h : l.ts ≠ .idle) :
    readAll cfg len l = l.refuse .seqFault := by
  rw [readAll, beginRead_refused cfg len h, closeAfter_refuse]

theorem readResponse_refused (cfg : Cfg) (len : Nat) (st co : Bool) {l : Link}
    (h : l.ts ≠ if st then .idle else .streaming) : readResponse cfg len st co l = l.refuse .seqFault := by
  cases st
  · simp [readResponse, continueRead_refused cfg len h]
  · simp [readResponse, beginRead_refused cfg len h]

theorem exec_beginRead_refused (len : Nat) {s : State} (h : s.link.ts ≠ .idle) :
    exec (.beginRead len) s = .next (s.refusal .none) := by
  rw [exec_beginRead, beginRead_refused _ _ h, State.afterRead_refuse]

theorem exec_continueRead_refused (len : Nat) {s : State} (h : s.link.ts ≠ .streaming) :
    exec (.continueRead len) s = .next (s.refusal .none) := by
  rw [exec_continueRead, continueRead_refused _ _ h, State.afterRead_refuse]

theorem exec_readAll_refused (len : Nat) {s : State} (h : s.link.ts ≠ .idle) :
    exec (.readAll len) s = .next (s.refusal .none) := by
  rw [exec_readAll, readAll_refused _ _ h, State.afterRead_refuse]

theorem exec_readResponse_refused {i : Instr} {len : Nat} {st co : Bool} {s : State}
    (hi : i = .readResponse len st co ∨ i = modeRow st co len) (h : s.link.ts ≠ if st then .idle else .streaming) :
    exec i s = .next (s.refusal .none) := by
  rw [exec_readResponse s hi, readResponse_refused _ _ _ _ h, State.afterRead_refuse]

theorem exec_issue_refused (tfi : Option Byte) (p : List Byte) {s : State} (h : s.link.ts ≠ .idle) :
    exec (.issue tfi p) s = .next (s.refusal .none) := by
  have hr : issue (tfiOr tfi) p s = ⟨s, .seqFault, []⟩ := if_pos h
  show ((issue (tfiOr tfi) p s).finishAs _).next .none = _
  rw [Reply.next_finishAs_after, hr, Reply.after_seqFault]

/-- `poll_ready` is refused in a stream and with an interval of 0 (R103, R145). -/
theorem exec_pollReady_refused (tmo ivl : Option Nat) {s : State}
    (h : s.link.ts ≠ .idle ∨ ivl.getD s.cfg.defaultInterval < 1) :
    exec (.pollReady tmo ivl) s = .next (s.refusal .none) := by
  have hr : pollReady s.cfg (tmo.getD s.cfg.defaultTimeout) (ivl.getD s.cfg.defaultInterval) s.link s.poll =
      ⟨s.link, s.poll, .seqFault⟩ := if_pos h
  show ((s.onPoll (pollReady s.cfg _ _ s.link s.poll)).finishAs _).next .none = _
  rw [Reply.next_finishAs_after, hr]
  exact congrArg _ (Reply.after_seqFault s ..)

end Sys2Proof.Machine
end

section
/-! The pseudo-operations are their expansions (R61, R101). -/

namespace Sys2Proof.Machine

/-! ## Reads that conclude -/

section
variable {j : Instr} {s : State} {r : LinkReply} {m : Latch}

/-- A read that failed has nothing to conclude: it ends as it does without `end_read` (R61, R91). -/
theorem concludedRead_failed (hj : exec j s = .next (s.afterRead (closeAfter r) m)) (h : r.res ≠ .ok) (l : Latch) :
    ∃ k, exec j s = .next { s.afterRead r l with latch := k } := by
  rw [hj, closeAfter, if_neg h]
  exact ⟨_, rfl⟩

/-- Concluding a read that succeeded is `end_read` after it, the data still being what is returned (R61, R91). -/
theorem concludedRead_ok (hj : exec j s = .next (s.afterRead (closeAfter r) m)) (h : r.res = .ok) (l : Latch) :
    ∃ k, exec j s =
      .next { (s.afterRead r l).afterEndRead with latch := k, output := (s.afterRead r l).output } := by
  refine ⟨m, hj.trans ?_⟩
  simp [closeAfter, State.afterRead, Reply.after, State.afterEndRead, State.returned, h]

end

/-! ## `issue` -/

/-- The state inside an `issue` begun in `s`, where the operations of its expansion have led to `u`: only those have
returned, so RESULT, the returned value and the latch are still those of `s`, and CC is `c` (R20, R100). -/
def State.issuing (u s : State) (c : CC) : State :=
  { u with cc := c, result := s.result, output := s.output, latch := s.latch }

/-- Where an operation of the expansion succeeded, its return leaves no mark inside `issue`. -/
theorem Reply.after_issuing {q : Reply} (h : q.res = .ok) (out : Output) (l : Latch) (s : State) (c : CC) :
    (q.after out l).issuing s c = q.st.issuing s c := by
  simp [Reply.after, State.issuing, State.returned, h]

/-- `issue` ends with `r` as the failure of the operation that led to `u`: CC `Failed`, the same RESULT, and nothing else
of its own (R101). -/
def Reply.FailsAs (r : Reply) (u : State) : Prop :=
  ∀ l : Latch, ∃ k : Latch,
    (r.finishAs l).next .none = .next (({ u with cc := .failed } : State).returned u.result .none k)

/-- One step of `issue`: an operation that ends with `q` fails it, or leads on to `cont` in the state it leaves (R101). -/
theorem issueStep_expands {r q : Reply} {s : State} {c d : CC} {cont : State → Reply} (out : Output) (l : Latch)
    (hr : r = if q.res ≠ .ok then issueFailed q.res (q.st.issuing s c) else cont (q.st.issuing s d)) :
    ((q.after out l).result ≠ .ok → r.FailsAs (q.after out l)) ∧
    ((q.after out l).result = .ok → r = cont ((q.after out l).issuing s d)) := by
  rw [Reply.after_result]
  constructor
  · intro hne m
    rw [hr, if_pos hne]
    exact ⟨_, Reply.next_finishAs m _ .none⟩
  · intro hok
    rw [hr, if_neg (not_not.mpr hok), Reply.after_issuing hok]

/-- `encode` writes the same whether `issue` has moved CC or not (R76). -/
theorem putFrame_issuing (tfi : Byte) (p : List Byte) (s : State) :
    putFrame tfi p { s with cc := .issuing } =
      { putFrame tfi p s with st := (putFrame tfi p s).st.issuing s .issuing } := by
  cases h : fits s.cfg p <;> simp [putFrame, h, State.issuing]

/-- `issue` from idle begins as `encode` (R101). -/
theorem issue_encodes (tfi : Byte) (p : List Byte) {s : State} (hi : s.link.ts = .idle) :
    ∃ u, exec (.encode tfi p) s = .next u ∧ (u.result ≠ .ok → (issue tfi p s).FailsAs u) ∧
      (u.result = .ok → issue tfi p s = issueWrite (u.issuing s .issuing)) := by
  refine ⟨_, Reply.next_finishAs_after (putFrame tfi p s) _ _, issueStep_expands (c := .issuing) _ _ ?_⟩
  simp only [issue, hi, ne_eq, not_true_eq_false, if_false, putFrame_issuing]

/-- After `encode` it goes on as `write_frame` of what TXBUF holds (R101). -/
theorem issueWrite_writes (u s : State) (c : CC) :
    ∃ v, exec (.writeFrame u.tx.contents) u = .next v ∧ (v.result ≠ .ok → (issueWrite (u.issuing s c)).FailsAs v) ∧
      (v.result = .ok → issueWrite (u.issuing s c) = issuePoll (v.issuing s .awaitingReady)) :=
  ⟨_, Reply.next_finishAs_after (u.onLink (writeFrame u.cfg u.tx.contents u.link)) _ _,
    issueStep_expands (c := c) _ _ rfl⟩

/-- After `write_frame` it goes on as `poll_ready` with the defaults (R101). -/
theorem issuePoll_polls (u s : State) (c : CC) :
    ∃ v, exec (.pollReady none none) u = .next v ∧ (v.result ≠ .ok → (issuePoll (u.issuing s c)).FailsAs v) ∧
      (v.result = .ok → issuePoll (u.issuing s c) = issueAck (v.issuing s .awaitingAck)) :=
  ⟨_, Reply.next_finishAs_after (u.onPoll (pollReady u.cfg u.cfg.defaultTimeout u.cfg.defaultInterval u.link u.poll)) _ _,
    issueStep_expands (c := c) _ _ rfl⟩

/-- The comparison that ends `issue`, the 6 bytes read being `a` (R101, R104). -/
def issueCompare (a : List Byte) (s : State) : Reply :=
  if isAck a then ⟨{ latchAck a s with cc := .acked }, .ok, []⟩ else issueFailed .ackMismatch (latchAck a s)

/-- After `poll_ready` it goes on as `read_all(6)`, whose data it compares (R101, R104). -/
theorem issueAck_reads (u s : State) (c : CC) :
    ∃ v, exec (.readAll 6) u = .next v ∧ (v.result ≠ .ok → (issueAck (u.issuing s c)).FailsAs v) ∧
      (v.result = .ok → ∃ a, v.output = .data a ∧ issueAck (u.issuing s c) = issueCompare a (v.issuing s c)) := by
  obtain ⟨hfail, hok⟩ := issueStep_expands (r := issueAck (u.issuing s c))
    (q := u.onLink (readAll u.cfg 6 u.link)) (s := s) (c := c) (d := c)
    (cont := issueCompare (readAll u.cfg 6 u.link).data) _ _ rfl
  refine ⟨_, exec_readAll 6 u, hfail, fun h => ⟨_, if_neg ?_, hok h⟩⟩
  rw [State.afterRead_result] at h
  simp [h]

theorem isAck_iff (b : List Byte) : isAck b = true ↔ b = Config.ackFrame := beq_iff_eq

theorem issueCompare_ack (v s : State) (c : CC) (l : Latch) :
    ((issueCompare Config.ackFrame (v.issuing s c)).finishAs l).next .none =
      .next (({ v with ackbuf := Config.ackFrame, ackOk := true, cc := .acked } : State).returned .ok .none l) := by
  rw [issueCompare, if_pos ((isAck_iff _).mpr rfl), Reply.finishAs_ok]
  rfl

theorem issueCompare_mismatch {a : List Byte} (h : a ≠ Config.ackFrame) (v s : State) (c : CC) (l : Latch) :
    ((issueCompare a (v.issuing s c)).finishAs l).next .none =
      .next (({ v with ackbuf := a, ackOk := false, cc := .failed } : State).returned .ackMismatch .none l) := by
  have ha : isAck a = false := by rw [← Bool.not_eq_true, isAck_iff]; exact h
  rw [issueCompare, ha, Reply.next_finishAs]
  simp [issueFailed, latchAck, ha, State.issuing, State.returned]

/-! ## The statement -/

/-- Settles O24: the reads by what `closeAfter` adds to a read, `issue` operation by operation. -/
theorem pseudoOperationsAreTheirExpansions : Obligations.PseudoOperationsAreTheirExpansions := by
  refine ⟨fun len s => ?_, fun len s => ?_, fun tfi p s h => ⟨_, exec_issue_refused tfi p h⟩, fun tfi p s hi => ?_⟩
  · have hall := exec_readAll len s
    have hfull := exec_readResponse s (.inr (rfl : modeRow true true len = _))
    exact ⟨_, exec_beginRead len s, ⟨_, exec_readResponse s (.inr rfl)⟩,
      fun h => ⟨concludedRead_failed hall h _, concludedRead_failed hfull h _⟩,
      fun h => ⟨_, exec_endRead _, concludedRead_ok hall h _, concludedRead_ok hfull h _⟩⟩
  · have hclose := exec_readResponse s (.inr (rfl : modeRow false true len = _))
    exact ⟨_, exec_continueRead len s, ⟨_, exec_readResponse s (.inr rfl)⟩,
      fun h => concludedRead_failed hclose h _, fun h => ⟨_, exec_endRead _, concludedRead_ok hclose h _⟩⟩
  · intro failsAs
    have fails : ∀ u, (issue (tfiOr tfi) p s).FailsAs u → failsAs u := fun u h => h _
    obtain ⟨s1, e1, f1, n1⟩ := issue_encodes (tfiOr tfi) p hi
    refine ⟨s1, e1, fun h => fails _ (f1 h), fun h1 => ?_⟩
    obtain ⟨s2, e2, f2, n2⟩ := issueWrite_writes s1 s .issuing
    rw [← n1 h1] at f2 n2
    refine ⟨s2, e2, fun h => fails _ (f2 h), fun h2 => ?_⟩
    obtain ⟨s3, e3, f3, n3⟩ := issuePoll_polls s2 s .awaitingReady
    rw [← n2 h2] at f3 n3
    refine ⟨s3, e3, fun h => fails _ (f3 h), fun h3 => ?_⟩
    obtain ⟨s4, e4, f4, n4⟩ := issueAck_reads s3 s .awaitingAck
    rw [← n3 h3] at f4 n4
    refine ⟨s4, e4, fun h => fails _ (f4 h), fun h4 => ?_⟩
    obtain ⟨a, ha, n5⟩ := n4 h4
    have hx : exec (.issue tfi p) s = (Reply.finishAs _ (issue (tfiOr tfi) p s)).next .none := rfl
    rw [hx, n5]
    refine ⟨a, _, ha, ?_, fun hne => issueCompare_mismatch hne ..⟩
    rintro rfl
    exact issueCompare_ack ..

end Sys2Proof.Machine
end

section
/-! Every cause of a `SeqFault`, and that it changes nothing but RESULT (R59, R145). -/

namespace Sys2Proof

/-- The rows of the reserved operation codes (R59). -/
def OpwKind.reserved : OpwKind → Bool
  | .reservedB | .reservedC | .reservedD | .reservedE => true
  | _ => false

theorem OpwKind.reserved_iff (k : OpwKind) :
    k.reserved = true ↔ k = .reservedB ∨ k = .reservedC ∨ k = .reservedD ∨ k = .reservedE := by
  cases k <;> simp [OpwKind.reserved]

/-- The request words R59 refuses: a reserved code, non-zero OPW[3:2], or mode bits on an operation but `read_response`. -/
def refusedWord (w : Byte) : Prop :=
  w.toNat / 16 ∈ [0xB, 0xC, 0xD, 0xE] ∨ w.toNat / 4 % 4 ≠ 0 ∨ (w.toNat % 4 ≠ 0 ∧ w.toNat / 16 ≠ 0xA)

/-- A row that is not reserved stands for one word, and not for one that R59 refuses. -/
theorem opwTable_unreserved : ∀ r ∈ opwTable, r.kind.reserved = true ∨ r.mask = 0xFF ∧ ¬ refusedWord r.pattern := by
  unfold refusedWord
  decide

/-- So a word that R59 refuses is of a reserved row, or of none. -/
theorem opwRow?_refused {w : Byte} (hw : refusedWord w) {r : OpwRow} (hr : opwRow? w = some r) :
    r.kind.reserved = true := by
  have hcov : r.covers w = true := List.find?_some (p := fun q : OpwRow => q.covers w) hr
  have hc : w &&& r.mask = r.pattern := beq_iff_eq.mp hcov
  rcases opwTable_unreserved r (List.mem_of_find?_eq_some hr) with h | ⟨hm, hp⟩
  · exact h
  · rw [← hc, hm, show (0xFF : Byte) = BitVec.allOnes 8 from rfl, BitVec.and_allOnes] at hp
    exact absurd hw hp

end Sys2Proof

namespace Sys2Proof.Machine

theorem reserved_wellFormed {k : OpwKind} (h : k.reserved = true) (w : Byte) (a : Args) :
    (k.instr w a).wellFormed = true := by
  rcases (OpwKind.reserved_iff k).mp h with rfl | rfl | rfl | rfl <;> rfl

theorem exec_reserved {k : OpwKind} (h : k.reserved = true) (w : Byte) (a : Args) (s : State) :
    exec (k.instr w a) s = .next (s.refusal .none) := by
  rcases (OpwKind.reserved_iff k).mp h with rfl | rfl | rfl | rfl <;> exact refuseRequest_next s

/-- The block refuses the word, whether its row is a reserved one or it has none (R59). -/
theorem serve_refusedWord {w : Byte} (hw : refusedWord w) (a : Args) (s : State) :
    State.serve ⟨.opw, [w], a⟩ s = .next (s.refusal .none) := by
  have hshape : decodeShape ⟨.opw, [w], a⟩ = decodeOpw w a := rfl
  rw [State.serve]
  cases hr : opwRow? w with
  | none =>
    have hd : decode ⟨.opw, [w], a⟩ = .error (.reservedBits w) := by
      simp [decode, hshape, decodeOpw, hr]
    rw [hd]
    exact refuseRequest_next s
  | some r =>
    have hk := opwRow?_refused hw hr
    have hd : decode ⟨.opw, [w], a⟩ = .ok (r.kind.instr w a) :=
      decode_of_shape (by simp [hshape, decodeOpw, hr]) (reserved_wellFormed hk w a)
    rw [hd]
    exact exec_reserved hk w a s

/-- Settles O35: the refused words by the table's rows, the requests of each phase by the operations' own tests. -/
theorem refusedRequestsChangeNothing : Obligations.RefusedRequestsChangeNothing := by
  refine ⟨fun w a rest s hs hw => ⟨.none, ?_⟩, fun low i s hi => ⟨.none, ?_⟩,
    fun i len bytes tfi tmo ivl co s h => ⟨.none, ?_⟩⟩
  · rw [step, hs]
    exact serve_refusedWord hw a _
  · rcases hi with rfl | rfl | rfl | rfl <;> exact refuseRequest_next s
  · rcases h with ⟨hts, rfl | rfl | rfl | rfl | rfl | hi⟩ | ⟨hts, rfl | hi⟩ | rfl
    · exact exec_writeFrame_refused bytes hts
    · exact exec_beginRead_refused len hts
    · exact exec_readAll_refused len hts
    · exact exec_issue_refused tfi bytes hts
    · exact exec_pollReady_refused tmo ivl (.inl hts)
    · exact exec_readResponse_refused hi hts
    · exact exec_continueRead_refused len hts
    · exact exec_readResponse_refused hi hts
    · exact exec_pollReady_refused tmo (some 0) (.inr Nat.zero_lt_one)

end Sys2Proof.Machine
end

section
/-! One status transaction run alone (R54, R102). -/

namespace Sys2Proof.Machine

/-- A link row from idle that completes returns no result of its own (log 13). -/
theorem State.whenIdle_ok {s : State} (hi : s.link.ts = .idle) {r : Reply} (h : r.res = .ok) : s.whenIdle r = r := by
  rw [State.whenIdle, if_pos hi, Reply.bare, if_pos h]

theorem State.whenIdle_failed {s : State} (hi : s.link.ts = .idle) {r : Reply} (h : r.res ≠ .ok) :
    s.whenIdle r = r.finish := by
  rw [State.whenIdle, if_pos hi, Reply.bare, if_neg h]

theorem probe_fail {cfg : Cfg} {l l' : Link} (p : Poll) (h : statusTxn cfg l = (none, l')) :
    probe cfg l p = (false, l', p) := by
  rw [probe, h]

/-- A probe run alone that completes: the link and the poll registers, and nothing else but what is returned (R102). -/
theorem exec_probe_ok {s : State} {l : Link} {p : Poll} (hi : s.link.ts = .idle)
    (h : probe s.cfg s.link s.poll = (true, l, p)) :
    exec .probe s = .next { s with link := l, poll := p, output := .none } := by
  show (opProbe s).next .none = _
  rw [opProbe, h, State.whenIdle_ok hi rfl]
  rfl

/-- A probe run alone that fails: the link, and `TransportError` (R102, R146). -/
theorem exec_probe_fail {s : State} {l : Link} (hi : s.link.ts = .idle) (h : statusTxn s.cfg s.link = (none, l)) :
    exec .probe s = .next { s with link := l, result := .transportError, output := .none } := by
  show (opProbe s).next .none = _
  rw [opProbe, probe_fail s.poll h, State.whenIdle_failed hi (by simp [State.onPoll])]
  simp [Reply.next, Reply.finish, State.onPoll]

/-- Settles O26, by the three ways a status transaction can go. -/
theorem probeIsOneStatusTransaction : Obligations.ProbeIsOneStatusTransaction := by
  intro s rest hleg hi
  refine ⟨fun a b ha => ⟨s.result, 0, .none, ?_⟩, fun ha => ⟨2, .none, ?_⟩, fun a ha => ⟨1, .none, ?_⟩⟩
  · rw [exec_probe_ok hi (probe_ok s.cfg a b rest s.link s.poll ha), ← readyOf_legal hleg]
    rfl
  · exact exec_probe_fail hi (statusTxn_failFirst s.cfg rest s.link ha)
  · exact exec_probe_fail hi (statusTxn_failSecond s.cfg a rest s.link ha)

end Sys2Proof.Machine
end

section
/-! The classes of a header (R51). -/

namespace Sys2Proof.Machine

theorem byteAt_take {r : List Byte} {i n : Nat} (h : i < n) : byteAt (r.take n) i = byteAt r i := by
  simp [byteAt, List.getD, h]

/-- The header test, in the words of R51. -/
theorem headerGood_iff (len c : Byte) :
    (lcsOk len c && decide (1 ≤ len.toNat)) = true ↔ (len.toNat + c.toNat) % 256 = 0 ∧ 1 ≤ len.toNat := by
  simp [lcsOk]

/-- R51's three tests in order, of at least 6 bytes received. -/
theorem classify_eq {r : List Byte} (h6 : 6 ≤ r.length) : classify r =
    if r.take 6 = Config.ackFrame then .ack
    else if r.take 6 = Config.nackFrame then .nack
    else if ((byteAt r 3).toNat + (byteAt r 4).toNat) % 256 = 0 ∧ 1 ≤ (byteAt r 3).toNat then
      .nif (byteAt r 5) ((byteAt r 3).toNat + 1)
    else .malformed := by
  have hlen : ¬ (r.take 6).length < 6 := by simp; omega
  simp only [classify, if_neg hlen, byteAt_take (show 3 < 6 by decide), byteAt_take (show 4 < 6 by decide),
    byteAt_take (show 5 < 6 by decide), headerGood_iff]

/-- LEN and LCS of a built frame sum to 0, those of the two fixed frames do not, so it is neither (R49, R50, R51). -/
theorem classify_buildFrame (t : Byte) (p : List Byte) (hp : p.length ≤ 254) :
    classify (buildFrame t p) = .nif t (p.length + 2) := by
  have hlen := buildFrame_len t p hp
  have hgood : ((byteAt (buildFrame t p) 3).toNat + (byteAt (buildFrame t p) 4).toNat) % 256 = 0 := by
    rw [buildFrame_lcs]
    exact neg8_cancels _
  have hfixed : ∀ f : List Byte, ((byteAt f 3).toNat + (byteAt f 4).toNat) % 256 ≠ 0 → (buildFrame t p).take 6 ≠ f := by
    rintro f hf rfl
    exact hf (by rwa [byteAt_take (by decide), byteAt_take (by decide)])
  rw [classify_eq (by simp), if_neg (hfixed _ (by decide)), if_neg (hfixed _ (by decide)),
    if_pos ⟨hgood, by omega⟩, buildFrame_tfi, hlen]

/-- Settles O11, by R51's tests in order. -/
theorem headersAreClassified : Obligations.HeadersAreClassified := by
  refine ⟨fun r h6 => ?_, classify_buildFrame⟩
  rw [classify_eq h6]
  refine ⟨fun ha => if_pos ha, fun hn => ?_, fun ha hn => ⟨fun hg => ?_, fun hb => ?_⟩⟩
  · have hn : r.take 6 = Config.nackFrame := hn
    rw [if_neg (by rw [hn]; decide), if_pos hn]
  · rw [if_neg ha, if_neg hn, if_pos hg]
  · rw [if_neg ha, if_neg hn, if_neg hb]

end Sys2Proof.Machine
end

section
/-! The frame codec: what `encode`, `validate`, `decode` and the ACK comparison return and write (R67 to R70). -/

namespace Sys2Proof.Machine

/-! ## `encode` -/

theorem fits_iff (cfg : Cfg) (p : List Byte) :
    fits cfg p = true ↔ p.length ≤ cfg.maxPd ∧ p.length + 8 ≤ cfg.txCap := by
  simp [fits]

/-- LCS depends on the payload's length alone, not on how it is cut to the byte LEN (R65, R66). -/
theorem lcs_ofNat (n : Nat) : lcs (BitVec.ofNat 8 n) = neg8 n := by
  simp [lcs, neg8]

/-- The built frame, byte by byte (R46, R47, R66). -/
theorem buildFrame_eq (t : Byte) (p : List Byte) : buildFrame t p =
    [0x00, 0x00, 0xFF, BitVec.ofNat 8 (p.length + 1), neg8 (p.length + 1), t] ++ p ++
      [neg8 ((t.toNat + sum8 p) % 256), 0x00] := by
  rw [← lcs_ofNat]
  rfl

/-- Loading a frame writes no offset past it (R12, R30). -/
theorem TxBuf.byte_load_past {b : TxBuf} (h : b.mem.wf) (f : List Byte) {a : Nat} (ha : f.length ≤ a) :
    (b.load f).mem.byte a = b.mem.byte a := by
  have hout : ¬ (0 ≤ a ∧ a < 0 + f.length) := by omega
  rw [TxBuf.load, Memory.byte_writeBytes h, if_neg hout]

theorem Reply.finishAs_encodeReject (l : Latch) (s : State) (d : List Byte) :
    Reply.finishAs l ⟨s, .encodeReject, d⟩ = ⟨{ s with latch := l, result := .encodeReject }, .encodeReject, d⟩ := by
  simp [Reply.finishAs, Reply.finish]

/-- `encode` of a payload that fits: the frame is loaded into TXBUF and returned (R67). -/
theorem exec_encode_fits (t : Byte) {p : List Byte} {s : State} (h : fits s.cfg p = true) :
    exec (.encode t p) s = .next (({ s with tx := s.tx.load (buildFrame t p) } : State).returned .ok
      (.frame (buildFrame t p)) { op := .encode, tfi := t }) := by
  show ((putFrame t p s).finishAs _).next _ = _
  rw [putFrame, if_pos h, if_pos h, Reply.finishAs_ok]
  rfl

/-- `encode` of one that does not fit: nothing is written (R67). -/
theorem exec_encode_rejects (t : Byte) {p : List Byte} {s : State} (h : ¬ fits s.cfg p = true) :
    exec (.encode t p) s = .next (s.returned .encodeReject .none { op := .encode, tfi := t }) := by
  show ((putFrame t p s).finishAs _).next _ = _
  rw [putFrame, if_neg h, if_neg h, Reply.finishAs_encodeReject]
  rfl

/-- Settles O1, by whether the payload fits: then TXBUF is what loading the built frame makes of it. -/
theorem encodePutsTheFrameInTxbuf : Obligations.EncodePutsTheFrameInTxbuf := by
  intro t p s hwf
  dsimp only
  rw [← buildFrame_eq t p]
  refine ⟨fun hfit => ?_, fun hover => ⟨_, exec_encode_rejects t ?_⟩⟩
  · refine ⟨_, _, exec_encode_fits t ((fits_iff s.cfg p).mpr hfit), Memory.wf_writeBytes hwf 0 _,
      buildFrame_length t p, TxBuf.contents_load hwf _, fun a ha => TxBuf.byte_load_past hwf _ ?_⟩
    rwa [buildFrame_length]
  · rw [fits_iff]
    omega

/-! ## `validate` and `decode` -/

/-- LCS_OK, in the words of R68. -/
theorem frameLcsOk_iff (f : List Byte) :
    frameLcsOk f = true ↔ 8 ≤ f.length ∧ ((byteAt f 3).toNat + (byteAt f 4).toNat) % 256 = 0 := by
  simp [frameLcsOk, lcsOk]

/-- DCS_OK, in the words of R68. -/
theorem frameDcsOk_iff (f : List Byte) :
    frameDcsOk f = true ↔ frameLcsOk f = true ∧ 1 ≤ (byteAt f 3).toNat ∧ f.length = (byteAt f 3).toNat + 7 ∧
      (sum8 (slice f 5 (5 + (byteAt f 3).toNat)) + (byteAt f (5 + (byteAt f 3).toNat)).toNat) % 256 = 0 := by
  simp [frameDcsOk, dcsOk, and_assoc]

theorem frameValid_iff (f : List Byte) : frameValid f = true ↔ frameLcsOk f = true ∧ frameDcsOk f = true := by
  simp [frameValid]

/-- `validate` writes the two flags and returns the verdict; it never fails (R68). -/
theorem exec_validate (f : List Byte) (s : State) : exec (.validate f) s =
    .next (({ s with lcsOk := frameLcsOk f, dcsOk := frameDcsOk f } : State).returned .ok (.verdict (frameValid f))
      { op := .validate }) :=
  congrArg (Reply.next · (.verdict (frameValid f))) (Reply.finishAs_ok _ _ _)

/-- `decode` writes the same flags and returns what the frame decodes to; a rejection is no failure (R69). -/
theorem exec_decode (f : List Byte) (s : State) : exec (.decode f) s =
    .next (({ s with lcsOk := frameLcsOk f, dcsOk := frameDcsOk f } : State).returned .ok (decodedFrame f)
      { op := .decode }) :=
  congrArg (Reply.next · (decodedFrame f)) (Reply.finishAs_ok _ _ _)

/-- What `decode` returns, by the two flags (R69). -/
theorem decodedFrame_eq (f : List Byte) : decodedFrame f =
    if frameLcsOk f = true ∧ frameDcsOk f = true then .accept (byteAt f 5) (slice f 6 (5 + (byteAt f 3).toNat))
    else .reject := by
  simp only [decodedFrame, frameValid_iff]

/-- Settles O2: the flags are `frameLcsOk` and `frameDcsOk`, whose conjunction is the verdict. -/
theorem validateChecksLengthAndData : Obligations.ValidateChecksLengthAndData := fun f s =>
  ⟨_, _, _, exec_validate f s, frameLcsOk_iff f, frameDcsOk_iff f⟩

/-- Settles O3: both operations write the same flags, and `decode` accepts by them. -/
theorem decodeAcceptsWhatValidateAccepts : Obligations.DecodeAcceptsWhatValidateAccepts := by
  intro f s
  have hdec := exec_decode f s
  rw [decodedFrame_eq] at hdec
  exact ⟨_, _, exec_validate f s, hdec⟩

/-! ## The ACK comparison -/

theorem isAck_eq_decide (b : List Byte) : isAck b = decide (b = Config.ackFrame) := beq_eq_decide b _

theorem isNack_eq_decide (b : List Byte) : isNack b = decide (b = Config.nackFrame) := beq_eq_decide b _

theorem exec_isAck (b : List Byte) (s : State) :
    exec (.isAck b) s = .next { s with output := .verdict (isAck b) } := rfl

theorem exec_isNack (b : List Byte) (s : State) :
    exec (.isNack b) s = .next { s with output := .verdict (isNack b) } := rfl

/-- Settles O8: each helper returns its comparison with the fixed frame (R49, R50) and writes nothing else. -/
theorem ackComparisonIsExact : Obligations.AckComparisonIsExact := by
  intro b s
  constructor
  · rw [exec_isAck, isAck_eq_decide]
    rfl
  · rw [exec_isNack, isNack_eq_decide]
    rfl

end Sys2Proof.Machine
end

section
/-! The transport session's operations on every answer of the environment: their events, registers and results
(R80 to R93). -/

namespace Sys2Proof.Machine

/-! ## Link primitives -/

/-- An exchange moves `Selected` to `Streaming`, and no other phase (R86). -/
theorem TS.exchanged_eq (ts : TS) : ts.exchanged = if ts = .selected then .streaming else ts := by
  cases ts <;> rfl

/-- With no answer at hand, an exchange draws a free one (R82, log 1). -/
theorem Link.xchg_free (tx : Byte) {l : Link} (h : l.answers = []) :
    (∃ rx, l.xchg tx = (some rx, { l with
      draws := l.draws + 1, ts := l.ts.exchanged, cnt := l.cnt - 1, trace := l.trace ++ [.x tx rx] })) ∨
    l.xchg tx = (none, { l with draws := l.draws + 1, ts := l.ts.exchanged, trace := l.trace ++ [.xfail tx] }) := by
  have ha : l.answer = (Config.freeAnswer l.draws, { l with draws := l.draws + 1 }) := by simp [Link.answer, h]
  cases hf : Config.freeAnswer l.draws with
  | ok rx => exact .inl ⟨rx, by rw [Link.xchg, ha, hf]; rfl⟩
  | fail => exact .inr (by rw [Link.xchg, ha, hf]; rfl)

/-- Settles O14: each primitive by its own rule, an exchange by the answer it gets. -/
theorem linkPrimitivesMoveThePhases : Obligations.LinkPrimitivesMoveThePhases := by
  intro l
  refine ⟨rfl, Link.release_asserted, Link.release_released, fun t => rfl, ?_⟩
  rintro _ rfl
  rw [← TS.exchanged_eq]
  refine ⟨fun tx rx rest ha => ⟨_, Link.xchg_ok tx rx l rest ha⟩, fun tx rest ha => ⟨_, Link.xchg_fail tx l rest ha⟩,
    fun tx ha => ?_⟩
  rcases Link.xchg_free tx ha with ⟨rx, hx⟩ | hx
  · exact ⟨_, .inl ⟨rx, hx⟩⟩
  · exact ⟨_, .inr hx⟩

/-! ## `end_read` -/

/-- Select released, a second release acts no more (R81). -/
theorem Link.release_twice (l : Link) : l.release.release = l.release := by
  cases h : l.sel
  · rw [Link.release_released h, Link.release_released h]
  · rw [Link.release_asserted h, Link.release_released rfl]

theorem exec_endRead_asserted {s : State} (h : s.link.sel = .asserted) : exec .endRead s =
    .next (({ s with link := { s.link with
      ts := .idle, sel := .released, trace := s.link.trace ++ [.rel] } } : State).returned
        .ok .none { op := .endRead }) := by
  rw [exec_endRead, State.afterEndRead, Link.release_asserted h]

theorem exec_endRead_released {s : State} (h : s.link.sel = .released) :
    exec .endRead s = .next (s.returned .ok .none { op := .endRead }) := by
  rw [exec_endRead, State.afterEndRead, Link.release_released h]

/-- After `end_read`, another leaves what the first one left (R90). -/
theorem exec_endRead_twice (s : State) : exec .endRead s.afterEndRead = .next s.afterEndRead := by
  rw [exec_endRead]
  simp [State.afterEndRead, State.returned, Link.release_twice]

/-- Settles O19: `end_read` is `Release`, and a second release acts no more. -/
theorem endReadIsIdempotent : Obligations.EndReadIsIdempotent := fun s =>
  ⟨fun h => ⟨_, exec_endRead_asserted h⟩, fun h => ⟨_, exec_endRead_released h⟩,
    _, exec_endRead s, _, exec_endRead_twice s⟩

/-! ## How an operation that was not refused returns -/

/-- An operation that was not refused leaves its own state, RESULT, the returned value and its operands (R16, R20). -/
theorem Reply.after_admitted {q : Reply} (h : q.res ≠ .seqFault) (out : Output) (l : Latch) :
    q.after out l = q.st.returned q.res out l := by
  simp [Reply.after, State.returned, h]

/-- A read that was not refused returns its data (R13, R44). -/
theorem State.afterRead_admitted (s : State) {r : LinkReply} (h : r.res ≠ .seqFault) (l : Latch) :
    s.afterRead r l = ({ s with link := r.link } : State).returned r.res (.data r.data) l := by
  rw [State.afterRead, if_neg (by simpa using h)]
  exact Reply.after_admitted h ..

/-! ## `write_frame` -/

theorem writeFrame_eq_writeTxn (cfg : Cfg) (bytes : List Byte) {l : Link} (h : l.ts = .idle) :
    writeFrame cfg bytes l = writeTxn cfg bytes l := if_pos h

theorem exec_writeFrame (bytes : List Byte) (s : State) : exec (.writeFrame bytes) s =
    .next ((s.onLink (writeFrame s.cfg bytes s.link)).after .none { op := .writeFrame }) :=
  Reply.next_finishAs_after ..

theorem exec_writeFrame_of {bytes : List Byte} {s : State} {r : LinkReply} (hi : s.link.ts = .idle)
    (h : writeTxn s.cfg bytes s.link = r) (hr : r.res ≠ .seqFault) : exec (.writeFrame bytes) s =
    .next (({ s with link := r.link } : State).returned r.res .none { op := .writeFrame }) := by
  rw [exec_writeFrame, writeFrame_eq_writeTxn _ _ hi, h, Reply.after_admitted hr]
  rfl

/-- Settles O15, by the two ways a write transaction can go. -/
theorem writeFrameIsOneWriteTransaction : Obligations.WriteFrameIsOneWriteTransaction := by
  intro bytes s body
  refine ⟨fun hi => ⟨fun rxs rest ha hl => ?_, fun pre b post rxs rest hb ha hl => ?_⟩,
    fun hi => ⟨_, exec_writeFrame_refused bytes hi⟩⟩
  · exact ⟨_, _, exec_writeFrame_of hi (writeTxn_ok _ bytes rxs rest _ ha hl) (by simp)⟩
  · exact ⟨_, _, exec_writeFrame_of hi (writeTxn_fail _ bytes pre b post rxs rest _ hb ha hl) (by simp)⟩

/-! ## `begin_read` and `continue_read` -/

theorem beginRead_eq_openRead (cfg : Cfg) (len : Nat) {l : Link} (h : l.ts = .idle) :
    beginRead cfg len l = openRead cfg len l := if_pos h

theorem continueRead_eq_readBytes (cfg : Cfg) (len : Nat) {l : Link} (h : l.ts = .streaming) :
    continueRead cfg len l = readBytes cfg len (l.expect len) := if_pos h

theorem exec_beginRead_of {len : Nat} {s : State} {r : LinkReply} (hi : s.link.ts = .idle)
    (h : openRead s.cfg len s.link = r) (hr : r.res ≠ .seqFault) : exec (.beginRead len) s =
    .next (({ s with link := r.link } : State).returned r.res (.data r.data) { op := .beginRead, len := len }) := by
  rw [exec_beginRead, beginRead_eq_openRead _ _ hi, h, State.afterRead_admitted s hr]

theorem exec_continueRead_of {len : Nat} {s : State} {r : LinkReply} (hs : s.link.ts = .streaming)
    (h : readBytes s.cfg len (s.link.expect len) = r) (hr : r.res ≠ .seqFault) : exec (.continueRead len) s =
    .next (({ s with link := r.link } : State).returned r.res (.data r.data) { op := .continueRead, len := len }) := by
  rw [exec_continueRead, continueRead_eq_readBytes _ _ hs, h, State.afterRead_admitted s hr]

/-- Settles O17, by the three ways the opening of a read transaction can go. -/
theorem beginReadOpensAStream : Obligations.BeginReadOpensAStream := by
  intro len s
  refine ⟨fun hi => ⟨?_, fun rest ha => ?_, fun q ds rest ha hl => ?_⟩, fun hi => ⟨_, exec_beginRead_refused len hi⟩⟩
  · rintro q ds rest ha rfl
    exact ⟨_, _, exec_beginRead_of hi (openRead_ok _ q ds rest _ ha) (by simp)⟩
  · exact ⟨_, _, _, _, exec_beginRead_of hi (openRead_failPrime _ len rest _ ha) (by simp)⟩
  · exact ⟨_, _, _, _, exec_beginRead_of hi (openRead_fail _ len q ds rest _ ha hl) (by simp)⟩

/-- Settles O18, by the two ways a read of an open stream can go. -/
theorem continueReadExtendsTheStream : Obligations.ContinueReadExtendsTheStream := by
  intro len s
  refine ⟨fun hs hsel => ⟨?_, fun ds rest ha hl => ?_⟩, fun hs => ⟨_, exec_continueRead_refused len hs⟩⟩
  · rintro ds rest ha rfl
    exact ⟨_, _, exec_continueRead_of hs (readBytes_ok _ ds rest _ ha hs rfl) (by simp)⟩
  · exact ⟨_, _, _, _, exec_continueRead_of hs (readBytes_fail _ len ds rest _ ha hl hsel) (by simp)⟩

end Sys2Proof.Machine
end

section
/-! Which requests are admitted in which phase, and what an admitted one can end with (R91, R93): the phase after each
operation, in every state and on every answer of the environment. -/

namespace Sys2Proof.Machine

/-! ## Select and the phase after a transaction -/

theorem Link.xchg_sel (tx : Byte) (l : Link) : (l.xchg tx).2.sel = l.sel := by
  rcases Link.xchg_cases tx l with ⟨rx, -, -, -, -, h⟩ | ⟨-, -, -, -, h⟩ <;> exact h

theorem Link.sendAll_sel (bs : List Byte) (l : Link) : (Link.sendAll bs l).2.sel = l.sel := by
  induction bs generalizing l with
  | nil => rfl
  | cons b bs ih =>
    have hx := Link.xchg_sel b l
    rw [Link.sendAll]
    split <;> rename_i l' h <;> rw [h] at hx
    · exact (ih l').trans hx
    · exact hx

theorem Link.recvAll_sel (dummy : Byte) (n : Nat) (l : Link) : (Link.recvAll dummy n l).2.sel = l.sel := by
  induction n generalizing l with
  | zero => rfl
  | succ n ih =>
    have hx := Link.xchg_sel dummy l
    rw [Link.recvAll]
    split <;> rename_i l' h <;> rw [h] at hx
    · exact hx
    · have hr := ih l'
      split <;> rename_i l'' h' <;> rw [h'] at hr <;> exact hr.trans hx

/-- `Release` ends an open transaction in `Idle` (R81). -/
theorem Link.release_ts {l : Link} (h : l.sel = .asserted) : l.release.ts = .idle := by
  rw [Link.release_asserted h]

/-- A write transaction ends in `Idle`, completed or aborted (R87, R92). -/
theorem writeTxn_ts (cfg : Cfg) (bytes : List Byte) (l : Link) : (writeTxn cfg bytes l).link.ts = .idle := by
  have hsel := Link.sendAll_sel (writeBody cfg bytes) ((l.select.sleep cfg.tSettle).expect (writeBody cfg bytes).length)
  unfold writeTxn
  dsimp only
  split <;> rename_i l' h <;> rw [h] at hsel <;> exact Link.release_ts hsel

/-- A read of an open transaction that fails ends it in `Idle` (R92). -/
theorem readBytes_failed_ts (cfg : Cfg) (len : Nat) {l : Link} (hl : l.sel = .asserted)
    (hf : (readBytes cfg len l).res ≠ .ok) : (readBytes cfg len l).link.ts = .idle := by
  have hsel := Link.recvAll_sel cfg.dummy len l
  unfold readBytes at hf ⊢
  split at hf
  · exact absurd rfl hf
  · rename_i l' h
    rw [h] at hsel
    exact Link.release_ts (hsel.trans hl)

/-- So does a read transaction that fails, at its priming exchange or later (R88, R92). -/
theorem openRead_failed_ts (cfg : Cfg) (len : Nat) (l : Link) (hf : (openRead cfg len l).res ≠ .ok) :
    (openRead cfg len l).link.ts = .idle := by
  have hsel := Link.xchg_sel cfg.readPrime ((l.select.sleep cfg.tSettle).expect (len + 1))
  unfold openRead at hf ⊢
  split at hf <;> rename_i l' h <;> rw [h] at hsel
  · exact readBytes_failed_ts cfg len hsel hf
  · exact Link.release_ts hsel

/-- A status transaction ends in `Idle`, completed or aborted (R54, R92). -/
theorem statusTxn_ts (cfg : Cfg) (l : Link) : (statusTxn cfg l).2.ts = .idle := by
  have hsel := Link.xchg_sel cfg.statusProbe (l.select.expect 2)
  unfold statusTxn
  split <;> rename_i l' h <;> rw [h] at hsel
  · exact Link.release_ts hsel
  · have hsel' := Link.xchg_sel cfg.dummy l'
    split <;> rename_i l'' h' <;> rw [h'] at hsel' <;> exact Link.release_ts (hsel'.trans hsel)

theorem probe_ts (cfg : Cfg) (l : Link) (p : Poll) : (probe cfg l p).2.1.ts = .idle := by
  have hts := statusTxn_ts cfg l
  unfold probe
  split <;> rename_i h <;> rw [h] at hts <;> exact hts

theorem pollLoop_ts (cfg : Cfg) (timeout interval fuel : Nat) {l : Link} (p : Poll) (hi : l.ts = .idle) :
    (pollLoop cfg timeout interval fuel l p).link.ts = .idle := by
  induction fuel generalizing l p with
  | zero => exact hi
  | succ n ih =>
    have hts := probe_ts cfg l p
    rw [pollLoop]
    split <;> rename_i l' p' h <;> rw [h] at hts
    · exact hts
    · split
      · exact hts
      · split
        · exact hts
        · exact ih _ hts

/-! ## `read_all` -/

/-- A `begin_read` from idle that fails leaves the link idle (R88). -/
theorem beginRead_failed_ts (cfg : Cfg) (len : Nat) {l : Link} (hi : l.ts = .idle)
    (hf : (beginRead cfg len l).res ≠ .ok) : (beginRead cfg len l).link.ts = .idle := by
  rw [beginRead_eq_openRead cfg len hi] at hf ⊢
  exact openRead_failed_ts cfg len l hf

theorem exec_readAll_ok {q : Byte} {ds : List Byte} {rest : List Answer} {s : State} (hi : s.link.ts = .idle)
    (ha : s.link.answers = .ok q :: answersOf ds ++ rest) : exec (.readAll ds.length) s =
    .next (({ s with link := { s.link with
      ts := .idle, sel := .released, cnt := 0, answers := rest,
      trace := s.link.trace ++ [.sel, .sleep s.cfg.tSettle, .x s.cfg.readPrime q] ++ ds.map (.x s.cfg.dummy) ++
        [.rel] } } : State).returned .ok (.data ds) { op := .readAll, len := ds.length }) := by
  rw [exec_readAll, readAll_ok s.cfg q ds rest s.link hi ha, State.afterRead_admitted s (by simp)]
  simp only [openEvents, dummyReads, List.append_assoc]

/-- Settles O20: on success one scripted read transaction, closed; a `begin_read` that fails has nothing to close. -/
theorem readAllIsOneReadTransaction : Obligations.ReadAllIsOneReadTransaction := by
  intro len s
  refine ⟨fun hi => ⟨?_, fun u hu hf => ?_⟩, fun hi => ⟨_, exec_readAll_refused len hi⟩⟩
  · rintro q ds rest ha rfl
    exact ⟨_, _, exec_readAll_ok hi ha⟩
  · rw [exec_beginRead, Host.Outcome.next.injEq] at hu
    subst hu
    exact ⟨beginRead_failed_ts s.cfg len hi hf, concludedRead_failed (exec_readAll len s) hf _⟩

/-! ## Admitted operations do not end in `SeqFault` -/

theorem writeFrame_admitted (cfg : Cfg) (bytes : List Byte) {l : Link} (h : l.ts = .idle) :
    (writeFrame cfg bytes l).res ≠ .seqFault := by
  rw [writeFrame_eq_writeTxn cfg bytes h]
  rcases writeTxn_result cfg bytes l with hr | hr <;> simp [hr]

theorem beginRead_admitted (cfg : Cfg) (len : Nat) {l : Link} (h : l.ts = .idle) :
    (beginRead cfg len l).res ≠ .seqFault := by
  rw [beginRead_eq_openRead cfg len h]
  rcases openRead_result cfg len l with ⟨hr, -⟩ | hr <;> simp [hr]

theorem continueRead_admitted (cfg : Cfg) (len : Nat) {l : Link} (h : l.ts = .streaming) :
    (continueRead cfg len l).res ≠ .seqFault := by
  rw [continueRead_eq_readBytes cfg len h]
  rcases readBytes_result cfg len (l.expect len) with ⟨hr, -⟩ | hr <;> simp [hr]

theorem readAll_admitted (cfg : Cfg) (len : Nat) {l : Link} (h : l.ts = .idle) :
    (readAll cfg len l).res ≠ .seqFault := by
  rw [readAll, (closeAfter_res _).1]
  exact beginRead_admitted cfg len h

/-- The mode that starts needs `Idle`, the others an open stream (R93, R106). -/
theorem readResponse_admitted (cfg : Cfg) (len : Nat) (st co : Bool) {l : Link}
    (h : l.ts = if st then .idle else .streaming) : (readResponse cfg len st co l).res ≠ .seqFault := by
  have hread : (if st then beginRead cfg len l else continueRead cfg len l).res ≠ .seqFault := by
    cases st
    · exact continueRead_admitted cfg len h
    · exact beginRead_admitted cfg len h
  cases co
  · exact hread
  · rwa [← (closeAfter_res _).1] at hread

theorem pollReady_eq_pollLoop (cfg : Cfg) (timeout : Nat) {interval : Nat} {l : Link} (p : Poll) (h : l.ts = .idle)
    (hi : 1 ≤ interval) : pollReady cfg timeout interval l p =
      pollLoop cfg timeout interval (timeout / interval + 1) l { p with elapsed := 0, probes := 0 } :=
  if_neg (by simp [h]; omega)

theorem pollReady_admitted (cfg : Cfg) (timeout : Nat) {interval : Nat} {l : Link} (p : Poll) (h : l.ts = .idle)
    (hi : 1 ≤ interval) :
    (pollReady cfg timeout interval l p).res ≠ .seqFault ∧ (pollReady cfg timeout interval l p).link.ts = .idle := by
  rw [pollReady_eq_pollLoop cfg timeout p h hi]
  exact ⟨pollLoop_result _ _ _ _ _ _, pollLoop_ts _ _ _ _ _ h⟩

/-! Each operation of `issue` leaves the link idle, as the next one needs it (R101). -/

theorem issueAck_admitted {s : State} (h : s.link.ts = .idle) : (issueAck s).res ≠ .seqFault := by
  unfold issueAck
  dsimp only
  split
  · exact readAll_admitted s.cfg _ h
  · split <;> simp [issueFailed]

theorem issuePoll_admitted {s : State} (h : s.link.ts = .idle) (hleg : s.cfg.legal) :
    (issuePoll s).res ≠ .seqFault := by
  obtain ⟨-, -, hivl, -⟩ := hleg
  obtain ⟨hres, hts⟩ := pollReady_admitted s.cfg s.cfg.defaultTimeout s.poll h hivl
  unfold issuePoll
  dsimp only
  split
  · exact hres
  · exact issueAck_admitted hts

theorem issueWrite_admitted {s : State} (h : s.link.ts = .idle) (hleg : s.cfg.legal) :
    (issueWrite s).res ≠ .seqFault := by
  unfold issueWrite
  dsimp only
  split
  · exact writeFrame_admitted s.cfg _ h
  · refine issuePoll_admitted ?_ hleg
    rw [State.onLink_link, writeFrame_eq_writeTxn s.cfg _ h]
    exact writeTxn_ts ..

theorem putFrame_res (tfi : Byte) (p : List Byte) (s : State) : (putFrame tfi p s).res ≠ .seqFault := by
  rcases putFrame_cases tfi p s with ⟨-, hp⟩ | ⟨-, hp⟩ <;> simp [hp]

theorem issue_admitted (tfi : Byte) (p : List Byte) {s : State} (h : s.link.ts = .idle) (hleg : s.cfg.legal) :
    (issue tfi p s).res ≠ .seqFault := by
  rw [issue, if_neg (by simp [h])]
  rcases putFrame_cases tfi p { s with cc := .issuing } with ⟨-, hp⟩ | ⟨-, hp⟩ <;> rw [hp]
  · exact issueWrite_admitted h hleg
  · simp [issueFailed]

/-! ## The statement -/

/-- The outcome is a next state, and RESULT there is not `SeqFault`. -/
def Admitted (o : StepOutcome) : Prop := ∃ t, o = .next t ∧ t.result ≠ .seqFault

theorem Reply.admitted {q : Reply} (h : q.res ≠ .seqFault) (l : Latch) (out : Output) :
    Admitted ((q.finishAs l).next out) :=
  ⟨_, Reply.next_finishAs_after q out l, h⟩

theorem exec_readResponse_admitted {i : Instr} {len : Nat} {st co : Bool} {s : State}
    (hi : i = .readResponse len st co ∨ i = modeRow st co len) (h : s.link.ts = if st then .idle else .streaming) :
    Admitted (exec i s) :=
  ⟨_, exec_readResponse s hi, readResponse_admitted s.cfg len st co h⟩

theorem exec_pollReady_admitted (tmo : Option Nat) {ivl : Option Nat} {s : State} (h : s.link.ts = .idle)
    (hleg : s.cfg.legal) (hivl : ivl ≠ some 0) : Admitted (exec (.pollReady tmo ivl) s) := by
  have hpos : 1 ≤ ivl.getD s.cfg.defaultInterval := by
    obtain ⟨-, -, hdef, -⟩ := hleg
    cases ivl with
    | none => exact hdef
    | some n => exact Nat.one_le_iff_ne_zero.mpr fun hn => hivl (congrArg some hn)
  exact Reply.admitted (q := s.onPoll _) (pollReady_admitted s.cfg _ s.poll h hpos).1 _ _

/-- Settles O23: the refusals are those of `refusedRequestsChangeNothing`; an admitted operation ends as its transactions
can. -/
theorem onlyAdmittedRequestsRun : Obligations.OnlyAdmittedRequestsRun := by
  intro s i len bytes tfi tmo ivl co hleg
  obtain ⟨-, -, refused⟩ := refusedRequestsChangeNothing
  refine ⟨fun hi => ⟨fun hts => refused _ len bytes tfi tmo ivl co s (.inl ⟨hts, hi⟩), fun hts hivl => ?_⟩,
    fun hi => ⟨fun hts => refused _ len bytes tfi tmo ivl co s (.inr (.inl ⟨hts, hi⟩)), fun hts => ?_⟩,
    fun hi => ?_, refused _ len bytes tfi tmo ivl co s (.inr (.inr rfl))⟩
  · rcases hi with rfl | rfl | rfl | rfl | rfl | hi
    · exact ⟨_, exec_writeFrame bytes s, writeFrame_admitted s.cfg bytes hts⟩
    · exact ⟨_, exec_beginRead len s, beginRead_admitted s.cfg len hts⟩
    · exact ⟨_, exec_readAll len s, readAll_admitted s.cfg len hts⟩
    · exact Reply.admitted (issue_admitted (tfiOr tfi) bytes hts hleg) _ _
    · exact exec_pollReady_admitted tmo hts hleg (hivl rfl)
    · exact exec_readResponse_admitted hi hts
  · rcases hi with rfl | hi
    · exact ⟨_, exec_continueRead len s, continueRead_admitted s.cfg len hts⟩
    · exact exec_readResponse_admitted hi hts
  · rcases hi with rfl | rfl | rfl | rfl
    · exact ⟨_, exec_endRead s, by simp [State.afterEndRead, State.returned]⟩
    · exact Reply.admitted (putFrame_res (tfi.getD 0xD4) bytes s) _ _
    · exact ⟨_, exec_validate bytes s, by simp [State.returned]⟩
    · exact ⟨_, exec_decode bytes s, by simp [State.returned]⟩

end Sys2Proof.Machine
end

section
/-! What no instruction but `initialize` and `bind` writes: CFG and the host's records (R21, R120, R127). -/

namespace Sys2Proof.Machine

/-- CFG, the consumers' parameters, the requests to come and the bound session (R6, R120, R127). -/
def State.setup (s : State) : Cfg × Consumer × List Request × Session := (s.cfg, s.consumer, s.requests, s.session)

/-! ## The operations -/

@[simp] theorem State.onLink_setup (s : State) (r : LinkReply) : (s.onLink r).st.setup = s.setup := rfl
@[simp] theorem State.onPoll_setup (s : State) (r : PollReply) : (s.onPoll r).st.setup = s.setup := rfl
@[simp] theorem Reply.finish_setup (r : Reply) : r.finish.st.setup = r.st.setup := rfl
@[simp] theorem Reply.finishAs_setup (l : Latch) (r : Reply) : (r.finishAs l).st.setup = r.st.setup := by
  simp [State.setup]
@[simp] theorem checkFrame_setup (f : List Byte) (s : State) : (checkFrame f s).st.setup = s.setup := rfl

@[simp] theorem putFrame_setup (tfi : Byte) (p : List Byte) (s : State) : (putFrame tfi p s).st.setup = s.setup := by
  rcases putFrame_cases tfi p s with ⟨-, hp⟩ | ⟨-, hp⟩ <;> simp [hp, State.setup]

@[simp] theorem issue_setup (tfi : Byte) (p : List Byte) (s : State) : (issue tfi p s).st.setup = s.setup := by
  obtain ⟨hcfg, hconsumer, hsession, hrequests, -⟩ := issue_frame tfi p s
  simp [State.setup, hcfg, hconsumer, hsession, hrequests]

@[simp] theorem opIssue_setup (tfi : Option Byte) (p : List Byte) (s : State) : (opIssue tfi p s).st.setup = s.setup := by
  simp [opIssue]

@[simp] theorem opPollReady_setup (tmo ivl : Option Nat) (s : State) : (opPollReady tmo ivl s).st.setup = s.setup := by
  simp [opPollReady]

@[simp] theorem opReadResponse_setup (len : Nat) (st co : Bool) (s : State) :
    (opReadResponse len st co s).st.setup = s.setup := by
  simp [opReadResponse]

@[simp] theorem opValidate_setup (f : List Byte) (s : State) : (opValidate f s).st.setup = s.setup := by
  simp [opValidate]

/-- A link row keeps what its transaction keeps, completed, failed or refused (R80, R145). -/
theorem State.whenIdle_setup {s : State} {r : Reply} (h : r.st.setup = s.setup) : (s.whenIdle r).st.setup = s.setup := by
  unfold State.whenIdle
  split
  · unfold Reply.bare
    split <;> exact h
  · rfl

/-! ## The consumer sequences -/

@[simp] theorem issueAndWait_setup (p : List Byte) (s : State) : (issueAndWait p s).st.setup = s.setup := by
  unfold issueAndWait
  dsimp only
  split <;> simp

@[simp] theorem Done.detectErr_setup (e : DetectError) (s : State) : (Done.detectErr e s).st.setup = s.setup := rfl

@[simp] theorem concludeWith_setup (e : DetectError) (s : State) : (concludeWith e s).st.setup = s.setup := by
  simp [concludeWith]

@[simp] theorem detectAts_setup (t : TagRecord) (s : State) : (detectAts t s).st.setup = s.setup := by
  unfold detectAts
  dsimp only
  split
  · simp
  · split <;> simp

@[simp] theorem detectUid_setup (b : List Byte) (s : State) : (detectUid b s).st.setup = s.setup := by
  unfold detectUid
  dsimp only
  split
  · simp
  · split
    · simp
    · split <;> simp

@[simp] theorem detectTarget_setup (a : List Byte) (s : State) : (detectTarget a s).st.setup = s.setup := by
  unfold detectTarget
  dsimp only
  split
  · simp
  · split
    · simp
    · split <;> simp

@[simp] theorem detect_setup (s : State) : (detect s).st.setup = s.setup := by
  unfold detect
  dsimp only
  split
  · simp
  · split <;> simp

@[simp] theorem exchange_setup (p : List Byte) (d : Nat) (s : State) : (exchange p d s).st.setup = s.setup := by
  unfold exchange
  dsimp only
  split
  · simp
  · split <;> simp

/-! ## The instructions -/

theorem Reply.setup_of_next {r : Reply} {out : Output} {s t : State} (h : r.next out = .next t)
    (hr : r.st.setup = s.setup) : t.setup = s.setup := by
  rw [Reply.next, Host.Outcome.next.injEq] at h
  rw [← h]
  exact hr

theorem Done.setup_of_next {d : Done} {s t : State} (h : d.next = .next t) (hd : d.st.setup = s.setup) :
    t.setup = s.setup := by
  rw [Done.next, Host.Outcome.next.injEq] at h
  rw [← h]
  exact hd

/-- Every instruction but `initialize` and `bind` leaves CFG and the host's records as they were, on every outcome. -/
theorem exec_setup {i : Instr} {s t : State} (hinit : ∀ g, i ≠ .initializeBlock g) (hbind : ∀ r, i ≠ .bind r)
    (h : exec i s = .next t) : t.setup = s.setup := by
  cases i with
  | initializeBlock g => exact absurd rfl (hinit g)
  | bind r => exact absurd rfl (hbind r)
  | writeTxn | readTxn | statusTxn | probe => exact Reply.setup_of_next h (State.whenIdle_setup rfl)
  | reservedB | reservedC | reservedD | reservedE => exact Reply.setup_of_next h rfl
  | detect => exact Done.setup_of_next h (detect_setup s)
  | authenticate | readBlock | writeBlock => exact Done.setup_of_next h (exchange_setup ..)
  | ackFrame | nackFrame | statusByte | isAck | isNack | headerOk =>
    rw [← Host.Outcome.next.inj h]
    rfl
  | nif | nifC2H | validate | decode | nifH2C | writeFrame | beginRead | continueRead | endRead | readAll =>
    exact Reply.setup_of_next h (Reply.finishAs_setup ..)
  | encode => exact Reply.setup_of_next h ((Reply.finishAs_setup ..).trans (putFrame_setup ..))
  | issue => exact Reply.setup_of_next h (opIssue_setup ..)
  | pollReady => exact Reply.setup_of_next h (opPollReady_setup ..)
  | readResponse | readResponseFull | readResponseOpen | readResponseContinue | readResponseClose =>
    exact Reply.setup_of_next h (opReadResponse_setup ..)

/-! ## Wire order -/

/-- Only `initialize` writes CFG: `bind` touches no block state (R21, R127). -/
theorem exec_cfg {i : Instr} {s t : State} (hinit : ∀ g, i ≠ .initializeBlock g) (h : exec i s = .next t) :
    t.cfg = s.cfg := by
  by_cases hbind : ∃ r, i = .bind r
  · obtain ⟨r, rfl⟩ := hbind
    rw [← Host.Outcome.next.inj h]
  · exact congrArg Prod.fst (exec_setup hinit (not_exists.mp hbind) h)

/-- Settles O13: the two orders written out, the codec's round trip, and the order being a field of CFG. -/
theorem wireOrderIsTransparent : Obligations.WireOrderIsTransparent :=
  ⟨fun _ => ⟨rfl, rfl⟩, fromWire_wireBits, fun _ _ _ hinit h => congrArg Cfg.bitOrder (exec_cfg hinit h)⟩

end Sys2Proof.Machine
end

section
/-! The command channel on a given script of the environment: the four modes of `read_response` (R106) and the handshake
of `issue` (R101, R104). -/

namespace Sys2Proof.Machine

/-! ## `read_response` -/

/-- The events that open the transaction, where the mode starts one (R88, R106). -/
def responseOpening (cfg : Cfg) (start : Bool) (q : Byte) : List Event :=
  if start then [.sel, .sleep cfg.tSettle, .x cfg.readPrime q] else []

/-- The answer to the priming exchange, where the mode makes one (R88, R106). -/
def primeAnswer (start : Bool) (q : Byte) : List Answer := if start then [.ok q] else []

/-- The read inside `read_response`: `begin_read` or `continue_read`, by `start` (R106). -/
def responseRead (cfg : Cfg) (len : Nat) (start : Bool) (l : Link) : LinkReply :=
  if start then beginRead cfg len l else continueRead cfg len l

theorem readResponse_eq (cfg : Cfg) (len : Nat) (st co : Bool) (l : Link) : readResponse cfg len st co l =
    if co then closeAfter (responseRead cfg len st l) else responseRead cfg len st l := rfl

/-- A read that failed has nothing to conclude (R106). -/
theorem readResponse_failed {cfg : Cfg} {len : Nat} {st : Bool} {l : Link}
    (h : (responseRead cfg len st l).res ≠ .ok) (co : Bool) :
    readResponse cfg len st co l = responseRead cfg len st l := by
  cases co
  · rfl
  · exact if_neg h

section
variable {cfg : Cfg} {st : Bool} {l : Link} (hts : l.ts = if st then .idle else .streaming)
  {q : Byte} {ds : List Byte} {rest : List Answer}
include hts

theorem responseRead_ok (hsel : l.sel = if st then .released else .asserted)
    (ha : l.answers = primeAnswer st q ++ answersOf ds ++ rest) :
    responseRead cfg ds.length st l = ⟨{ l with
      ts := .streaming, sel := .asserted, cnt := 0, answers := rest,
      trace := l.trace ++ responseOpening cfg st q ++ dummyReads cfg.dummy ds }, .ok, ds⟩ := by
  cases st with
  | true => exact (beginRead_eq_openRead cfg _ hts).trans (openRead_ok cfg q ds rest l ha)
  | false =>
    refine ((continueRead_eq_readBytes cfg _ hts).trans (readBytes_ok cfg ds rest _ ha hts rfl)).trans ?_
    simp [Link.expect, responseOpening, show l.ts = .streaming from hts, show l.sel = .asserted from hsel]

theorem responseRead_fail (hsel : l.sel = if st then .released else .asserted) {len : Nat}
    (ha : l.answers = primeAnswer st q ++ answersOf ds ++ .fail :: rest) (hl : ds.length < len) :
    responseRead cfg len st l = ⟨{ l with
      ts := .idle, sel := .released, cnt := len - ds.length, answers := rest, draws := l.draws + len,
      trace := l.trace ++ responseOpening cfg st q ++ dummyReads cfg.dummy ds ++ [.xfail cfg.dummy, .rel] },
      .transportError, freeData l.draws len⟩ := by
  cases st with
  | true => exact (beginRead_eq_openRead cfg _ hts).trans (openRead_fail cfg len q ds rest l ha hl)
  | false =>
    refine ((continueRead_eq_readBytes cfg _ hts).trans (readBytes_fail cfg len ds rest _ ha hl hsel)).trans ?_
    simp [Link.expect, responseOpening]

theorem readResponse_ok (hsel : l.sel = if st then .released else .asserted)
    (ha : l.answers = primeAnswer st q ++ answersOf ds ++ rest) (co : Bool) :
    readResponse cfg ds.length st co l = ⟨{ l with
      ts := if co then .idle else .streaming, sel := if co then .released else .asserted, cnt := 0, answers := rest,
      trace := l.trace ++ responseOpening cfg st q ++ dummyReads cfg.dummy ds ++ (if co then [.rel] else []) },
      .ok, ds⟩ := by
  rw [readResponse_eq, responseRead_ok hts hsel ha]
  cases co
  · simp
  · simp [closeAfter, Link.release_asserted]

end

theorem exec_readResponse_of {i : Instr} {len : Nat} {st co : Bool} {s : State} {r : LinkReply}
    (hi : i = .readResponse len st co ∨ i = modeRow st co len) (h : readResponse s.cfg len st co s.link = r)
    (hr : r.res ≠ .seqFault) : exec i s =
    .next (({ s with link := r.link } : State).returned r.res (.data r.data)
      { op := .readResponse, len := len, start := st, conclude := co }) := by
  rw [exec_readResponse s hi, h, State.afterRead_admitted s hr]

/-- A call whose read ends with `TransportError`: nothing is concluded (R106). -/
theorem exec_readResponse_failed {i : Instr} {len : Nat} {st co : Bool} {s : State} {l : Link} {data : List Byte}
    (hi : i = .readResponse len st co ∨ i = modeRow st co len)
    (h : responseRead s.cfg len st s.link = ⟨l, .transportError, data⟩) : exec i s =
    .next (({ s with link := l } : State).returned .transportError (.data data)
      { op := .readResponse, len := len, start := st, conclude := co }) :=
  exec_readResponse_of hi ((readResponse_failed (by simp [h]) co).trans h) (by simp)

/-- Settles O25, by the three ways the read of a mode can go; only a read that succeeded is concluded. -/
theorem readResponseHasFourModes : Obligations.ReadResponseHasFourModes := by
  intro i len st co s hi
  refine ⟨fun hts hsel => ⟨?_, fun q ds rest ha hl => ?_, ?_⟩, fun hts => ⟨_, exec_readResponse_refused hi hts⟩⟩
  · rintro q ds rest ha rfl
    exact ⟨_, _, exec_readResponse_of hi (readResponse_ok hts hsel ha co) (by simp)⟩
  · exact ⟨_, _, _, _, exec_readResponse_failed hi (responseRead_fail hts hsel ha hl)⟩
  · rintro rest rfl ha
    exact ⟨_, _, _, _, exec_readResponse_failed hi
      ((beginRead_eq_openRead s.cfg len hts).trans (openRead_failPrime s.cfg len rest s.link ha))⟩

/-! ## `issue` -/

theorem Reply.finishAs_ackMismatch (l : Latch) (s : State) (d : List Byte) :
    Reply.finishAs l ⟨s, .ackMismatch, d⟩ = ⟨{ s with latch := l, result := .ackMismatch }, .ackMismatch, d⟩ := by
  simp [Reply.finishAs, Reply.finish]

/-- `issue` on a scripted handshake, as an instruction: it ends at the comparison with the ACK (R101, R104). -/
theorem exec_issue_script {tfi : Option Byte} {p a : List Byte} {h : Handshake} {rest : List Answer} {s : State}
    (hleg : s.cfg.legal) (hi : s.link.ts = .idle) (hf : fits s.cfg p = true) (hw : s.tx.mem.wf)
    (ha : s.link.answers = h.answers a ++ rest) (hl : a.length = Config.ackLen)
    (ht : h.timely s.cfg (buildFrame (tfiOr tfi) p)) : exec (.issue tfi p) s =
      if a = Config.ackFrame then
        .next (({ s.answered h (buildFrame (tfiOr tfi) p) a rest 0 with cc := .acked } : State).returned .ok .none
          { op := .issue, tfi := tfiOr tfi })
      else
        .next (({ s.answered h (buildFrame (tfiOr tfi) p) a rest 0 with cc := .failed } : State).returned
          .ackMismatch .none { op := .issue, tfi := tfiOr tfi }) := by
  show ((issue (tfiOr tfi) p s).finishAs _).next .none = _
  rw [issue_script (tfiOr tfi) p a h rest s hleg hi hf hw ha hl ht]
  by_cases hack : a = Config.ackFrame
  · rw [if_pos ((isAck_iff a).mpr hack), if_pos hack, Reply.finishAs_ok]
    rfl
  · rw [if_neg (mt (isAck_iff a).mp hack), if_neg hack, Reply.finishAs_ackMismatch]
    rfl

/-- Settles O28: the handshake is scripted up to the comparison, and TXBUF is what loading the frame makes of it. -/
theorem issueCompletesTheHandshake : Obligations.IssueCompletesTheHandshake := by
  intro tfi p a h rest s f hleg hw hi hpd hcap ht hl ha
  refine ⟨TxBuf.contents_load hw f, fun o ho => TxBuf.byte_load_past hw f ?_, _, _,
    exec_issue_script hleg hi ((fits_iff s.cfg p).mpr ⟨hpd, hcap⟩) hw ha hl ht⟩
  rwa [buildFrame_length]

end Sys2Proof.Machine
end

section
/-! The consumer sequences as series of host operations (R123, R127 to R133): a series stops at the first operation that
fails, and goes on in the state that one that succeeded has left. -/

namespace Sys2Proof.Machine

/-! ## What an operation of a series leaves -/

/-- `s` is `u` but for what the host was given last, which no operation of a series reads (R13). -/
def State.AgreesWith (s u : State) : Prop := ∃ out, s = { u with output := out }

/-- The operation that replied `q` has returned, and left the machine in `x` (R20, R150). -/
structure Reply.Leaves (q : Reply) (x : State) : Prop where
  result : x.result = q.res
  agrees : q.st.AgreesWith x

/-- `q`, where the host was last given `out`. -/
def Reply.giving (q : Reply) (out : Output) : Reply := { q with st := { q.st with output := out } }

theorem Reply.finishAs_giving (q : Reply) (l : Latch) (out : Output) :
    (q.giving out).finishAs l = (q.finishAs l).giving out := by
  cases h : q.res == .seqFault <;> simp [Reply.finishAs, Reply.finish, Reply.giving, h]

theorem Reply.leaves_of_finishAs (q : Reply) (l : Latch) (out out' : Output) :
    ((q.finishAs l).giving out).Leaves { (q.finishAs l).st with output := out' } :=
  ⟨rfl, out, rfl⟩

theorem opReadResponse_giving (len : Nat) (st co : Bool) (s : State) (out : Output) :
    opReadResponse len st co { s with output := out } = (opReadResponse len st co s).giving out :=
  Reply.finishAs_giving (s.onLink (readResponse s.cfg len st co s.link)) _ out

theorem opPollReady_giving (tmo ivl : Option Nat) (s : State) (out : Output) :
    opPollReady tmo ivl { s with output := out } = (opPollReady tmo ivl s).giving out :=
  Reply.finishAs_giving (s.onPoll (pollReady s.cfg _ _ s.link s.poll)) _ out

theorem opIssue_leaves (tfi : Option Byte) (p : List Byte) (s : State) :
    ∃ u, exec (.issue tfi p) s = .next u ∧ (opIssue tfi p s).Leaves u :=
  ⟨_, rfl, rfl, _, rfl⟩

theorem opPollReady_leaves (tmo ivl : Option Nat) {s u : State} (h : s.AgreesWith u) :
    ∃ v, exec (.pollReady tmo ivl) u = .next v ∧ (opPollReady tmo ivl s).Leaves v := by
  obtain ⟨out, rfl⟩ := h
  rw [opPollReady_giving]
  exact ⟨_, rfl, Reply.leaves_of_finishAs ..⟩

theorem opReadResponse_leaves (len : Nat) (st co : Bool) {s u : State} (h : s.AgreesWith u) :
    ∃ x, exec (.readResponse len st co) u = .next x ∧ (opReadResponse len st co s).Leaves x ∧
      (x.result = .ok → x.output = .data (opReadResponse len st co s).data) := by
  obtain ⟨out, rfl⟩ := h
  rw [opReadResponse_giving]
  refine ⟨_, rfl, Reply.leaves_of_finishAs .., fun hok => if_neg ?_⟩
  have hres : (opReadResponse len st co u).res = .ok := hok
  simp [hres]

/-! ## How many bytes a read that succeeded gives -/

theorem Link.recvAll_length {dummy : Byte} {n : Nat} {l l' : Link} {ds : List Byte}
    (h : Link.recvAll dummy n l = (some ds, l')) : ds.length = n := by
  induction n generalizing l ds with
  | zero => cases h; rfl
  | succ n ih =>
    rw [Link.recvAll] at h
    split at h
    · cases h
    · split at h
      · next hr => cases h; exact congrArg (· + 1) (ih hr)
      · cases h

theorem readBytes_length {cfg : Cfg} {len : Nat} {l : Link} (h : (readBytes cfg len l).res = .ok) :
    (readBytes cfg len l).data.length = len := by
  revert h
  rw [readBytes]
  split
  · next hr => exact fun _ => Link.recvAll_length hr
  · exact fun h => nomatch h

theorem openRead_length {cfg : Cfg} {len : Nat} {l : Link} (h : (openRead cfg len l).res = .ok) :
    (openRead cfg len l).data.length = len := by
  revert h
  rw [openRead]
  split
  · exact readBytes_length
  · exact fun h => nomatch h

theorem responseRead_length {cfg : Cfg} {len : Nat} {st : Bool} {l : Link} (h : (responseRead cfg len st l).res = .ok) :
    (responseRead cfg len st l).data.length = len := by
  revert h
  unfold responseRead beginRead continueRead
  split
  · split
    · exact openRead_length
    · exact fun h => nomatch h
  · split
    · exact readBytes_length
    · exact fun h => nomatch h

/-- `read_response(len, ..)` gives `len` bytes when it returns `Ok`, in every state (R13, R106). -/
theorem opReadResponse_length {len : Nat} {st co : Bool} {s : State} (h : (opReadResponse len st co s).res = .ok) :
    (opReadResponse len st co s).data.length = len := by
  simp only [opReadResponse, Reply.finishAs_res, Reply.finishAs_data, State.onLink_res, State.onLink_data,
    readResponse_eq] at h ⊢
  cases co
  · exact responseRead_length h
  · obtain ⟨hres, hdata⟩ := closeAfter_res (responseRead s.cfg len st s.link)
    rw [if_pos rfl, hres] at h
    rw [if_pos rfl, hdata]
    exact responseRead_length h

/-! ## Series -/

/-- A series at an operation that replied `q`: on a failure it ends with the answer `bad` makes of it, else it goes on as
`cont` with the data read (R123, R129). -/
def Reply.proceed (q : Reply) (bad : Result → Output) (cont : List Byte → State → Done) : Done :=
  if q.res ≠ .ok then ⟨q.st, bad q.res⟩ else cont q.data q.st

/-- The series ends in `u`, the state its last operation has left, with `out` as its answer. -/
def Done.EndsIn (d : Done) (u : State) (out : Output) : Prop := d.next = .next { u with output := out }

theorem State.AgreesWith.endsIn {s u : State} (h : s.AgreesWith u) {d : Done} {out : Output} (hd : d = ⟨s, out⟩) :
    d.EndsIn u out := by
  obtain ⟨_, rfl⟩ := h
  rw [hd]
  rfl

section
variable {d : Done} {bad : Result → Output} {cont : List Byte → State → Done}

theorem Reply.Leaves.proceed {q : Reply} {x : State} (h : q.Leaves x) (hd : d = q.proceed bad cont) :
    (x.result ≠ .ok → d.EndsIn x (bad x.result)) ∧ (x.result = .ok → d = cont q.data q.st) := by
  rw [h.result]
  exact ⟨fun hne => h.agrees.endsIn (hd.trans (if_pos hne)), fun hok => hd.trans (if_neg (not_not.mpr hok))⟩

/-- A series at a `read_response`: the host calls it in `u`, and it fails the series or gives it `len` bytes. -/
theorem series_reads {len : Nat} {st co : Bool} {s u : State} (h : s.AgreesWith u)
    (hd : d = (opReadResponse len st co s).proceed bad cont) :
    ∃ x, exec (.readResponse len st co) u = .next x ∧ (x.result ≠ .ok → d.EndsIn x (bad x.result)) ∧
      (x.result = .ok → ∃ ds t, x.output = .data ds ∧ ds.length = len ∧ t.AgreesWith x ∧ d = cont ds t) := by
  obtain ⟨x, hx, hl, hdata⟩ := opReadResponse_leaves len st co h
  obtain ⟨hfail, hgo⟩ := hl.proceed hd
  exact ⟨x, hx, hfail, fun hok =>
    ⟨_, _, hdata hok, opReadResponse_length (hl.result.symm.trans hok), hl.agrees, hgo hok⟩⟩

/-- A series that begins with `issue` and, where RESP_POLL asks for it, a second wait (R120, R123, R129). -/
theorem series_issues {p : List Byte} {s : State} (hd : d = (issueAndWait p s).proceed bad cont) :
    ∃ u, exec (.issue (some 0xD4) p) s = .next u ∧ (u.result ≠ .ok → d.EndsIn u (bad u.result)) ∧ (u.result = .ok →
    ∃ v, (if s.consumer.respPoll then exec (.pollReady none none) u else .next u) = .next v ∧
      (v.result ≠ .ok → d.EndsIn v (bad v.result)) ∧
      (v.result = .ok → ∃ ds t, t.AgreesWith v ∧ d = cont ds t)) := by
  obtain ⟨u, hu, hl⟩ := opIssue_leaves (some Config.tfiH2C) p s
  rw [issueAndWait] at hd
  refine ⟨u, hu, fun hne => ?_, fun hok => ?_⟩
  · rw [hl.result] at hne
    rw [if_neg fun hw => hne hw.1] at hd
    exact (hl.proceed hd).1 (hl.result ▸ hne)
  · rw [hl.result] at hok
    cases hw : s.consumer.respPoll
    · rw [if_neg (by simp [hw])] at hd
      obtain ⟨hfail, hgo⟩ := hl.proceed hd
      exact ⟨u, rfl, hfail, fun hv => ⟨_, _, hl.agrees, hgo hv⟩⟩
    · rw [if_pos ⟨hok, hw⟩] at hd
      obtain ⟨v, hv, hlv⟩ := opPollReady_leaves none none hl.agrees
      obtain ⟨hfail, hgo⟩ := hlv.proceed hd
      exact ⟨v, hv, hfail, fun hv => ⟨_, _, hlv.agrees, hgo hv⟩⟩

end

/-! ## `detect` -/

theorem detectErrorOf_eq (r : Result) : detectErrorOf r = if r = .timeoutError then .timeout else .protocol := by
  cases r <;> rfl

/-- The answer to any failure of a `read_response` inside `detect` (R126). -/
def chunkFailed (_ : Result) : Output := .detectErr .protocol

/-- The record `detect` makes of chunk (b) `b` and the UID (R121, R123). -/
def tagOf (b uid : List Byte) (ats : Option (List Byte)) : TagRecord :=
  { logical := byteAt b 0, atqa := slice b 1 3, sak := byteAt b 3, uid := uid, ats := ats }

theorem slice_pair {b : List Byte} (h : 3 ≤ b.length) : slice b 1 3 = [byteAt b 1, byteAt b 2] := by
  match b, h with
  | _ :: _ :: _ :: _, _ => rfl

theorem detect_eq (s : State) : detect s =
    (issueAndWait (detectPayload s.consumer) s).proceed (fun r => .detectErr (detectErrorOf r))
      fun _ t => (opReadResponse 8 true false t).proceed chunkFailed detectTarget := rfl

/-- The header test, on a chunk of at least 6 bytes (R71). -/
theorem headerOk_iff {a : List Byte} (h : 6 ≤ a.length) :
    headerOk a = true ↔ ((byteAt a 3).toNat + (byteAt a 4).toNat) % 256 = 0 ∧ 1 ≤ (byteAt a 3).toNat := by
  rw [headerOk, if_pos h, headerGood_iff]

theorem detectTarget_badHeader {a : List Byte} (h : ¬ headerOk a = true) (s : State) :
    detectTarget a s = concludeWith .protocol s := if_pos (Bool.eq_false_of_not_eq_true h)

theorem detectTarget_noTag {a : List Byte} (h : headerOk a = true) (h0 : byteAt a 7 = 0) (s : State) :
    detectTarget a s = concludeWith .noTag s := by
  rw [detectTarget, if_neg (by simp [h]), if_pos h0]

theorem detectTarget_reads {a : List Byte} (h : headerOk a = true) (h0 : byteAt a 7 ≠ 0) (s : State) :
    detectTarget a s = (opReadResponse 5 false false s).proceed chunkFailed detectUid := by
  rw [detectTarget, if_neg (by simp [h]), if_neg h0]
  rfl

theorem detectUid_malformed {b : List Byte} (h : (byteAt b 4).toNat ∉ [4, 7, 10]) (s : State) :
    detectUid b s = concludeWith .malformedUid s := if_pos (by simpa using h)

theorem detectUid_reads {b : List Byte} (h : (byteAt b 4).toNat ∈ [4, 7, 10]) (s : State) :
    detectUid b s = (opReadResponse (byteAt b 4).toNat false (!iso14443_4 (byteAt b 3)) s).proceed chunkFailed
      fun uid t =>
        if iso14443_4 (byteAt b 3) then detectAts (tagOf b uid none) t else ⟨t, .tag (tagOf b uid none)⟩ := by
  have hlen : ¬ ((byteAt b 4).toNat ≠ 4 ∧ (byteAt b 4).toNat ≠ 7 ∧ (byteAt b 4).toNat ≠ 10) := by
    simpa [or_iff_not_imp_left] using h
  exact if_neg hlen

theorem detectAts_eq (b uid : List Byte) (s : State) : detectAts (tagOf b uid none) s =
    (opReadResponse 1 false false s).proceed chunkFailed fun n t =>
      (opReadResponse (byteAt n 0).toNat false true t).proceed chunkFailed fun ats t' =>
        ⟨t', .tag (tagOf b uid (some ats))⟩ := rfl

/-- An early exit from the open stream is the call that concludes it, and then the error (R123, D32). -/
theorem concludeWith_concludes {e : DetectError} {s u : State} (h : s.AgreesWith u) {d : Done}
    (hd : d = concludeWith e s) :
    ∃ x, exec (.readResponse 0 false true) u = .next x ∧ d.EndsIn x (.detectErr e) := by
  obtain ⟨x, hx, hl, -⟩ := opReadResponse_leaves 0 false true h
  exact ⟨x, hx, hl.agrees.endsIn hd⟩

/-- A series that ends with a record, in the words of R123. -/
theorem record_endsIn {b uid : List Byte} {ats : Option (List Byte)} {s u : State} (h : s.AgreesWith u)
    (hb : b.length = 5) {d : Done} (hd : d = ⟨s, .tag (tagOf b uid ats)⟩) : d.EndsIn u (.tag
      { logical := byteAt b 0, atqa := [byteAt b 1, byteAt b 2], sak := byteAt b 3, uid := uid, ats := ats }) := by
  rw [tagOf, slice_pair (by omega)] at hd
  exact h.endsIn hd

/-- Settles O40, chunk by chunk: what the operations so far have returned says how `detect` goes on. -/
theorem detectIsItsSeriesOfOperations : Obligations.DetectIsItsSeriesOfOperations := by
  intro s c isErr lower concludes
  have lowers : ∀ u, (detect s).EndsIn u (.detectErr (detectErrorOf u.result)) → lower u := fun u h => by
    rwa [detectErrorOf_eq] at h
  obtain ⟨u, hu, fu, nu⟩ := series_issues (detect_eq s)
  refine ⟨u, hu, fun h => lowers u (fu h), fun okU => ?_⟩
  obtain ⟨v, hv, fv, nv⟩ := nu okU
  refine ⟨v, hv, fun h => lowers v (fv h), fun okV => ?_⟩
  obtain ⟨-, t, ht, dv⟩ := nv okV
  -- chunk (a)
  obtain ⟨w, hw, fw, nw⟩ := series_reads ht dv
  refine ⟨w, hw, fw, fun okW => ?_⟩
  obtain ⟨a, t, ha, la, ht, dw⟩ := nw okW
  have hhead := headerOk_iff (a := a) (by omega)
  refine ⟨a, ha, fun hh => concludeWith_concludes ht (dw.trans (detectTarget_badHeader (mt hhead.mp hh) t)),
    fun hh h0 => concludeWith_concludes ht (dw.trans (detectTarget_noTag (hhead.mpr hh) h0 t)), fun hh h0 => ?_⟩
  -- chunk (b)
  obtain ⟨x, hx, fx, nx⟩ := series_reads ht (dw.trans (detectTarget_reads (hhead.mpr hh) h0 t))
  refine ⟨x, hx, fx, fun okX => ?_⟩
  obtain ⟨b, t, hb, lb, ht, dx⟩ := nx okX
  refine ⟨b, hb, fun hl => concludeWith_concludes ht (dx.trans (detectUid_malformed hl t)), fun hl => ?_⟩
  -- chunk (c)
  obtain ⟨y, hy, fy, ny⟩ := series_reads ht (dx.trans (detectUid_reads hl t))
  refine ⟨y, hy, fy, fun okY => ?_⟩
  obtain ⟨uid, t, huid, -, ht, dy⟩ := ny okY
  refine ⟨uid, huid, fun hiso => record_endsIn ht lb (dy.trans (if_neg (ne_true_of_eq_false hiso))), fun hiso => ?_⟩
  -- chunks (d) and (e)
  obtain ⟨z, hz, fz, nz⟩ := series_reads ht ((dy.trans (if_pos hiso)).trans (detectAts_eq b uid t))
  refine ⟨z, hz, fz, fun okZ => ?_⟩
  obtain ⟨ns, t, hns, lns, ht, dz⟩ := nz okZ
  obtain ⟨n, rfl⟩ := List.length_eq_one_iff.mp lns
  obtain ⟨r, hr, fr, nr⟩ := series_reads ht dz
  refine ⟨n, hns, r, hr, fr, fun okR => ?_⟩
  obtain ⟨ats, t, hats, -, ht, dr⟩ := nr okR
  exact ⟨ats, hats, record_endsIn ht lb dr⟩

/-! ## `bind` -/

/-- Settles O37: `bind` writes the session record and what it returns. -/
theorem bindBuildsTheSession : Obligations.BindBuildsTheSession := fun t _ => ⟨.bound (sessionOf t), rfl⟩

/-! ## The session operations -/

/-- The answer to a failure below a session operation (R133). -/
def notAckedBy (r : Result) : Output := .cardErr (.notAcked r)

/-- What a session operation makes of the `10 + d` bytes it has read (R129, R133). -/
def exchangeJudged (d : Nat) (f : List Byte) (s : State) : Done :=
  ⟨(opValidate f s).st, if frameValid f then exchangeAnswer f d else .cardErr .malformed⟩

theorem exchange_eq (p : List Byte) (d : Nat) (s : State) : exchange p d s =
    (issueAndWait p s).proceed notAckedBy fun _ t =>
      (opReadResponse (10 + d) true true t).proceed notAckedBy (exchangeJudged d) := rfl

/-- The last operation of the exchange is `validate`, by whose verdict it answers (R129). -/
theorem exchangeJudged_validates (d : Nat) (f : List Byte) {s u : State} (h : s.AgreesWith u) :
    ∃ x, exec (.validate f) u = .next x ∧ (exchangeJudged d f s).EndsIn x
      (if x.output ≠ .verdict true then .cardErr .malformed
        else if byteAt f 7 ≠ 0 then .cardErr (.badStatus (byteAt f 7)) else .card (slice f 8 (8 + d))) := by
  obtain ⟨out, rfl⟩ := h
  refine ⟨_, exec_validate f u, ?_⟩
  cases hv : frameValid f <;>
    simp [Done.EndsIn, Done.next, exchangeJudged, exchangeAnswer, hv, opValidate, checkFrame, Reply.finishAs_ok,
      State.returned]

/-- Settles O44: the three are one exchange, each of its own payload and length. -/
theorem sessionOperationsAreTheirSeries : Obligations.SessionOperationsAreTheirSeries := by
  intro s i p d k blk key data c hi notAcked
  have hx : exec i s = (exchange p d s).next := by
    rcases hi with ⟨rfl, rfl, rfl⟩ | ⟨rfl, rfl, rfl⟩ | ⟨rfl, rfl, rfl⟩
    · cases k <;> rfl
    · rfl
    · rfl
  have fails : ∀ u, (exchange p d s).EndsIn u (notAckedBy u.result) → notAcked u := fun u h => hx.trans h
  obtain ⟨u, hu, fu, nu⟩ := series_issues (exchange_eq p d s)
  refine ⟨u, hu, fun h => fails u (fu h), fun okU => ?_⟩
  obtain ⟨v, hv, fv, nv⟩ := nu okU
  refine ⟨v, hv, fun h => fails v (fv h), fun okV => ?_⟩
  obtain ⟨-, t, ht, dv⟩ := nv okV
  obtain ⟨w, hw, fw, nw⟩ := series_reads ht dv
  refine ⟨w, hw, fun h => fails w (fw h), fun okW => ?_⟩
  obtain ⟨f, t, hf, -, ht, dw⟩ := nw okW
  obtain ⟨x, hval, hend⟩ := exchangeJudged_validates d f ht
  rw [← dw] at hend
  exact ⟨f, x, hf, hval, hx.trans hend⟩

end Sys2Proof.Machine
end

section
/-! Oversize payloads: `encode` and `issue` reject them with nothing written and nothing sent (R67, R144). -/

namespace Sys2Proof.Machine

/-- `issue` from idle of a payload that does not fit ends at its `encode`: nothing but CC has changed (R101, R144). -/
theorem issue_rejects (tfi : Byte) {p : List Byte} {s : State} (hi : s.link.ts = .idle) (h : ¬ fits s.cfg p = true) :
    issue tfi p s = ⟨{ s with cc := .failed }, .encodeReject, []⟩ := by
  have hput : putFrame tfi p { s with cc := .issuing } = ⟨{ s with cc := .issuing }, .encodeReject, []⟩ := if_neg h
  rw [issue, if_neg (not_not.mpr hi), hput]
  rfl

theorem exec_issue_rejects (tfi : Option Byte) {p : List Byte} {s : State} (hi : s.link.ts = .idle)
    (h : ¬ fits s.cfg p = true) : exec (.issue tfi p) s =
      .next (({ s with cc := .failed } : State).returned .encodeReject .none { op := .issue, tfi := tfiOr tfi }) := by
  show ((issue (tfiOr tfi) p s).finishAs _).next .none = _
  rw [issue_rejects _ hi h, Reply.finishAs_encodeReject]
  rfl

/-- Settles O29: an oversize payload does not fit, so `encode` and, from idle, `issue` reject it; in an open stream the
phase test of `issue` comes before its `encode`. -/
theorem oversizePayloadsAreRejected : Obligations.OversizePayloadsAreRejected := by
  intro tfi p s hover
  have hfit : ¬ fits s.cfg p = true := by
    rw [fits_iff]
    omega
  exact ⟨⟨_, exec_encode_rejects _ hfit⟩, fun hi => ⟨_, exec_issue_rejects tfi hi hfit⟩,
    fun hs => ⟨_, exec_issue_refused tfi p hs⟩⟩

end Sys2Proof.Machine
end

section
/-! What `initialize` leaves, whatever the record, and its defaults on a complete one (R6, R27, R160, R161). -/

namespace Sys2Proof.Machine

/-! ## What `initialize` abandons -/

theorem Link.release_draws (l : Link) : l.release.draws = l.draws := by
  unfold Link.release
  split <;> rfl

theorem Link.release_answers (l : Link) : l.release.answers = l.answers := by
  unfold Link.release
  split <;> rfl

/-- `Release()` makes one event, exactly where select is asserted (R81). -/
theorem Link.release_trace (l : Link) : l.release.trace = l.trace ++ if l.sel = .asserted then [.rel] else [] := by
  cases h : l.sel with
  | asserted => simp [Link.release_asserted h]
  | released => simp [Link.release_released h]

/-! ## The registers -/

theorem initializeBlock_cfg (g : CfgArg) (s : State) : (initializeBlock g s).st.cfg = resolveCfg g s.link.draws :=
  congrArg (resolveCfg g) s.link.release_draws

/-- Bytes written from offset 0 of an empty TXBUF are canonical and no offset past them is listed. -/
theorem Memory.fill_within (bs : List Byte) :
    (Memory.writeBytes [] 0 bs).wf ∧ ∀ x ∈ Memory.writeBytes [] 0 bs, x.1 < bs.length := by
  refine ⟨Memory.wf_writeBytes ⟨.nil, nofun⟩ 0 bs, fun x hx => ?_⟩
  rcases Memory.mem_writeBytes hx with h | ⟨-, h⟩
  · cases h
  · omega

/-- What `initialize` leaves in TXBUF is within the new TX_CAP (R12, R27). -/
theorem initializeBlock_mem (g : CfgArg) (s : State) :
    (initializeBlock g s).st.tx.mem.wf ∧
      ∀ x ∈ (initializeBlock g s).st.tx.mem, x.1 < (initializeBlock g s).st.cfg.txCap := by
  obtain ⟨hwf, hlt⟩ := Memory.fill_within
    ((s.link.release.freeCfg g).2.freeBytes (s.link.release.freeCfg g).1.txCap).1
  rw [Link.freeBytes_length] at hlt
  exact ⟨hwf, hlt⟩

theorem initializeBlock_ackbuf_length (g : CfgArg) (s : State) : (initializeBlock g s).st.ackbuf.length = 6 :=
  Link.freeBytes_length ..

/-- What `initialize` leaves is `State.initialized`, the values R27 leaves unspecified and the latch being its own. -/
theorem initializeBlock_st {g : CfgArg} {s t : State} (ht : (initializeBlock g s).st = t) :
    t = { s.initialized t.cfg t.link.cnt t.link.draws t.tx.mem t.poll.status t.ackbuf with latch := t.latch } := by
  subst ht
  simp [initializeBlock, State.initialized, Link.release_trace, Link.release_answers]

theorem Reply.next_finish_ok (t : State) (d : List Byte) (out : Output) :
    (Reply.finish ⟨t, .ok, d⟩).next out = .next (t.returned .ok out t.latch) := by
  simp [Reply.finish, Reply.next, State.returned]

/-- Whatever the record, `initialize` returns `Ok` and gives the host nothing (R160, R161). -/
theorem exec_initializeBlock {g : CfgArg} {s t : State} (ht : (initializeBlock g s).st = t) :
    exec (.initializeBlock g) s = .next
      ((s.initialized t.cfg t.link.cnt t.link.draws t.tx.mem t.poll.status t.ackbuf).returned .ok .none t.latch) :=
  calc exec (.initializeBlock g) s
    _ = .next (t.returned .ok .none t.latch) := ht ▸ Reply.next_finish_ok (initializeBlock g s).st [] .none
    _ = _ := congrArg (fun u : State => (.next (u.returned .ok .none t.latch) : StepOutcome)) (initializeBlock_st ht)

/-! ## A complete record -/

theorem resolveMaxPd_of_le {given : Option Nat} (h : given.getD 254 ≤ 254) (free : Nat) :
    resolveMaxPd given free = given.getD 254 := inRangeOr_true h ..

theorem resolveTxCap_of_ge {given : Option Nat} {maxPd : Nat} (h : 8 ≤ given.getD (maxPd + 8)) (free : Nat) :
    resolveTxCap given maxPd free = given.getD (maxPd + 8) := inRangeOr_true h ..

theorem resolveInterval_of_pos {given : Option Nat} (h : 1 ≤ given.getD 10) (free : Nat) :
    resolveInterval given free = given.getD 10 := inRangeOr_true h ..

/-- A complete record within the ranges of R6 is stored with its defaults, and no free value (R6, R21). -/
theorem resolveCfg_complete {g : CfgArg} {o : BitOrder} {rp sp du : Byte} (k : Nat) (ho : g.bitOrder = some o)
    (hrp : g.readPrime = some rp) (hsp : g.statusProbe = some sp) (hdu : g.dummy = some du)
    (hpd : g.maxPd.getD 254 ≤ 254) (hcap : 8 ≤ g.txCap.getD (g.maxPd.getD 254 + 8)) (hivl : 1 ≤ g.defaultInterval.getD 10) :
    resolveCfg g k = {
      bitOrder := o, maxPd := g.maxPd.getD 254, txCap := g.txCap.getD (g.maxPd.getD 254 + 8),
      tSettle := g.tSettle.getD 5, tProbe := g.tProbe.getD 0, readPrime := rp, statusProbe := sp, dummy := du,
      writePrime := g.writePrime, readyMask := 0x01, readyValue := true, defaultTimeout := g.defaultTimeout.getD 1000,
      defaultInterval := g.defaultInterval.getD 10 } := by
  rw [resolveCfg, resolveMaxPd_of_le hpd, resolveTxCap_of_ge hcap, resolveInterval_of_pos hivl, ho, hrp, hsp, hdu]
  rfl

/-- Settles O34: the CFG that `initialize` leaves is the record's, and what R27 leaves unspecified is what `initialize`
drew. -/
theorem initializeResetsTheBlock : Obligations.InitializeResetsTheBlock := by
  intro g o rp sp du s ho hrp hsp hdu hpd hcap hivl
  have hcfg := (initializeBlock_cfg g s).trans (resolveCfg_complete _ ho hrp hsp hdu hpd hcap hivl)
  obtain ⟨hwf, hlt⟩ := initializeBlock_mem g s
  have hexec := exec_initializeBlock (rfl : (initializeBlock g s).st = _)
  rw [hcfg] at hlt hexec
  exact ⟨_, _, _, _, _, _, hwf, hlt, initializeBlock_ackbuf_length g s, hexec⟩

end Sys2Proof.Machine
end

section
/-! The round trip of the encoding: every instruction by its own row (R46 to R59, R124, R128). -/

namespace Sys2Proof

/-- The request a well-formed instruction is encoded as names it, whatever its row. -/
theorem encode_names (i : Instr) : Laws.Roundtrip.Statement i := by
  cases i with
  | nif f => exact Laws.Roundtrip.nif f
  | nifH2C f => exact Laws.Roundtrip.nifH2C f
  | nifC2H f => exact Laws.Roundtrip.nifC2H f
  | ackFrame => exact Laws.Roundtrip.ackFrame
  | nackFrame => exact Laws.Roundtrip.nackFrame
  | writeTxn bytes => exact Laws.Roundtrip.writeTxn bytes
  | readTxn len => exact Laws.Roundtrip.readTxn len
  | statusTxn => exact Laws.Roundtrip.statusTxn
  | statusByte b => exact Laws.Roundtrip.statusByte b
  | encode tfi p => exact Laws.Roundtrip.encode tfi p
  | validate f => exact Laws.Roundtrip.validate f
  | decode f => exact Laws.Roundtrip.decode f
  | writeFrame bytes => exact Laws.Roundtrip.writeFrame bytes
  | beginRead len => exact Laws.Roundtrip.beginRead len
  | continueRead len => exact Laws.Roundtrip.continueRead len
  | endRead => exact Laws.Roundtrip.endRead
  | readAll len => exact Laws.Roundtrip.readAll len
  | issue tfi p => exact Laws.Roundtrip.issue tfi p
  | pollReady tmo ivl => exact Laws.Roundtrip.pollReady tmo ivl
  | readResponse len st co => exact Laws.Roundtrip.readResponse len st co
  | readResponseFull len => exact Laws.Roundtrip.readResponseFull len
  | readResponseOpen len => exact Laws.Roundtrip.readResponseOpen len
  | readResponseContinue len => exact Laws.Roundtrip.readResponseContinue len
  | readResponseClose len => exact Laws.Roundtrip.readResponseClose len
  | initializeBlock g => exact Laws.Roundtrip.initializeBlock g
  | reservedB low => exact Laws.Roundtrip.reservedB low
  | reservedC low => exact Laws.Roundtrip.reservedC low
  | reservedD low => exact Laws.Roundtrip.reservedD low
  | reservedE low => exact Laws.Roundtrip.reservedE low
  | probe => exact Laws.Roundtrip.probe
  | isAck b => exact Laws.Roundtrip.isAck b
  | isNack b => exact Laws.Roundtrip.isNack b
  | headerOk h => exact Laws.Roundtrip.headerOk h
  | detect => exact Laws.Roundtrip.detect
  | bind tag => exact Laws.Roundtrip.bind tag
  | authenticate target k blk key => exact Laws.Roundtrip.authenticate target k blk key
  | readBlock target blk => exact Laws.Roundtrip.readBlock target blk
  | writeBlock target blk data => exact Laws.Roundtrip.writeBlock target blk data

/-- Settles O57: the request names the instruction, and the decoder gives back what is named and well formed. -/
theorem decodeOfEncodeIsTheInstruction : Obligations.DecodeOfEncodeIsTheInstruction := fun i hw =>
  decode_of_shape (encode_names i hw) hw

end Sys2Proof
end

section
/-! What each instruction can write, said once over every property of the state: a property that the parts an
instruction runs (its checks, its exchanges, its polls, its `issue`) keep is kept by the instruction. -/

namespace Sys2Proof.Machine

/-! ## Properties of the state -/

/-- `P` does not look at what every return writes: RESULT and the mark of R175, what the host is given, the operand
latch (R13, R16, R20). -/
def ReturnFree (P : State → Prop) : Prop :=
  ∀ (s : State) (r : Result) (mark : Bool) (out : Output) (l : Latch),
    P s → P { s with result := r, seqFaulted := mark, output := out, latch := l }

section
variable {P : State → Prop} (hP : ReturnFree P)
include hP

theorem ReturnFree.output {s : State} (h : P s) (out : Output) : P { s with output := out } :=
  hP s s.result s.seqFaulted out s.latch h

theorem ReturnFree.finish {q : Reply} (h : P q.st) : P q.finish.st :=
  hP q.st q.res _ q.st.output q.st.latch h

theorem ReturnFree.finishAs {q : Reply} (h : P q.st) (l : Latch) : P (q.finishAs l).st := by
  unfold Reply.finishAs
  split
  · exact hP.finish h
  · exact hP.finish (hP q.st q.st.result q.st.seqFaulted q.st.output l h)

/-- A link row run alone keeps what its transaction keeps, completed, failed or refused (R80, R145). -/
theorem ReturnFree.whenIdle {s : State} (hs : P s) {q : Reply} (h : P q.st) : P (s.whenIdle q).st := by
  unfold State.whenIdle
  split
  · unfold Reply.bare
    split
    · exact h
    · exact hP.finish h
  · exact hP.finish (q := ⟨s, .seqFault, []⟩) hs

end

/-! ## Series of operations -/

theorem opIssue_result (tfi : Option Byte) (p : List Byte) (s : State) :
    (opIssue tfi p s).st.result = (opIssue tfi p s).res := by
  simp [opIssue]

theorem opPollReady_result (tmo ivl : Option Nat) (s : State) :
    (opPollReady tmo ivl s).st.result = (opPollReady tmo ivl s).res := by
  simp [opPollReady]

section
variable {P : State → Prop}

/-- A series at an operation that has returned: it ends there, or goes on where the operation returned `Ok`. -/
theorem Reply.proceed_keeps {q : Reply} (hres : q.st.result = q.res) (hq : P q.st) {bad : Result → Output}
    {cont : List Byte → State → Done} (hcont : q.st.result = .ok → P (cont q.data q.st).st) :
    P (q.proceed bad cont).st := by
  unfold Reply.proceed
  split
  · exact hq
  · exact hcont (hres.trans (not_not.mp ‹_›))

/-- `issue` and the second wait, which begins only after an `Ok` (R120). -/
theorem issueAndWait_keeps {p : List Byte} {s : State} (hissue : P (opIssue (some Config.tfiH2C) p s).st)
    (hpoll : ∀ u : State, u.result = .ok → P u → P (opPollReady none none u).st) : P (issueAndWait p s).st := by
  unfold issueAndWait
  dsimp only
  split
  · exact hpoll _ ((opIssue_result ..).trans (And.left ‹_›)) hissue
  · exact hissue

theorem issueAndWait_result (p : List Byte) (s : State) : (issueAndWait p s).st.result = (issueAndWait p s).res := by
  unfold issueAndWait
  dsimp only
  split
  · exact opPollReady_result ..
  · exact opIssue_result ..

section
variable (hread : ∀ (len : Nat) (co : Bool) (u : State), u.result = .ok → P u → P (opReadResponse len false co u).st)
include hread

/-- Chunks (b) to (e) of `detect`: reads of the open stream, each after one that returned `Ok` (R123). -/
theorem detectTarget_keeps (a : List Byte) {s : State} (hok : s.result = .ok) (hs : P s) : P (detectTarget a s).st := by
  have hres := fun len co u => opReadResponse_result len false co u
  by_cases hh : headerOk a = true
  · by_cases h0 : byteAt a 7 = 0
    · rw [detectTarget_noTag hh h0]
      exact hread 0 true s hok hs
    · rw [detectTarget_reads hh h0]
      refine Reply.proceed_keeps (hres ..) (hread _ _ s hok hs) fun okX => ?_
      have hX := hread 5 false s hok hs
      generalize (opReadResponse 5 false false s).data = b at *
      generalize (opReadResponse 5 false false s).st = x at *
      by_cases hl : (byteAt b 4).toNat ∈ [4, 7, 10]
      · rw [detectUid_reads hl]
        have hY := hread (byteAt b 4).toNat (!iso14443_4 (byteAt b 3)) x okX hX
        refine Reply.proceed_keeps (hres ..) hY fun okY => ?_
        split
        · rw [detectAts_eq]
          have hZ := hread 1 false _ okY hY
          exact Reply.proceed_keeps (hres ..) hZ fun okZ =>
            Reply.proceed_keeps (hres ..) (hread _ true _ okZ hZ) fun _ => hread _ true _ okZ hZ
        · exact hY
      · rw [detectUid_malformed hl]
        exact hread 0 true x okX hX
  · rw [detectTarget_badHeader hh]
    exact hread 0 true s hok hs

end

/-- The operations that follow `issue` in a series, each begun after one that returned `Ok`, keep `P` (R123, R129). -/
structure SeriesKeep (P : State → Prop) : Prop where
  poll : ∀ u : State, u.result = .ok → P u → P (opPollReady none none u).st
  read : ∀ (len : Nat) (st co : Bool) (u : State), u.result = .ok → P u → P (opReadResponse len st co u).st

/-- `detect` keeps what its operations keep (R123). -/
theorem detect_keeps (hP : SeriesKeep P) {s : State}
    (hissue : P (opIssue (some Config.tfiH2C) (detectPayload s.consumer) s).st) : P (detect s).st := by
  rw [detect_eq]
  have hw := issueAndWait_keeps hissue hP.poll
  refine Reply.proceed_keeps (issueAndWait_result ..) hw fun okW => ?_
  have ha := hP.read 8 true false _ okW hw
  exact Reply.proceed_keeps (opReadResponse_result ..) ha fun okA =>
    detectTarget_keeps (fun len co => hP.read len false co) _ okA ha

/-- So does the exchange of a session operation, which ends with `validate` (R129). -/
theorem exchange_keeps (hP : SeriesKeep P)
    (hval : ∀ (f : List Byte) (u : State), u.result = .ok → P u → P (opValidate f u).st) {p : List Byte} {d : Nat}
    {s : State} (hissue : P (opIssue (some Config.tfiH2C) p s).st) : P (exchange p d s).st := by
  rw [exchange_eq]
  have hw := issueAndWait_keeps hissue hP.poll
  refine Reply.proceed_keeps (issueAndWait_result ..) hw fun okW => ?_
  have hr := hP.read (10 + d) true true _ okW hw
  exact Reply.proceed_keeps (opReadResponse_result ..) hr fun okR => hval _ _ okR hr

end

/-! ## The link's trace, whatever a link operation does -/

/-- The events of `l'` are those of `l` and more (R37). -/
def Link.Extends (l l' : Link) : Prop := ∃ evs, l'.trace = l.trace ++ evs

theorem Link.Grew.extends {k : Nat} {l l' : Link} (h : Link.Grew k l l') : l.Extends l' := by
  obtain ⟨evs, htrace, -⟩ := h
  exact ⟨evs, htrace⟩

theorem Link.Extends.trans {a b c : Link} (h : a.Extends b) (k : b.Extends c) : a.Extends c := by
  obtain ⟨e, he⟩ := h
  obtain ⟨f, hf⟩ := k
  exact ⟨e ++ f, by rw [hf, he, List.append_assoc]⟩

theorem Link.Extends.of_trace {l l' : Link} (h : l'.trace = l.trace) : l.Extends l' := ⟨[], by simp [h]⟩

/-! ## `issue` -/

/-- `issue` keeps what its parts keep: its writes of CC, `encode`'s, those of its link operations and of its poll, and
the latching of the ACK (R100, R101). -/
theorem issue_keeps {P : State → Prop} (hcc : ∀ (s : State) (c : CC), P s → P { s with cc := c })
    (htx : ∀ (s : State) (t : TxBuf), P s → P { s with tx := t })
    (hlink : ∀ (s : State) (l : Link), s.link.Extends l → P s → P { s with link := l })
    (hpoll : ∀ (s : State) (p : Poll), P s → P { s with poll := p })
    (hack : ∀ (s : State) (a : List Byte), P s → P (latchAck a s)) (tfi : Byte) (p : List Byte) {s : State} (hs : P s) :
    P (issue tfi p s).st := by
  have hAck : ∀ s : State, P s → P (issueAck s).st := fun s hs => by
    unfold issueAck
    dsimp only
    have hr := hlink s _ (readAll_grew s.cfg Config.ackLen s.link).extends hs
    split
    · exact hcc _ _ hr
    · split <;> exact hcc _ _ (hack _ _ hr)
  have hPoll : ∀ s : State, P s → P (issuePoll s).st := fun s hs => by
    unfold issuePoll
    dsimp only
    have hr := hpoll _ (pollReady s.cfg s.cfg.defaultTimeout s.cfg.defaultInterval s.link s.poll).poll
      (hlink s _ (pollReady_bound s.cfg s.cfg.defaultTimeout s.cfg.defaultInterval s.link s.poll).1.extends hs)
    split
    · exact hcc _ _ hr
    · exact hAck _ (hcc _ _ hr)
  have hWrite : ∀ s : State, P s → P (issueWrite s).st := fun s hs => by
    unfold issueWrite
    dsimp only
    have hr := hlink s _ (writeFrame_grew s.cfg s.tx.contents s.link).extends hs
    split
    · exact hcc _ _ hr
    · exact hPoll _ (hcc _ _ hr)
  unfold issue
  split
  · exact hs
  · have hs' := hcc s .issuing hs
    rcases putFrame_cases tfi p { s with cc := .issuing } with ⟨-, hp⟩ | ⟨-, hp⟩ <;> rw [hp]
    · exact hWrite _ (htx _ _ hs')
    · exact hcc _ _ hs'

/-! ## Every instruction -/

/-- `P` is kept by everything instruction `i` may write: the codec's verdicts where `i` judges a frame, TXBUF where it
is `encode` or runs `issue`, more events on the link where it has access to it, and so on. A part whose writes `P`
does not look at need not be named. -/
structure PartsKeep (P : State → Prop) (i : Instr) : Prop where
  check : judges i = true → ∀ (s : State) (x y : Bool), P s → P { s with lcsOk := x, dcsOk := y } := by
    intros; assumption
  tx : (acks i = true ∨ ∃ t p, i = .encode t p) → ∀ (s : State) (t : TxBuf), P s → P { s with tx := t } := by
    intros; assumption
  link : offLink i = false → ∀ (s : State) (l : Link), s.link.Extends l → P s → P { s with link := l } := by
    intros; assumption
  poll : probes i = true → ∀ (s : State) (p : Poll), P s → P { s with poll := p } := by intros; assumption
  cc : acks i = true → ∀ (s : State) (c : CC), P s → P { s with cc := c } := by intros; assumption
  ack : acks i = true → ∀ (s : State) (a : List Byte), P s → P (latchAck a s) := by intros; assumption
  init : resets i = true → ∀ (g : CfgArg) (s : State), P s → P (initializeBlock g s).st := by intros; assumption
  bind : ∀ r, i = .bind r → ∀ s : State, P s → P { s with session := sessionOf r } := by intros; assumption

section
variable {P : State → Prop} {i : Instr}

theorem PartsKeep.onLink (hi : PartsKeep P i) (hl : offLink i = false) {s : State} (hs : P s) {r : LinkReply}
    (hr : s.link.Extends r.link) : P (s.onLink r).st :=
  hi.link hl s r.link hr hs

theorem PartsKeep.onPoll (hi : PartsKeep P i) (hl : offLink i = false) (hp : probes i = true) {s : State} (hs : P s)
    {r : PollReply} (hr : s.link.Extends r.link) : P (s.onPoll r).st :=
  hi.poll hp _ r.poll (hi.link hl s r.link hr hs)

variable (hP : ReturnFree P) (hi : PartsKeep P i)
include hP hi

theorem PartsKeep.opPollReady (hl : offLink i = false) (hp : probes i = true) (tmo ivl : Option Nat) {s : State}
    (hs : P s) : P (opPollReady tmo ivl s).st :=
  hP.finishAs (hi.onPoll hl hp hs (pollReady_bound ..).1.extends) _

theorem PartsKeep.opReadResponse (hl : offLink i = false) (len : Nat) (st co : Bool) {s : State} (hs : P s) :
    P (opReadResponse len st co s).st :=
  hP.finishAs (hi.onLink hl hs (readResponse_grew ..).extends) _

theorem PartsKeep.opIssue (hl : offLink i = false) (hp : probes i = true) (ha : acks i = true) (tfi : Option Byte)
    (p : List Byte) {s : State} (hs : P s) : P (opIssue tfi p s).st :=
  hP.finishAs (issue_keeps (hi.cc ha) (hi.tx (.inl ha)) (hi.link hl) (hi.poll hp) (hi.ack ha) _ p hs) _

theorem PartsKeep.opValidate (hj : judges i = true) (f : List Byte) {s : State} (hs : P s) : P (opValidate f s).st :=
  hP.finishAs (hi.check hj s _ _ hs) _

theorem PartsKeep.series (hl : offLink i = false) (hp : probes i = true) : SeriesKeep P where
  poll _ _ hu := hi.opPollReady hP hl hp none none hu
  read len st co _ _ hu := hi.opReadResponse hP hl len st co hu

theorem PartsKeep.exchange (hl : offLink i = false) (hp : probes i = true) (ha : acks i = true) (hj : judges i = true)
    (p : List Byte) (d : Nat) {s : State} (hs : P s) : P (exchange p d s).st :=
  exchange_keeps (hi.series hP hl hp) (fun f _ _ hu => hi.opValidate hP hj f hu) (hi.opIssue hP hl hp ha _ p hs)

end

section
variable {P : State → Prop} (hP : ReturnFree P)
include hP

theorem Reply.next_keeps {q : Reply} {out : Output} {t : State} (h : q.next out = .next t) (hq : P q.st) : P t := by
  rw [Reply.next, Host.Outcome.next.injEq] at h
  exact h ▸ hP.output hq out

theorem Done.next_keeps {d : Done} {t : State} (h : d.next = .next t) (hd : P d.st) : P t := by
  rw [Done.next, Host.Outcome.next.injEq] at h
  exact h ▸ hP.output hd d.out

/-- An instruction keeps what its parts keep. -/
theorem exec_keeps {i : Instr} (hi : PartsKeep P i) {s t : State} (h : exec i s = .next t) (hs : P s) : P t := by
  cases i with
  | ackFrame | nackFrame | statusByte | isAck | isNack | headerOk =>
    exact Host.Outcome.next.inj h ▸ hP.output hs _
  | bind r => exact Host.Outcome.next.inj h ▸ hP.output (hi.bind r rfl s hs) _
  | reservedB | reservedC | reservedD | reservedE =>
    exact Reply.next_keeps hP h (hP.finish (q := ⟨s, .seqFault, []⟩) hs)
  | nif | nifC2H | validate | decode => exact Reply.next_keeps hP h (hP.finishAs (hi.check rfl s _ _ hs) _)
  | encode tfi p =>
    refine Reply.next_keeps hP h (hP.finishAs ?_ _)
    rcases putFrame_cases tfi p s with ⟨-, hp⟩ | ⟨-, hp⟩ <;> rw [hp]
    · exact hi.tx (.inr ⟨tfi, p, rfl⟩) s _ hs
    · exact hs
  | nifH2C bytes | writeFrame bytes =>
    exact Reply.next_keeps hP h (hP.finishAs (hi.onLink rfl hs (writeFrame_grew ..).extends) _)
  | beginRead => exact Reply.next_keeps hP h (hP.finishAs (hi.onLink rfl hs (beginRead_grew ..).extends) _)
  | continueRead => exact Reply.next_keeps hP h (hP.finishAs (hi.onLink rfl hs (continueRead_grew ..).extends) _)
  | endRead => exact Reply.next_keeps hP h (hP.finishAs (hi.onLink rfl hs (Link.grew_release _).extends) _)
  | readAll => exact Reply.next_keeps hP h (hP.finishAs (hi.onLink rfl hs (readAll_grew ..).extends) _)
  | readResponse | readResponseFull | readResponseOpen | readResponseContinue | readResponseClose =>
    exact Reply.next_keeps hP h (hi.opReadResponse hP rfl _ _ _ hs)
  | writeTxn => exact Reply.next_keeps hP h (hP.whenIdle hs (hi.onLink rfl hs (writeTxn_grew ..).extends))
  | readTxn =>
    exact Reply.next_keeps hP h (hP.whenIdle hs (hi.onLink rfl hs (closeAfter_grew (openRead_grew ..)).extends))
  | statusTxn => exact Reply.next_keeps hP h (hP.whenIdle hs (hi.onLink rfl hs (statusTxn_grew ..).extends))
  | probe => exact Reply.next_keeps hP h (hP.whenIdle hs (hi.onPoll rfl rfl hs (probe_grew ..).extends))
  | pollReady => exact Reply.next_keeps hP h (hi.opPollReady hP rfl rfl _ _ hs)
  | issue => exact Reply.next_keeps hP h (hi.opIssue hP rfl rfl rfl _ _ hs)
  | initializeBlock g => exact Reply.next_keeps hP h (hP.finish (hi.init rfl g s hs))
  | detect => exact Done.next_keeps hP h (detect_keeps (hi.series hP rfl rfl) (hi.opIssue hP rfl rfl rfl _ _ hs))
  | authenticate | readBlock | writeBlock => exact Done.next_keeps hP h (hi.exchange hP rfl rfl rfl rfl _ _ hs)

end

end Sys2Proof.Machine
end

section
/-! The invariant between operations: every operation leaves it, whatever it began with and however it ends, and so does
every series of operations and every step. -/

namespace Sys2Proof.Machine

/-! ## The part of the invariant that RESULT does not enter -/

/-- The results of an operation that began and failed on the link (R92, R146). -/
abbrev Result.Aborted (r : Result) : Prop := r = .transportError ∨ r = .timeoutError ∨ r = .ackMismatch

theorem Result.Aborted.not_ok {r : Result} (h : r.Aborted) : r ≠ .ok := by
  rintro rfl
  exact absurd h (by decide)

theorem Result.Aborted.not_seqFault {r : Result} (h : r.Aborted) : r ≠ .seqFault := by
  rintro rfl
  exact absurd h (by decide)

/-- The clauses of `State.Inv` that say nothing of RESULT. -/
structure State.Steady (s : State) : Prop where
  link : s.link.Quiet
  channel : s.cc = .idle ∨ s.cc = .acked ∨ s.cc = .failed
  tx : s.tx.within s.cfg.txCap
  ackbuf : s.ackbuf.length = Config.ackLen
  ack : s.ackOk = true → s.ackbuf = Config.ackFrame
  checks : s.dcsOk = true → s.lcsOk = true
  cfg : s.cfg.legal

theorem State.Inv.steady {s : State} (h : s.Inv) : s.Steady :=
  ⟨⟨h.settled, h.traced⟩, h.channel, h.tx, h.ackbuf, h.ack, h.checks, h.cfg⟩

theorem State.Steady.inv {s : State} (h : s.Steady) (failed : s.result.Aborted → s.link.ts = .idle)
    (misuse : s.result = .seqFault → s.seqFaulted = true) : s.Inv :=
  ⟨h.link.settled, h.link.traced, h.channel, h.tx, h.ackbuf, h.ack, h.checks, failed, h.cfg, misuse⟩

theorem steady_returnFree : ReturnFree State.Steady := fun _ _ _ _ _ h =>
  ⟨h.link, h.channel, h.tx, h.ackbuf, h.ack, h.checks, h.cfg⟩

/-- What the host holds beside the block is no part of the invariant (R13, R127, R172). -/
theorem State.Inv.host {s : State} (h : s.Inv) (out : Output) (rest : List Request) (sess : Session) :
    ({ s with output := out, requests := rest, session := sess } : State).Inv :=
  ⟨h.settled, h.traced, h.channel, h.tx, h.ackbuf, h.ack, h.checks, h.failed, h.cfg, h.misuse⟩

/-! ## What an operation may reply -/

/-- An operation, before it returns: nothing is amiss, and one that failed has closed its transaction (R146). -/
structure Reply.Sound (q : Reply) : Prop where
  steady : q.st.Steady
  failed : q.res.Aborted → q.st.link.ts = .idle

theorem Reply.Sound.finish {q : Reply} (h : q.Sound) : q.finish.st.Inv :=
  (steady_returnFree.finish h.steady).inv h.failed fun hr => by
    rw [Reply.finish_result] at hr
    simp [hr]

theorem Reply.Sound.finishAs {q : Reply} (h : q.Sound) (l : Latch) : (q.finishAs l).st.Inv :=
  (steady_returnFree.finishAs h.steady l).inv (by simpa using h.failed) fun hr => by
    rw [Reply.finishAs_result] at hr
    simp [hr]

/-- A refused request changes nothing (R93, R145). -/
theorem State.Steady.refuse {s : State} (h : s.Steady) (d : List Byte) : (Reply.mk s .seqFault d).Sound :=
  ⟨h, fun hr => absurd rfl hr.not_seqFault⟩

/-! ## The link's operations -/

/-- What a link operation leaves, refused or not: a quiet link, idle after a failure of its own (R92, R145, R146). -/
structure LinkReply.Sound (r : LinkReply) : Prop where
  quiet : r.link.Quiet
  failed : r.res.Aborted → r.link.ts = .idle

theorem LinkReply.Kept.sound {r : LinkReply} (h : r.Kept) : r.Sound := ⟨h.quiet, fun hr => h.failed hr.not_ok⟩

theorem Link.Quiet.refuse {l : Link} (h : l.Quiet) : (l.refuse .seqFault).Sound :=
  ⟨h, fun hr => absurd rfl hr.not_seqFault⟩

theorem closeAfter_sound {r : LinkReply} (h : r.Sound) : (closeAfter r).Sound := by
  refine ⟨closeAfter_quiet h.quiet, fun hr => ?_⟩
  rw [(closeAfter_res r).1] at hr
  rw [closeAfter, if_neg hr.not_ok]
  exact h.failed hr

section
variable (cfg : Cfg) {l : Link} (h : l.Quiet)
include h

theorem writeFrame_sound (bytes : List Byte) : (writeFrame cfg bytes l).Sound := by
  unfold writeFrame
  split
  · exact (writeTxn_kept cfg bytes h ‹_›).1.sound
  · exact h.refuse

theorem beginRead_sound (len : Nat) : (beginRead cfg len l).Sound := by
  unfold beginRead
  split
  · exact (openRead_kept cfg len h ‹_›).1.sound
  · exact h.refuse

theorem continueRead_sound (len : Nat) : (continueRead cfg len l).Sound := by
  unfold continueRead
  split
  · exact (readBytes_kept cfg len ((h.streaming ‹_›).expect len) ‹_›).1.sound
  · exact h.refuse

theorem readResponse_sound (len : Nat) (st co : Bool) : (readResponse cfg len st co l).Sound := by
  have hread : (responseRead cfg len st l).Sound := by
    cases st
    · exact continueRead_sound cfg h len
    · exact beginRead_sound cfg h len
  cases co
  · exact hread
  · exact closeAfter_sound hread

/-- A poll leaves the phase as it was, and is refused in any but `Idle`: so it is idle after a failure (R103). -/
theorem pollReady_failed (timeout interval : Nat) (p : Poll)
    (hr : (pollReady cfg timeout interval l p).res.Aborted) : (pollReady cfg timeout interval l p).link.ts = .idle := by
  rw [(pollReady_quiet cfg timeout interval p h).2]
  by_contra hts
  exact hr.not_seqFault (congrArg PollReply.res (if_pos (.inl hts)))

end

/-! ## The parts of an operation -/

section
variable {s : State} (h : s.Steady)
include h

theorem State.Steady.onLink {r : LinkReply} (hr : r.Sound) : (s.onLink r).Sound :=
  ⟨⟨hr.quiet, h.channel, h.tx, h.ackbuf, h.ack, h.checks, h.cfg⟩, hr.failed⟩

theorem State.Steady.onPoll {r : PollReply} (hq : r.link.Quiet) (hf : r.res.Aborted → r.link.ts = .idle) :
    (s.onPoll r).Sound :=
  ⟨⟨hq, h.channel, h.tx, h.ackbuf, h.ack, h.checks, h.cfg⟩, hf⟩

/-- A frame that fits is loaded within TX_CAP (R12, R67). -/
theorem State.Steady.load {f : List Byte} (hf : f.length ≤ s.cfg.txCap) :
    ({ s with tx := s.tx.load f } : State).Steady := by
  obtain ⟨hwf, hcells, -⟩ := h.tx
  refine ⟨h.link, h.channel, ⟨Memory.wf_writeBytes hwf 0 f, fun c hc => ?_, hf⟩, h.ackbuf, h.ack, h.checks, h.cfg⟩
  show c.1 < s.cfg.txCap
  rcases Memory.mem_writeBytes hc with hold | ⟨-, hnew⟩
  · exact hcells c hold
  · omega

theorem State.Steady.loadFrame (tfi : Byte) {p : List Byte} (hf : fits s.cfg p = true) :
    ({ s with tx := s.tx.load (buildFrame tfi p) } : State).Steady :=
  h.load (by rw [buildFrame_length]; exact fits_cap hf)

theorem State.Steady.putFrame (tfi : Byte) (p : List Byte) : (putFrame tfi p s).Sound := by
  rcases putFrame_cases tfi p s with ⟨hf, hp⟩ | ⟨-, hp⟩ <;> rw [hp]
  · exact ⟨h.loadFrame tfi hf, by simp⟩
  · exact ⟨h, by simp⟩

/-- DCS_OK is set only where LCS_OK is (R68). -/
theorem State.Steady.checkFrame (f : List Byte) : (checkFrame f s).Sound :=
  ⟨⟨h.link, h.channel, h.tx, h.ackbuf, h.ack, fun hd => ((frameDcsOk_iff f).mp hd).1, h.cfg⟩,
    by simp [Machine.checkFrame]⟩

end

/-! ## `issue` -/

/-- ACK_OK is written with ACKBUF, as the comparison of it with the ACK (R19, R104). -/
theorem issue_ack (tfi : Byte) (p : List Byte) {s : State} (h : s.ackOk = true → s.ackbuf = Config.ackFrame) :
    (issue tfi p s).st.ackOk = true → (issue tfi p s).st.ackbuf = Config.ackFrame :=
  issue_keeps (P := fun t => t.ackOk = true → t.ackbuf = Config.ackFrame) (fun _ _ h => h) (fun _ _ h => h)
    (fun _ _ _ h => h) (fun _ _ h => h) (fun _ a _ => (isAck_iff a).mp) tfi p h

theorem State.Steady.issue {s : State} (h : s.Steady) (tfi : Byte) (p : List Byte) : (issue tfi p s).Sound := by
  rcases issue_cases tfi p h.link with ⟨-, he⟩ | ⟨-, -, he⟩ | ⟨-, hf, hi⟩
  · rw [he]
    exact h.refuse []
  · rw [he]
    exact ⟨⟨h.link, .inr (.inr rfl), h.tx, h.ackbuf, h.ack, h.checks, h.cfg⟩, by simp⟩
  · have hload := h.loadFrame tfi hf
    obtain ⟨htx, hcfg, -, -, -, hlcs, hdcs, -⟩ := hi.same
    refine ⟨⟨hi.quiet, ?_, ?_, hi.ackbuf h.ackbuf, issue_ack tfi p h.ack, ?_, ?_⟩, fun _ => hi.idle⟩
    · rcases hi.channel with ⟨-, hc⟩ | ⟨-, hc⟩ <;> simp [hc]
    · rw [htx, hcfg]
      exact hload.tx
    · rw [hlcs, hdcs]
      exact h.checks
    · rw [hcfg]
      exact h.cfg

/-! ## `initialize` -/

/-- `initialize` leaves the link released, whatever was open (R161). -/
theorem initializeBlock_quiet (g : CfgArg) {s : State} (h : s.link.Quiet) : (initializeBlock g s).st.link.Quiet := by
  obtain ⟨hq, hi⟩ := h.release
  refine ⟨.inl ⟨rfl, rfl⟩, ?_⟩
  have htrace := (hq.idle hi).2
  rw [← initializeBlock_trace g s] at htrace
  exact htrace

theorem initializeBlock_sound (g : CfgArg) {s : State} (h : s.link.Quiet) : (initializeBlock g s).Sound := by
  obtain ⟨hwf, hcells⟩ := initializeBlock_mem g s
  exact ⟨⟨initializeBlock_quiet g h, .inl rfl, ⟨hwf, hcells, Nat.zero_le _⟩, initializeBlock_ackbuf_length g s, nofun,
    nofun, initializeBlock_cfg_legal g s⟩, fun _ => rfl⟩

/-! ## Operations and series of them -/

theorem opIssue_inv (tfi : Option Byte) (p : List Byte) {s : State} (h : s.Inv) : (opIssue tfi p s).st.Inv :=
  (h.steady.issue _ p).finishAs _

theorem opPollReady_inv (tmo ivl : Option Nat) {s : State} (h : s.Inv) : (opPollReady tmo ivl s).st.Inv :=
  (h.steady.onPoll (pollReady_quiet _ _ _ _ h.steady.link).1 (pollReady_failed _ h.steady.link _ _ _)).finishAs _

theorem opReadResponse_inv (len : Nat) (st co : Bool) {s : State} (h : s.Inv) : (opReadResponse len st co s).st.Inv :=
  (h.steady.onLink (readResponse_sound _ h.steady.link len st co)).finishAs _

theorem opValidate_inv (f : List Byte) {s : State} (h : s.Inv) : (opValidate f s).st.Inv :=
  (h.steady.checkFrame f).finishAs _

theorem series_inv : SeriesKeep State.Inv where
  poll _ _ h := opPollReady_inv none none h
  read len st co _ _ h := opReadResponse_inv len st co h

theorem detect_inv {s : State} (h : s.Inv) : (detect s).st.Inv := detect_keeps series_inv (opIssue_inv _ _ h)

theorem exchange_inv (p : List Byte) (d : Nat) {s : State} (h : s.Inv) : (exchange p d s).st.Inv :=
  exchange_keeps series_inv (fun f _ _ hu => opValidate_inv f hu) (opIssue_inv _ p h)

/-- A link row run alone: its transaction, begun from idle, ends idle, and RESULT is the failure's or left (log 13). -/
theorem State.Inv.whenIdle {s : State} (h : s.Inv) {q : Reply}
    (hq : s.link.ts = .idle → q.st.Steady ∧ q.st.link.ts = .idle)
    (hresult : q.st.result = s.result) (hmark : q.st.seqFaulted = s.seqFaulted) : (s.whenIdle q).st.Inv := by
  unfold State.whenIdle
  split
  · obtain ⟨hsteady, hts⟩ := hq ‹_›
    unfold Reply.bare
    split
    · exact hsteady.inv (fun _ => hts) (by rw [hresult, hmark]; exact h.misuse)
    · exact Reply.Sound.finish ⟨hsteady, fun _ => hts⟩
  · exact (h.steady.refuse []).finish

/-! ## The statement -/

theorem Reply.next_inv {q : Reply} {out : Output} {t : State} (h : q.next out = .next t) (hq : q.st.Inv) : t.Inv := by
  rw [Reply.next, Host.Outcome.next.injEq] at h
  exact h ▸ hq.host out _ _

theorem Done.next_inv {d : Done} {t : State} (h : d.next = .next t) (hd : d.st.Inv) : t.Inv := by
  rw [Done.next, Host.Outcome.next.injEq] at h
  exact h ▸ hd.host d.out _ _

theorem exec_inv {i : Instr} {s t : State} (h : exec i s = .next t) (hs : s.Inv) : t.Inv := by
  have hq := hs.steady.link
  cases i with
  | ackFrame | nackFrame | statusByte | isAck | isNack | headerOk | bind =>
    exact Host.Outcome.next.inj h ▸ hs.host _ _ _
  | reservedB | reservedC | reservedD | reservedE => exact Reply.next_inv h (hs.steady.refuse []).finish
  | nif f | nifC2H f | validate f | decode f => exact Reply.next_inv h ((hs.steady.checkFrame f).finishAs _)
  | encode tfi p => exact Reply.next_inv h ((hs.steady.putFrame tfi p).finishAs _)
  | nifH2C bytes | writeFrame bytes =>
    exact Reply.next_inv h ((hs.steady.onLink (writeFrame_sound _ hq bytes)).finishAs _)
  | beginRead len => exact Reply.next_inv h ((hs.steady.onLink (beginRead_sound _ hq len)).finishAs _)
  | continueRead len => exact Reply.next_inv h ((hs.steady.onLink (continueRead_sound _ hq len)).finishAs _)
  | endRead => exact Reply.next_inv h ((hs.steady.onLink ⟨hq.release.1, fun _ => hq.release.2⟩).finishAs _)
  | readAll len => exact Reply.next_inv h ((hs.steady.onLink (closeAfter_sound (beginRead_sound _ hq len))).finishAs _)
  | readResponse | readResponseFull | readResponseOpen | readResponseContinue | readResponseClose =>
    exact Reply.next_inv h (opReadResponse_inv _ _ _ hs)
  | writeTxn bytes =>
    refine Reply.next_inv h (hs.whenIdle (fun hi => ?_) rfl rfl)
    obtain ⟨hk, hts, -⟩ := writeTxn_kept s.cfg bytes hq hi
    exact ⟨(hs.steady.onLink hk.sound).steady, hts⟩
  | readTxn len =>
    refine Reply.next_inv h (hs.whenIdle (fun hi => ?_) rfl rfl)
    obtain ⟨hk, hts⟩ := closeAfter_kept (openRead_kept s.cfg len hq hi).1
    exact ⟨(hs.steady.onLink hk.sound).steady, hts⟩
  | statusTxn =>
    refine Reply.next_inv h (hs.whenIdle (fun hi => ?_) rfl rfl)
    obtain ⟨hq', hts⟩ := statusTxn_quiet s.cfg hq hi
    exact ⟨(hs.steady.onLink ⟨hq', fun _ => hts⟩).steady, hts⟩
  | probe =>
    refine Reply.next_inv h (hs.whenIdle (fun hi => ?_) rfl rfl)
    obtain ⟨hq', hts⟩ := probe_quiet s.cfg s.poll hq hi
    exact ⟨(hs.steady.onPoll hq' fun _ => hts).steady, hts⟩
  | pollReady tmo ivl => exact Reply.next_inv h (opPollReady_inv tmo ivl hs)
  | issue tfi p => exact Reply.next_inv h (opIssue_inv tfi p hs)
  | initializeBlock g => exact Reply.next_inv h (initializeBlock_sound g hq).finish
  | detect => exact Done.next_inv h (detect_inv hs)
  | authenticate | readBlock | writeBlock => exact Done.next_inv h (exchange_inv _ _ hs)

/-- A request that is no instruction is refused by the block, or the machine stops (R59, log 18). -/
theorem rejectRequest_inv {e : DecodeError} {s t : State} (h : rejectRequest e s = .next t) (hs : s.Inv) : t.Inv := by
  cases e with
  | reservedBits w => exact Reply.next_inv h (hs.steady.refuse []).finish
  | notOneByte | noSuchFrame | noSuchSequence | illFormed => cases h

/-- Settles O52: waiting changes nothing, and a request taken is executed or rejected. -/
theorem stepKeepsTheInvariant : Obligations.StepKeepsTheInvariant := by
  intro s t hs h
  unfold step at h
  split at h
  · cases h
    exact hs
  · have hs' := hs.host s.output ‹_› s.session
    unfold State.serve at h
    split at h
    · exact exec_inv h hs'
    · exact rejectRequest_inv h hs'

/-- Settles O53: at reset TXBUF is empty, no flag is set, and the link is idle with an empty trace. -/
theorem resetHasTheInvariant : Obligations.ResetHasTheInvariant where
  settled := .inl ⟨rfl, rfl⟩
  traced := rfl
  channel := .inl rfl
  tx := ⟨Memory.wf_nil, nofun, Nat.zero_le _⟩
  ackbuf := rfl
  ack := nofun
  checks := nofun
  failed := fun _ => rfl
  cfg := by unfold Cfg.legal; decide
  misuse := nofun

end Sys2Proof.Machine
end

section
/-! Which instruction writes which register: the frames over every instruction (R12, R15, R17 to R19, R21, R30, R37). -/

namespace Sys2Proof.Machine

/-! ## What an instruction runs -/

theorem acks_eq_commandOf (s : State) (i : Instr) : acks i = (commandOf s i).isSome := by
  cases i <;> rfl

theorem not_acks_of_commandOf {s : State} {i : Instr} (h : commandOf s i = none) : ¬ acks i = true := by
  simp [acks_eq_commandOf s i, h]

/-! ## One register each -/

/-- Settles O45: of what an instruction runs, only `issue` and `initialize` write CC. -/
theorem onlyIssueMovesTheChannel : Obligations.OnlyIssueMovesTheChannel := by
  intro i s t h hcmd hinit
  have hacks := not_acks_of_commandOf hcmd
  have parts : PartsKeep (fun u => u.cc = s.cc) i :=
    { cc := fun ha => absurd ha hacks
      ack := fun ha => absurd ha hacks
      init := fun hr => absurd hr (ne_true_of_eq_false hinit) }
  exact exec_keeps (fun _ _ _ _ _ hu => hu) parts h rfl

/-- Settles O48: of what an instruction runs, only its polls and `initialize` write the poll registers. -/
theorem onlyProbesWriteThePollRegisters : Obligations.OnlyProbesWriteThePollRegisters := by
  intro i s t h hprobes hinit
  have hprobes := ne_true_of_eq_false hprobes
  have parts : PartsKeep (fun u => u.poll = s.poll) i :=
    { poll := fun hp => absurd hp hprobes
      init := fun hr => absurd hr (ne_true_of_eq_false hinit) }
  exact exec_keeps (fun _ _ _ _ _ hu => hu) parts h rfl

/-- Settles O47: LCS_OK and DCS_OK are written by the checks of a frame, ACK_OK and ACKBUF by the latching of the ACK in
`issue`, and all four by `initialize`. -/
theorem verdictFlagsHaveTheirWriters : Obligations.VerdictFlagsHaveTheirWriters := by
  intro i s t h hinit
  have hinit := ne_true_of_eq_false hinit
  constructor
  · intro hjudges
    have parts : PartsKeep (fun u => u.lcsOk = s.lcsOk ∧ u.dcsOk = s.dcsOk) i :=
      { check := fun hj => absurd hj (ne_true_of_eq_false hjudges)
        init := fun hr => absurd hr hinit }
    exact exec_keeps (fun _ _ _ _ _ hu => hu) parts h ⟨rfl, rfl⟩
  · intro hacks
    have parts : PartsKeep (fun u => u.ackOk = s.ackOk ∧ u.ackbuf = s.ackbuf) i :=
      { ack := fun ha => absurd ha (ne_true_of_eq_false hacks)
        init := fun hr => absurd hr hinit }
    exact exec_keeps (fun _ _ _ _ _ hu => hu) parts h ⟨rfl, rfl⟩

/-! ## The link -/

/-- Settles O50: what has no access to the link makes no probe, runs no `issue` and is not `initialize`. -/
theorem offLinkInstructionsMakeNoEvent : Obligations.OffLinkInstructionsMakeNoEvent := by
  intro i s t h hoff
  have parts : PartsKeep (fun u => u.link = s.link) i :=
    { link := fun hl => absurd hoff (ne_true_of_eq_false hl)
      init := fun hr => by cases i <;> simp [resets, offLink] at hr hoff }
  exact exec_keeps (fun _ _ _ _ _ hu => hu) parts h rfl

/-- Settles O51: every operation on the link extends its trace, and `initialize` releases it. -/
theorem traceIsAppendOnly : Obligations.TraceIsAppendOnly := by
  intro i s t h
  have parts : PartsKeep (fun u => s.link.Extends u.link) i :=
    { link := fun _ _ _ hl hu => hu.trans hl
      init := fun _ g u hu => hu.trans ⟨_, (initializeBlock_trace g u).trans u.link.release_trace⟩ }
  exact exec_keeps (fun _ _ _ _ _ hu => hu) parts h (Link.Extends.of_trace rfl)

/-! ## CFG and the host's records -/

/-- Settles O49: CFG is written by `initialize` alone, the session by `bind` alone, and the rest by nothing. -/
theorem configurationIsFixed : Obligations.ConfigurationIsFixed := by
  intro i s t h
  have hcfg : resets i = false → t.cfg = s.cfg := fun hr => exec_cfg (by rintro g rfl; cases hr) h
  have parts : PartsKeep (fun u => u.consumer = s.consumer ∧ u.requests = s.requests) i := {}
  obtain ⟨hconsumer, hrequests⟩ := exec_keeps (fun _ _ _ _ _ hu => hu) parts h ⟨rfl, rfl⟩
  refine ⟨hcfg, hconsumer, hrequests, fun hbind => ?_⟩
  have parts : PartsKeep (fun u => u.session = s.session) i :=
    { bind := fun r hr => absurd hr (hbind r) }
  exact exec_keeps (fun _ _ _ _ _ hu => hu) parts h rfl

/-! ## TXBUF -/

/-- An instruction that runs `issue` leaves in TXBUF what that leaves (R12, R101). -/
theorem exec_command_tx {i : Instr} {s t : State} {tfi : Byte} {p : List Byte} (h : exec i s = .next t)
    (hcmd : commandOf s i = some (tfi, p)) : t.tx = (issue tfi p s).st.tx := by
  have hfree : ReturnFree (fun u => u.tx = (issue tfi p s).st.tx) := fun _ _ _ _ _ hu => hu
  have hissue : ∀ o, tfiOr o = tfi → (opIssue o p s).st.tx = (issue tfi p s).st.tx := by
    rintro o rfl
    exact Reply.finishAs_tx ..
  have hseries : SeriesKeep (fun u => u.tx = (issue tfi p s).st.tx) :=
    { poll := fun _ _ hu => hfree.finishAs (q := State.onPoll _ _) hu _
      read := fun len st co u _ hu => (opReadResponse_kept len st co u).tx.trans hu }
  have hval : ∀ (f : List Byte) (u : State), u.result = .ok → u.tx = (issue tfi p s).st.tx →
      (opValidate f u).st.tx = (issue tfi p s).st.tx := fun f u _ hu => hfree.finishAs (q := checkFrame f u) hu _
  cases i with
  | issue o q =>
    obtain ⟨rfl, rfl⟩ : tfiOr o = tfi ∧ q = p := by simpa [commandOf] using hcmd
    exact Reply.next_keeps hfree h (hissue o rfl)
  | detect =>
    obtain ⟨rfl, rfl⟩ : Config.tfiH2C = tfi ∧ detectPayload s.consumer = p := by simpa [commandOf] using hcmd
    exact Done.next_keeps hfree h (detect_keeps hseries (hissue _ rfl))
  | authenticate | readBlock | writeBlock =>
    obtain ⟨rfl, rfl⟩ := Prod.mk.inj (Option.some.inj hcmd)
    exact Done.next_keeps hfree h (exchange_keeps hseries hval (hissue _ rfl))
  | _ => cases hcmd

/-- Settles O46: of what an instruction runs, only `encode`, `issue` and `initialize` write TXBUF, and `issue` writes
its one frame there or nothing. -/
theorem onlyEncodeWritesTxbuf : Obligations.OnlyEncodeWritesTxbuf := by
  intro i s t h
  constructor
  · intro hencode hcmd hinit
    have hacks := not_acks_of_commandOf hcmd
    have parts : PartsKeep (fun u => u.tx = s.tx) i :=
      { tx := fun hi => by
          rcases hi with ha | ⟨x, p, hx⟩
          · exact absurd ha hacks
          · exact absurd hx (hencode x p)
        init := fun hr => absurd hr (ne_true_of_eq_false hinit) }
    have htx : t.tx = s.tx := exec_keeps (fun _ _ _ _ _ hu => hu) parts h rfl
    exact ⟨fun a => by rw [htx], by rw [htx]⟩
  · intro tfi p hcmd hwf
    obtain ⟨-, -, -, -, -, -, -, hkept, hloaded⟩ := issue_frame tfi p s
    rw [← exec_command_tx h hcmd] at hkept hloaded
    constructor
    · rintro ⟨hi, hfits⟩
      rw [hloaded hi ((fits_iff s.cfg p).mpr hfits)]
      refine ⟨TxBuf.contents_load hwf _, buildFrame_length tfi p, fun a ha => TxBuf.byte_load_past hwf _ ?_⟩
      rwa [buildFrame_length]
    · intro hne
      have htx : t.tx = s.tx := hkept (by
        rw [← Bool.not_eq_true, fits_iff]
        tauto)
      exact ⟨fun a => by rw [htx], by rw [htx]⟩

end Sys2Proof.Machine
end

section
/-! The mark of misuse (R145, R175, log 3): an operation sets it exactly where it returns `SeqFault`, and nothing clears
it. -/

namespace Sys2Proof.Machine

/-- An operation begun in `s` has returned in `t`: the run is marked if it was, or if RESULT is now `SeqFault`. -/
def State.MarkedFrom (s t : State) : Prop := t.seqFaulted = (s.seqFaulted || t.result == .seqFault)

theorem State.MarkedFrom.iff {s t : State} (h : s.MarkedFrom t) :
    t.seqFaulted = true ↔ s.seqFaulted = true ∨ t.result = .seqFault := by
  rw [h]
  simp

theorem Reply.finish_marked {s : State} {q : Reply} (h : q.st.seqFaulted = s.seqFaulted) :
    s.MarkedFrom q.finish.st := by
  simp [State.MarkedFrom, h]

theorem Reply.finishAs_marked {s : State} {q : Reply} (h : q.st.seqFaulted = s.seqFaulted) (l : Latch) :
    s.MarkedFrom (q.finishAs l).st := by
  simp [State.MarkedFrom, h]

/-- A series goes on only after an `Ok`, which is no mark, so the mark is the last operation's or an older one. -/
theorem State.MarkedFrom.trans {s u t : State} (h : s.MarkedFrom u) (hok : u.result = .ok) (k : u.MarkedFrom t) :
    s.MarkedFrom t := by
  have hu : u.seqFaulted = s.seqFaulted := by
    rw [h, hok]
    exact Bool.or_false _
  rwa [State.MarkedFrom, hu] at k

theorem opIssue_marked (tfi : Option Byte) (p : List Byte) (s : State) : s.MarkedFrom (opIssue tfi p s).st := by
  obtain ⟨-, -, -, -, -, -, hmark, -⟩ := issue_frame (tfiOr tfi) p s
  exact Reply.finishAs_marked hmark _

theorem opPollReady_marked (tmo ivl : Option Nat) (s : State) : s.MarkedFrom (opPollReady tmo ivl s).st :=
  Reply.finishAs_marked (q := s.onPoll _) rfl _

theorem opReadResponse_marked (len : Nat) (st co : Bool) (s : State) : s.MarkedFrom (opReadResponse len st co s).st :=
  Reply.finishAs_marked (q := s.onLink _) rfl _

theorem opValidate_marked (f : List Byte) (s : State) : s.MarkedFrom (opValidate f s).st :=
  Reply.finishAs_marked (q := checkFrame f s) rfl _

theorem series_marked (s : State) : SeriesKeep s.MarkedFrom where
  poll u hok hu := hu.trans hok (opPollReady_marked none none u)
  read len st co u hok hu := hu.trans hok (opReadResponse_marked len st co u)

theorem detect_marked (s : State) : s.MarkedFrom (detect s).st := detect_keeps (series_marked s) (opIssue_marked ..)

theorem exchange_marked (p : List Byte) (d : Nat) (s : State) : s.MarkedFrom (exchange p d s).st :=
  exchange_keeps (series_marked s) (fun f u hok hu => hu.trans hok (opValidate_marked f u)) (opIssue_marked ..)

/-- What an instruction leaves of RESULT and the mark: nothing returned and both are as before, or an operation or a
series has returned. -/
def State.MarkOf (s t : State) : Prop := t.result = s.result ∧ t.seqFaulted = s.seqFaulted ∨ s.MarkedFrom t

theorem State.whenIdle_markOf {s : State} {q : Reply} (hresult : q.st.result = s.result)
    (hmark : q.st.seqFaulted = s.seqFaulted) : s.MarkOf (s.whenIdle q).st := by
  unfold State.whenIdle
  split
  · unfold Reply.bare
    split
    · exact .inl ⟨hresult, hmark⟩
    · exact .inr (Reply.finish_marked hmark)
  · exact .inr (Reply.finish_marked (q := ⟨s, .seqFault, []⟩) rfl)

theorem Reply.next_markOf {q : Reply} {out : Output} {s t : State} (h : q.next out = .next t) (hq : s.MarkOf q.st) :
    s.MarkOf t := by
  rw [Reply.next, Host.Outcome.next.injEq] at h
  exact h ▸ hq

theorem Done.next_markOf {d : Done} {s t : State} (h : d.next = .next t) (hd : s.MarkOf d.st) : s.MarkOf t := by
  rw [Done.next, Host.Outcome.next.injEq] at h
  exact h ▸ hd

theorem exec_markOf {i : Instr} {s t : State} (h : exec i s = .next t) : s.MarkOf t := by
  cases i with
  | ackFrame | nackFrame | statusByte | isAck | isNack | headerOk | bind =>
    exact Host.Outcome.next.inj h ▸ .inl ⟨rfl, rfl⟩
  | reservedB | reservedC | reservedD | reservedE | initializeBlock =>
    exact Reply.next_markOf h (.inr (Reply.finish_marked rfl))
  | encode tfi p =>
    refine Reply.next_markOf h (.inr (Reply.finishAs_marked ?_ _))
    rcases putFrame_cases tfi p s with ⟨-, hp⟩ | ⟨-, hp⟩ <;> rw [hp]
  | nif | nifC2H | validate | decode | nifH2C | writeFrame | beginRead | continueRead | endRead | readAll =>
    exact Reply.next_markOf h (.inr (Reply.finishAs_marked rfl _))
  | readResponse | readResponseFull | readResponseOpen | readResponseContinue | readResponseClose =>
    exact Reply.next_markOf h (.inr (opReadResponse_marked ..))
  | writeTxn | readTxn | statusTxn | probe => exact Reply.next_markOf h (State.whenIdle_markOf rfl rfl)
  | pollReady => exact Reply.next_markOf h (.inr (opPollReady_marked ..))
  | issue => exact Reply.next_markOf h (.inr (opIssue_marked ..))
  | detect => exact Done.next_markOf h (.inr (detect_marked s))
  | authenticate | readBlock | writeBlock => exact Done.next_markOf h (.inr (exchange_marked ..))

theorem State.not_endedCleanly_of_marked {t : State} (h : t.seqFaulted = true) : ¬ t.endedCleanly := by
  rintro ⟨-, -, -, hclean⟩
  simp [h] at hclean

/-- Settles O59: the mark is the older one or this instruction's `SeqFault`, and a marked run has not ended cleanly. -/
theorem misuseNeverEndsCleanly : Obligations.MisuseNeverEndsCleanly := by
  intro i s t h
  have marked : t.seqFaulted = true → t.seqFaulted = true ∧ ¬ t.endedCleanly := fun hm =>
    ⟨hm, State.not_endedCleanly_of_marked hm⟩
  obtain ⟨-, -, hrequests, -⟩ := configurationIsFixed i s t h
  have hmark := exec_markOf h
  refine ⟨fun hs => marked ?_, fun ht hs => marked ?_, fun hs ht => ?_⟩
  · rcases hmark with ⟨-, hm⟩ | hm
    · rw [hm, hs]
    · exact hm.iff.mpr (.inl hs)
  · rcases hmark with ⟨hr, -⟩ | hm
    · exact absurd (hr.symm.trans ht) hs
    · exact hm.iff.mpr (.inr ht)
  · have hclean : t.seqFaulted = false := by
      rcases hmark with ⟨-, hm⟩ | hm
      · rw [hm, hs]
      · rw [← Bool.not_eq_true, hm.iff]
        simp [hs, ht]
    exact ⟨hclean, fun hts hsel hr => ⟨hrequests.trans hr, hts, hsel, hclean⟩⟩

end Sys2Proof.Machine
end

section
/-! Which steps there are: every instruction has a next state, and a step is the instruction its request decodes to
(R37, R59, R172, log 18). -/

namespace Sys2Proof.Machine

theorem exec_next (i : Instr) (s : State) : ∃ t, exec i s = .next t := by
  cases i <;> exact ⟨_, rfl⟩

/-- Settles O54, from the definition of `step` and the decoder's own check of what it gives. -/
theorem stepRunsTheDecodedInstruction : Obligations.StepRunsTheDecodedInstruction := by
  refine ⟨fun r rest i s hr hd => ⟨(decode_shape hd).2, ?_⟩, fun s hs => ?_⟩
  · rw [step, hr]
    simp only [State.serve, hd]
  · rw [step, hs]

/-- A request, once taken, is served or is no request of the spec (log 18). -/
theorem State.serve_cases (r : Request) (s : State) : (∃ t, State.serve r s = .next t) ∨
    ∃ e, decode r = .error e ∧ (∀ w, e ≠ .reservedBits w) ∧ State.serve r s = .refused .noSuchRequest := by
  unfold State.serve
  cases hd : decode r with
  | ok i => exact .inl (exec_next i s)
  | error e =>
    cases e with
    | reservedBits w => exact .inl ⟨_, rfl⟩
    | notOneByte | noSuchFrame | noSuchSequence | illFormed => exact .inr ⟨_, rfl, nofun, rfl⟩

/-- Settles O55: an instruction's execution is always a next state, so a step stops only on what it cannot decode. -/
theorem onlyAMalformedRequestStops : Obligations.OnlyAMalformedRequestStops := by
  refine ⟨exec_next, fun s => ?_⟩
  unfold step
  split
  · exact .inl ⟨s, rfl⟩
  · rename_i r rest hr
    rcases State.serve_cases r { s with requests := rest } with hnext | ⟨e, hd, he, hstop⟩
    · exact .inl hnext
    · exact .inr ⟨r, rest, e, hr, hd, he, hstop⟩

/-- Settles O56, word by word. -/
theorem wordsOfTheSpecDecode : Obligations.WordsOfTheSpecDecode := by
  unfold Obligations.WordsOfTheSpecDecode
  decide

/-- Settles O36: the values are those `State.reset` is written with. -/
theorem resetIsIdleAndReleased : Obligations.ResetIsIdleAndReleased := by
  unfold Obligations.ResetIsIdleAndReleased
  decide

/-- Settles O33: in a configuration within its ranges READY is bit 0 of the byte. -/
theorem statusByteAlone : Obligations.StatusByteAlone := by
  intro b s hleg
  rw [← readyOf_legal hleg b]
  rfl

end Sys2Proof.Machine
end

section
/-! What makes a frame well formed, and what the codec makes of a frame with one byte changed (R72 to R76). -/

namespace Sys2Proof.Machine

/-! ## Bytes of a changed string -/

@[simp] theorem slice_length (s : List Byte) (a b : Nat) : (slice s a b).length = min (b - a) (s.length - a) := by
  simp [slice]

theorem byteAt_set_ne {f : List Byte} {i j : Nat} (h : i ≠ j) (b : Byte) : byteAt (f.set i b) j = byteAt f j := by
  simp [byteAt, List.getElem?_set_ne h]

theorem byteAt_set_self {f : List Byte} {i : Nat} (h : i < f.length) (b : Byte) : byteAt (f.set i b) i = b := by
  simp [byteAt, h]

/-- A slice sees no change outside it. -/
theorem slice_set_outside {f : List Byte} {i x y : Nat} (h : i < x ∨ y ≤ i) (b : Byte) :
    slice (f.set i b) x y = slice f x y := by
  rcases h with h | h
  · rw [slice, List.drop_set_of_lt h, slice]
  · by_cases hx : i < x
    · rw [slice, List.drop_set_of_lt hx, slice]
    · rw [slice, List.drop_set, if_neg hx, List.take_set_of_le (by omega), slice]

/-- Inside it, a slice is changed at one place. -/
theorem slice_set_inside {f : List Byte} {i x y : Nat} (h : x ≤ i) (b : Byte) :
    slice (f.set i b) x y = (slice f x y).set (i - x) b := by
  rw [slice, List.drop_set, if_neg (by omega), List.take_set, slice]

theorem byteAt_slice {f : List Byte} {x y i : Nat} (h : x + i < y) : byteAt (slice f x y) i = byteAt f (x + i) := by
  have hi : i < y - x := by omega
  simp [byteAt, slice, hi]

/-- One byte changed changes the sum (R65). -/
theorem sum8_set_ne {s : List Byte} {i : Nat} (hi : i < s.length) {b : Byte} (hb : b ≠ byteAt s i) :
    sum8 (s.set i b) ≠ sum8 s := by
  induction s generalizing i with
  | nil => exact absurd hi (Nat.not_lt_zero i)
  | cons x s ih =>
    cases i with
    | zero =>
      have hne : b.toNat ≠ x.toNat := fun h => hb (BitVec.eq_of_toNat_eq h)
      have hlt := b.isLt
      have hlt' := x.isLt
      rw [List.set_cons_zero, sum8_cons, sum8_cons]
      omega
    | succ i =>
      have hne := ih (Nat.lt_of_succ_lt_succ hi) hb
      have hlt := sum8_lt s
      have hlt' := sum8_lt (s.set i b)
      rw [List.set_cons_succ, sum8_cons, sum8_cons]
      omega

/-! ## Well-formed frames -/

/-- The three conditions of a well-formed frame: LCS, the length, and the sum of TFI, payload and DCS (R62, R68). -/
structure WellFormedFrame (f : List Byte) : Prop where
  lcs : ((byteAt f 3).toNat + (byteAt f 4).toNat) % 256 = 0
  len : 1 ≤ (byteAt f 3).toNat
  length : f.length = (byteAt f 3).toNat + 7
  sum : sum8 (slice f 5 (6 + (byteAt f 3).toNat)) = 0

/-- The string DCS is the check of, and DCS itself, are one slice (R66). -/
theorem slice_snoc {f : List Byte} {x y : Nat} (hx : x ≤ y) (hy : y < f.length) :
    slice f x (y + 1) = slice f x y ++ [byteAt f y] := by
  have h1 : y + 1 - x = y - x + 1 := by omega
  have h2 : y - x < (f.drop x).length := by simp; omega
  have h3 : x + (y - x) = y := by omega
  rw [slice, h1, List.take_add_one, List.getElem?_eq_getElem h2]
  simp [slice, byteAt, h3, hy]

theorem frameValid_iff_wellFormed (f : List Byte) : frameValid f = true ↔ WellFormedFrame f := by
  rw [frameValid_iff, frameDcsOk_iff, frameLcsOk_iff]
  have hsum : f.length = (byteAt f 3).toNat + 7 → sum8 (slice f 5 (6 + (byteAt f 3).toNat)) =
      (sum8 (slice f 5 (5 + (byteAt f 3).toNat)) + (byteAt f (5 + (byteAt f 3).toNat)).toNat) % 256 := fun hl => by
    rw [show 6 + (byteAt f 3).toNat = 5 + (byteAt f 3).toNat + 1 by omega, slice_snoc (by omega) (by omega),
      sum8_append]
    simp [sum8]
  constructor
  · rintro ⟨⟨-, hlcs⟩, -, hlen, hl, hdcs⟩
    exact ⟨hlcs, hlen, hl, (hsum hl).trans hdcs⟩
  · rintro ⟨hlcs, hlen, hl, hs⟩
    have h8 : 8 ≤ f.length := by omega
    exact ⟨⟨h8, hlcs⟩, ⟨h8, hlcs⟩, hlen, hl, (hsum hl).symm.trans hs⟩

/-! ## One byte changed -/

section
variable {f : List Byte} (hf : WellFormedFrame f) {i : Nat} {b : Byte}
include hf

/-- A constant changed: no condition looks at it (R74). -/
theorem WellFormedFrame.set_constant (hi : i < 3 ∨ i = 6 + (byteAt f 3).toNat) : WellFormedFrame (f.set i b) := by
  have hlen := hf.len
  have h3 : byteAt (f.set i b) 3 = byteAt f 3 := byteAt_set_ne (by omega) b
  have h4 : byteAt (f.set i b) 4 = byteAt f 4 := byteAt_set_ne (by omega) b
  constructor
  · rw [h3, h4]
    exact hf.lcs
  · rwa [h3]
  · rw [h3, List.length_set]
    exact hf.length
  · rw [h3, slice_set_outside (by omega)]
    exact hf.sum

/-- LEN is fixed by the length, LCS by LEN, and each byte from the TFI to DCS by the sum with the others (R74). -/
theorem WellFormedFrame.not_set_checked (hi : 3 ≤ i) (hi' : i ≤ 5 + (byteAt f 3).toNat) (hb : b ≠ byteAt f i) :
    ¬ WellFormedFrame (f.set i b) := by
  intro hg
  have hl := hf.length
  have hlt : i < f.length := by omega
  have hself := byteAt_set_self hlt b
  have hne : b.toNat ≠ (byteAt f i).toNat := fun h => hb (BitVec.eq_of_toNat_eq h)
  by_cases h3 : i = 3
  · subst h3
    have hgl := hg.length
    rw [hself, List.length_set] at hgl
    omega
  have hg3 : byteAt (f.set i b) 3 = byteAt f 3 := byteAt_set_ne h3 b
  by_cases h4 : i = 4
  · subst h4
    have hlcs := hf.lcs
    have hglcs := hg.lcs
    rw [hg3, hself] at hglcs
    have := b.isLt
    have := (byteAt f 4).isLt
    omega
  have hgsum := hg.sum
  rw [hg3, slice_set_inside (by omega)] at hgsum
  refine sum8_set_ne ?_ ?_ (hgsum.trans hf.sum.symm)
  · rw [slice_length]
    omega
  · rwa [byteAt_slice (by omega), show 5 + (i - 5) = i by omega]

end

/-! ## Built frames -/

/-- A built frame from LEN to DCS, between the constants (R46, R47). -/
def frameBody (t : Byte) (p : List Byte) : List Byte :=
  [BitVec.ofNat 8 (p.length + 1), lcs (BitVec.ofNat 8 (p.length + 1)), t] ++ p ++ [dcs t p]

theorem buildFrame_eq_body (t : Byte) (p : List Byte) :
    buildFrame t p = [0x00, 0x00, 0xFF] ++ frameBody t p ++ [0x00] := by
  simp [buildFrame, frameBody, Config.preamble, Config.start1, Config.start2, Config.postamble]

@[simp] theorem frameBody_length (t : Byte) (p : List Byte) : (frameBody t p).length = p.length + 4 := by
  simp [frameBody]

/-- What `encode` builds is well formed (R72). -/
theorem buildFrame_wellFormed (t : Byte) {p : List Byte} (hp : p.length ≤ 254) : WellFormedFrame (buildFrame t p) := by
  have hlen := buildFrame_len t p hp
  have hbody := buildFrame_body t p hp
  have hdcs := buildFrame_dcs t p hp
  constructor
  · exact neg8_cancels _
  · omega
  · rw [hlen, buildFrame_length]
  · rw [show 6 + (byteAt (buildFrame t p) 3).toNat = 5 + (byteAt (buildFrame t p) 3).toNat + 1 by omega,
      slice_snoc (by omega) (by rw [buildFrame_length]; omega), hbody, hdcs, dcs_eq, sum8_append]
    have := neg8_cancels (sum8 (t :: p))
    simpa [sum8] using this

theorem slice_all (f : List Byte) : slice f 0 f.length = f := by
  simp [slice]

theorem slice_cons {f : List Byte} {x y : Nat} (hx : x < y) (hf : x < f.length) :
    slice f x y = byteAt f x :: slice f (x + 1) y := by
  rw [slice, List.drop_eq_getElem_cons hf, show y - x = y - (x + 1) + 1 by omega, List.take_succ_cons, slice]
  simp [byteAt, hf]

theorem slice_append {f : List Byte} {x y z : Nat} (hx : x ≤ y) (hy : y ≤ z) :
    slice f x y ++ slice f y z = slice f x z := by
  have hdrop : f.drop y = (f.drop x).drop (y - x) := by rw [List.drop_drop, show x + (y - x) = y by omega]
  rw [slice, slice, slice, hdrop, ← List.take_add, show y - x + (z - y) = z - x by omega]

/-- The last byte of a frame (R46). -/
theorem WellFormedFrame.last {f : List Byte} (hf : WellFormedFrame f) :
    byteAt f (f.length - 1) = byteAt f (6 + (byteAt f 3).toNat) := by
  have hl := hf.length
  rw [show f.length - 1 = 6 + (byteAt f 3).toNat by omega]

section
variable {f : List Byte} (hf : WellFormedFrame f) {t : Byte} {p : List Byte}
  (hp : p = slice f 6 (5 + (byteAt f 3).toNat)) (ht : t = byteAt f 5)
include hf hp

theorem WellFormedFrame.payload_length : p.length + 1 = (byteAt f 3).toNat := by
  have hl := hf.length
  have hlen := hf.len
  rw [hp, slice_length]
  omega

include ht

/-- From LEN to DCS a well-formed frame is what `encode` builds of its TFI and payload (R73). -/
theorem WellFormedFrame.body : slice f 3 (6 + (byteAt f 3).toNat) = frameBody t p := by
  have hl := hf.length
  have hlen := hf.len
  have h3 : byteAt f 3 = BitVec.ofNat 8 (p.length + 1) := by
    rw [hf.payload_length hp, BitVec.ofNat_toNat, BitVec.setWidth_eq]
  have h4 : byteAt f 4 = Machine.lcs (byteAt f 3) := neg8_unique _ _ hf.lcs
  have hsum : slice f 5 (6 + (byteAt f 3).toNat) = t :: p ++ [byteAt f (5 + (byteAt f 3).toNat)] := by
    rw [show 6 + (byteAt f 3).toNat = 5 + (byteAt f 3).toNat + 1 by omega, slice_snoc (by omega) (by omega),
      slice_cons (by omega) (by omega), ht, hp]
  have hdcs : byteAt f (5 + (byteAt f 3).toNat) = dcs t p := by
    have hs := hf.sum
    rw [hsum, sum8_append] at hs
    rw [dcs_eq]
    exact neg8_unique _ _ (by simpa [sum8] using hs)
  rw [slice_cons (by omega) (by omega), slice_cons (by omega) (by omega), hsum, h4, hdcs, h3]
  rfl

/-- So it is what `encode` builds, between its own constants (R73). -/
theorem WellFormedFrame.eq_body : f = slice f 0 3 ++ frameBody t p ++ [byteAt f (f.length - 1)] := by
  have hl := hf.length
  rw [← hf.body hp ht, slice_append (by omega) (by omega), hf.last, ← slice_snoc (by omega) (by omega),
    show 6 + (byteAt f 3).toNat + 1 = f.length by omega, slice_all]

end

theorem byteAt_body {h : List Byte} (hh : h.length = 3) (t : Byte) (p : List Byte) (e : Byte) {i : Nat} (hi : 3 ≤ i)
    (hi' : i < p.length + 7) : byteAt (h ++ frameBody t p ++ [e]) i = byteAt (frameBody t p) (i - 3) := by
  have h1 : i < (h ++ frameBody t p).length := by simp; omega
  simp only [byteAt, List.getD_eq_getElem?_getD]
  rw [List.getElem?_append_left h1, List.getElem?_append_right (by omega), hh]

/-! ## The statements -/

theorem buildFrame_valid (t : Byte) {p : List Byte} (hp : p.length ≤ 254) : frameValid (buildFrame t p) = true :=
  (frameValid_iff_wellFormed _).mpr (buildFrame_wellFormed t hp)

theorem buildFrame_constants (t : Byte) (p : List Byte) : slice (buildFrame t p) 0 3 = [0x00, 0x00, 0xFF] ∧
    byteAt (buildFrame t p) ((buildFrame t p).length - 1) = 0x00 := by
  constructor
  · rfl
  · rw [buildFrame_length, buildFrame_eq_body]
    simp [byteAt]

/-- Settles O4: the frame is the built one, which is well formed. -/
theorem encodedFramesSatisfyTheChecksums : Obligations.EncodedFramesSatisfyTheChecksums := by
  intro t p s hleg hpd hcap
  have hp : p.length ≤ 254 := hpd.trans hleg.1
  have hlen := buildFrame_len t p hp
  have hpay := buildFrame_payload t p hp
  have hdcs := buildFrame_dcs t p hp
  obtain ⟨hfirst, hlast⟩ := buildFrame_constants t p
  rw [hlen, show 5 + (p.length + 1) = 6 + p.length by omega] at hpay hdcs
  refine ⟨_, _, buildFrame t p, exec_encode_fits t ((fits_iff s.cfg p).mpr ⟨hpd, hcap⟩), rfl, buildFrame_length t p,
    hlen, (buildFrame_wellFormed t hp).lcs, ?_, hfirst, hlast, exec_validate _ _,
    congrArg Output.verdict (buildFrame_valid t hp)⟩
  rw [buildFrame_tfi, hpay, hdcs]
  have := neg8_cancels ((t.toNat + sum8 p) % 256)
  unfold dcs
  omega

theorem decodedFrame_buildFrame (t : Byte) {p : List Byte} (hp : p.length ≤ 254) :
    decodedFrame (buildFrame t p) = .accept t p := by
  rw [decodedFrame, if_pos (buildFrame_valid t hp), buildFrame_tfi, buildFrame_payload t p hp]

theorem decodedFrame_accepts {f p : List Byte} {t : Byte} (h : decodedFrame f = .accept t p) :
    WellFormedFrame f ∧ t = byteAt f 5 ∧ p = slice f 6 (5 + (byteAt f 3).toNat) := by
  unfold decodedFrame at h
  split at h
  · obtain ⟨ht, hp⟩ := Output.accept.inj h
    exact ⟨(frameValid_iff_wellFormed f).mp ‹_›, ht.symm, hp.symm⟩
  · cases h

/-- What `encode` makes of an accepted frame's TFI and payload, beside the frame (R73). -/
theorem WellFormedFrame.rebuilt {f p : List Byte} {t : Byte} (hf : WellFormedFrame f) (ht : t = byteAt f 5)
    (hp : p = slice f 6 (5 + (byteAt f 3).toNat)) :
    (slice f 0 3 = [0x00, 0x00, 0xFF] ∧ byteAt f (f.length - 1) = 0x00 → buildFrame t p = f) ∧
    (¬ (slice f 0 3 = [0x00, 0x00, 0xFF] ∧ byteAt f (f.length - 1) = 0x00) → buildFrame t p ≠ f ∧
      (buildFrame t p).length = f.length ∧
      ∀ i, 3 ≤ i → i ≤ 5 + (byteAt f 3).toNat → byteAt (buildFrame t p) i = byteAt f i) := by
  have hl := hf.length
  have hlen := hf.payload_length hp
  have hbody := hf.eq_body hp ht
  constructor
  · rintro ⟨hfirst, hlast⟩
    rw [hfirst, hlast] at hbody
    rw [hbody, buildFrame_eq_body]
  · intro hne
    refine ⟨?_, ?_, fun i hi hi' => ?_⟩
    · rintro rfl
      exact hne (buildFrame_constants t p)
    · rw [buildFrame_length]
      omega
    · have hbuilt := byteAt_body (h := [0x00, 0x00, 0xFF]) rfl t p 0x00 hi (by omega)
      have hown := byteAt_body (h := slice f 0 3) (by rw [slice_length]; omega) t p (byteAt f (f.length - 1)) hi
        (by omega)
      rw [← buildFrame_eq_body] at hbuilt
      rw [← hbody] at hown
      exact hbuilt.trans hown.symm

/-- Settles O5: the two directions, by the shape of a well-formed frame. -/
theorem decodeUndoesEncode : Obligations.DecodeUndoesEncode := by
  refine ⟨fun t p s hleg hpd hcap => ?_, fun t p f s u hleg hdec hout hpd hcap => ?_⟩
  · exact ⟨_, _, _, exec_encode_fits t ((fits_iff s.cfg p).mpr ⟨hpd, hcap⟩), rfl, exec_decode _ _,
      decodedFrame_buildFrame t (hpd.trans hleg.1)⟩
  · rw [exec_decode, Host.Outcome.next.injEq] at hdec
    subst hdec
    obtain ⟨hf, ht, hp⟩ := decodedFrame_accepts hout
    exact ⟨_, _, exec_encode_fits t ((fits_iff s.cfg p).mpr ⟨hpd, hcap⟩), rfl, hf.rebuilt ht hp⟩

theorem wellFormed_of_validate {f : List Byte} {s u : State} (h : exec (.validate f) s = .next u)
    (hout : u.output = .verdict true) : WellFormedFrame f := by
  rw [exec_validate, Host.Outcome.next.injEq] at h
  subst h
  exact (frameValid_iff_wellFormed f).mp (Output.verdict.inj hout)

theorem validate_accepts {f : List Byte} (h : WellFormedFrame f) (s : State) :
    ∃ v, exec (.validate f) s = .next v ∧ v.output = .verdict true :=
  ⟨_, exec_validate f s, congrArg Output.verdict ((frameValid_iff_wellFormed f).mpr h)⟩

theorem validate_rejects {f : List Byte} (h : ¬ WellFormedFrame f) (s : State) :
    ∃ v, exec (.validate f) s = .next v ∧ v.output = .verdict false :=
  ⟨_, exec_validate f s, congrArg Output.verdict
    (Bool.eq_false_of_not_eq_true (mt (frameValid_iff_wellFormed f).mp h))⟩

/-- Settles O6: the conditions look at every byte from LEN to DCS, and at no other. -/
theorem singleByteMutationIsRejected : Obligations.SingleByteMutationIsRejected := by
  intro f i b s u h hout hb
  have hf := wellFormed_of_validate h hout
  exact ⟨fun ⟨hi, hi'⟩ => validate_rejects (hf.not_set_checked hi hi' hb) s,
    fun hi => validate_accepts (hf.set_constant hi) s⟩

/-- Settles O7: LEN and LCS of the fixed frames sum to 255, and an ACK is shorter than any well-formed frame. -/
theorem ackIsNeverAFrame : Obligations.AckIsNeverAFrame := by
  constructor
  · intro f s hf
    have hsum : ((byteAt f 3).toNat + (byteAt f 4).toNat) % 256 = 255 := by
      rcases hf with rfl | rfl | ⟨h3, h4⟩ | ⟨h3, h4⟩
      · rfl
      · rfl
      · rw [h3, h4]; rfl
      · rw [h3, h4]; rfl
    exact validate_rejects (fun hw => by simpa [hsum] using hw.lcs) s
  · intro f s u h hout
    have hl := (wellFormed_of_validate h hout).length
    refine ⟨_, exec_isAck f s, congrArg Output.verdict (Bool.eq_false_of_not_eq_true fun hack => ?_)⟩
    rw [isAck_iff] at hack
    rw [hack] at hl
    simp [Config.ackFrame] at hl

/-- Settles O9: `header_ok` returns its test and writes nothing; on 6 bytes or more the test is R71's. -/
theorem headerTestChecksLenAndLcs : Obligations.HeaderTestChecksLenAndLcs := fun h _ =>
  ⟨headerOk h, rfl, fun h6 => headerOk_iff h6⟩

/-- Settles O10: each operation's equation, read in the two states that differ in the link and CC. -/
theorem codecIsPure : Obligations.CodecIsPure := by
  intro i s k cc b tfi hi
  rcases hi with rfl | rfl | rfl | hi
  · by_cases hf : fits s.cfg b = true
    · exact ⟨_, exec_encode_fits tfi hf, exec_encode_fits (s := { s with link := k, cc := cc }) tfi hf, rfl, rfl, rfl,
        rfl, rfl, rfl, fun hne => absurd rfl hne, fun _ _ => ⟨rfl, rfl⟩, by simp⟩
    · exact ⟨_, exec_encode_rejects tfi hf, exec_encode_rejects (s := { s with link := k, cc := cc }) tfi hf, rfl, rfl,
        rfl, rfl, rfl, rfl, fun _ => rfl, fun _ _ => ⟨rfl, rfl⟩, by simp⟩
  · exact ⟨_, exec_validate b s, exec_validate b { s with link := k, cc := cc }, rfl, rfl, rfl, rfl, rfl, rfl,
      fun _ => rfl, fun hne => absurd rfl hne, by simp⟩
  · exact ⟨_, exec_decode b s, exec_decode b { s with link := k, cc := cc }, rfl, rfl, rfl, rfl, rfl, rfl, fun _ => rfl,
      fun _ hne => absurd rfl hne, by simp⟩
  · rcases hi with rfl | rfl | rfl <;>
      exact ⟨_, rfl, rfl, rfl, rfl, rfl, rfl, rfl, rfl, fun _ => rfl, fun _ _ => ⟨rfl, rfl⟩, fun _ => rfl⟩

/-- Settles O12: the frame rows run `validate` and `decode`, and the two constants the ACK comparison (log 12). -/
theorem framesPresentedAlone : Obligations.FramesPresentedAlone := fun f s =>
  ⟨_, _, _, _, exec_validate f s, exec_validate f s, exec_decode f s, exec_decode f s, rfl, rfl, rfl, rfl⟩

/-- Settles O16: NIF_H2C runs `write_frame` on its bytes (log 12). -/
theorem hostFrameIsWritten : Obligations.HostFrameIsWritten := by
  intro f s
  have hrow : exec (.nifH2C f) s = exec (.writeFrame f) s := rfl
  obtain ⟨hwrite, -⟩ := writeFrameIsOneWriteTransaction f s
  refine ⟨⟨_, _, exec_writeFrame f s, hrow.trans (exec_writeFrame f s)⟩, fun hi rxs rest ha hl => ?_⟩
  rw [hrow]
  exact (hwrite hi).1 rxs rest ha hl

end Sys2Proof.Machine
end

section
/-! What `issue`, `poll_ready` and `detect` leave and how long they can sleep, whatever the environment answers (R100,
R101, R105, R177), and the bounded wait on a given script (R103). -/

namespace Sys2Proof.Machine

/-! ## `issue` -/

/-- Where the operation ended `Ok`, the 6 bytes read were the ACK (R101, R104). -/
def Reply.AckedIfOk (q : Reply) : Prop := q.res = .ok → q.st.ackOk = true ∧ q.st.ackbuf = Config.ackFrame

theorem issueFailed_ackedIfOk {r : Result} (h : r ≠ .ok) (s : State) : (issueFailed r s).AckedIfOk := fun hok =>
  absurd hok h

theorem issueAck_ackedIfOk (s : State) : (issueAck s).AckedIfOk := by
  unfold issueAck
  dsimp only
  split
  · exact issueFailed_ackedIfOk ‹_› _
  · split
    · exact fun _ => ⟨‹_›, (isAck_iff _).mp ‹_›⟩
    · exact issueFailed_ackedIfOk (by decide) _

theorem issuePoll_ackedIfOk (s : State) : (issuePoll s).AckedIfOk := by
  unfold issuePoll
  dsimp only
  split
  · exact issueFailed_ackedIfOk ‹_› _
  · exact issueAck_ackedIfOk _

theorem issueWrite_ackedIfOk (s : State) : (issueWrite s).AckedIfOk := by
  unfold issueWrite
  dsimp only
  split
  · exact issueFailed_ackedIfOk ‹_› _
  · exact issuePoll_ackedIfOk _

theorem issue_ackedIfOk (tfi : Byte) (p : List Byte) (s : State) : (issue tfi p s).AckedIfOk := by
  unfold issue
  dsimp only
  split
  · exact nofun
  · split
    · exact issueFailed_ackedIfOk ‹_› _
    · exact issueWrite_ackedIfOk _

/-- From idle `issue` ends idle, with CC by its result (R100, R101). -/
theorem issue_idle (tfi : Byte) (p : List Byte) {s : State} (hq : s.link.Quiet) (hi : s.link.ts = .idle) :
    (issue tfi p s).st.link.Quiet ∧ (issue tfi p s).st.link.ts = .idle ∧
      ((issue tfi p s).res = .ok → (issue tfi p s).st.cc = .acked) ∧
      ((issue tfi p s).res ≠ .ok → (issue tfi p s).st.cc = .failed) := by
  rcases issue_cases tfi p hq with ⟨hne, -⟩ | ⟨-, -, he⟩ | ⟨-, -, hd⟩
  · exact absurd hi hne
  · rw [he]
    exact ⟨hq, hi, nofun, fun _ => rfl⟩
  · refine ⟨hd.quiet, hd.idle, fun hok => ?_, fun hne => ?_⟩
    · rcases hd.channel with ⟨-, hc⟩ | ⟨hne, -⟩
      · exact hc
      · exact absurd hok hne
    · rcases hd.channel with ⟨hok, -⟩ | ⟨-, hc⟩
      · exact absurd hok hne
      · exact hc

/-- Settles O30: `issue` ends as its last operation does, and `Ok` only past the comparison. -/
theorem issueLeavesAckedOrFailed : Obligations.IssueLeavesAckedOrFailed := by
  intro tfi p s hleg hsettled htraced hi
  obtain ⟨hq, hts, hacked, hfailed⟩ := issue_idle (tfiOr tfi) p ⟨hsettled, htraced⟩ hi
  refine ⟨_, Reply.next_finishAs_after (issue (tfiOr tfi) p s) _ _, hts, (hq.idle hts).1, issue_admitted _ p hi hleg,
    fun hok => ?_, hfailed⟩
  obtain ⟨hack, hbuf⟩ := issue_ackedIfOk (tfiOr tfi) p s hok
  exact ⟨hacked hok, hack, hbuf⟩

/-! ## How long an operation sleeps -/

theorem opPollReady_grew (tmo ivl : Option Nat) (s : State) :
    Link.Grew (tmo.getD s.cfg.defaultTimeout) s.link (opPollReady tmo ivl s).st.link := by
  rw [opPollReady, Reply.finishAs_link]
  exact (pollReady_bound ..).1

theorem opIssue_grew (tfi : Option Byte) (p : List Byte) (s : State) :
    Link.Grew (s.cfg.tSettle + s.cfg.defaultTimeout + s.cfg.tSettle) s.link (opIssue tfi p s).st.link := by
  rw [opIssue, Reply.finishAs_link]
  exact issue_grew ..

theorem opReadResponse_grew (len : Nat) (st co : Bool) (s : State) :
    Link.Grew (if st then s.cfg.tSettle else 0) s.link (opReadResponse len st co s).st.link := by
  rw [opReadResponse, Reply.finishAs_link]
  exact readResponse_grew ..

/-- Without RESP_POLL there is no second wait (R120). -/
theorem issueAndWait_once {s : State} (h : s.consumer.respPoll = false) (p : List Byte) :
    issueAndWait p s = opIssue (some Config.tfiH2C) p s := by
  simp [issueAndWait, h]

/-- The machine has come from `s` to `t` with at most `k` milliseconds of sleep (R177). -/
def State.SleptAtMost (k : Nat) (s t : State) : Prop := Link.Grew k s.link t.link

/-- `detect` sleeps in its `issue` and in the settle of its one read transaction, which chunk (a) opens (R123, R177). -/
theorem detect_grew {s : State} (h : s.consumer.respPoll = false) :
    s.SleptAtMost (s.cfg.tSettle + s.cfg.defaultTimeout + s.cfg.tSettle + s.cfg.tSettle) (detect s).st := by
  rw [detect_eq, issueAndWait_once h]
  have hissue := opIssue_grew (some Config.tfiH2C) (detectPayload s.consumer) s
  have hcfg : (opIssue (some Config.tfiH2C) (detectPayload s.consumer) s).st.cfg = s.cfg :=
    congrArg Prod.fst (opIssue_setup ..)
  have hfirst := opReadResponse_grew 8 true false (opIssue (some Config.tfiH2C) (detectPayload s.consumer) s).st
  rw [hcfg] at hfirst
  have hopen := hissue.trans hfirst (Nat.le_refl _)
  refine Reply.proceed_keeps (opIssue_result ..) (hissue.mono (by omega)) fun _ => ?_
  exact Reply.proceed_keeps (opReadResponse_result ..) hopen fun hok => detectTarget_keeps
    (fun len co u _ hu => Link.Grew.trans hu (opReadResponse_grew len false co u) (Nat.le_refl _)) _ hok hopen

/-- Settles O31: the poll's bound, and the settles of the transactions beside it. -/
theorem sleepsAreBounded : Obligations.SleepsAreBounded := by
  refine ⟨fun tmo ivl s t h => ?_, fun tfi p s t h => ?_, fun s t hpoll h => ?_⟩
  · exact Host.Outcome.next.inj h ▸ opPollReady_grew tmo ivl s
  · exact Host.Outcome.next.inj h ▸ opIssue_grew tfi p s
  · exact Host.Outcome.next.inj h ▸ detect_grew hpoll

/-! ## The bounded wait -/

/-- `poll_ready`, as an instruction, where it was not refused (R103). -/
theorem exec_pollReady_of {tmo ivl : Option Nat} {s : State} {r : PollReply}
    (h : pollReady s.cfg (tmo.getD s.cfg.defaultTimeout) (ivl.getD s.cfg.defaultInterval) s.link s.poll = r)
    (hr : r.res ≠ .seqFault) : exec (.pollReady tmo ivl) s =
    .next (({ s with link := r.link, poll := r.poll } : State).returned r.res .none
      { op := .pollReady, timeout := tmo.getD s.cfg.defaultTimeout, interval := ivl.getD s.cfg.defaultInterval }) := by
  show ((s.onPoll (pollReady s.cfg _ _ s.link s.poll)).finishAs _).next .none = _
  rw [Reply.next_finishAs_after, h, Reply.after_admitted hr]
  rfl

/-- A probe that is the last: the first that reports ready, or the last the bound allows (R103, R105). -/
theorem pollReady_last {cfg : Cfg} (hleg : cfg.legal) {timeout interval : Nat} {waits : List (Byte × Byte)} {a b : Byte}
    {rest : List Answer} {l : Link} (p : Poll) (hts : l.ts = .idle) (hi : 1 ≤ interval)
    (ha : l.answers = probeAnswers waits ++ .ok a :: .ok b :: rest) (hn : ∀ ab ∈ waits, ab.2.getLsbD 0 = false)
    (ht : waits.length * (interval + cfg.tProbe) ≤ timeout)
    (hb : b.getLsbD 0 = true ∨ waits.length = timeout / (interval + cfg.tProbe)) :
    pollReady cfg timeout interval l p = ⟨{ l with
        ts := .idle, sel := .released, cnt := 0, answers := rest,
        trace := l.trace ++ waitingEvents cfg interval waits ++ statusEvents cfg (a, b) },
      { elapsed := waits.length * (interval + cfg.tProbe) + cfg.tProbe, probes := waits.length + 1,
        status := b, ready := b.getLsbD 0 }, if b.getLsbD 0 then .ok else .timeoutError⟩ := by
  have hn' : ∀ ab ∈ waits, readyOf cfg ab.2 = false := fun ab hab => (readyOf_legal hleg ab.2).trans (hn ab hab)
  have hr := readyOf_legal hleg b
  cases hready : b.getLsbD 0 with
  | true => exact pollReady_ready cfg timeout interval waits a b rest l p hts hi ha hn' (hr.trans hready) ht
  | false =>
    have hk := hb.resolve_left (ne_true_of_eq_false hready)
    exact pollReady_timeout cfg timeout interval waits a b rest l p hts hi ha hn' (hr.trans hready) hk

/-- A status transaction of which one exchange fails, the second or the first (R92). -/
theorem statusTxn_fails (cfg : Cfg) (a : Byte) (second : Bool) (rest : List Answer) (l : Link)
    (ha : l.answers = (if second then [.ok a] else []) ++ .fail :: rest) : ∃ c, statusTxn cfg l = (none, { l with
      ts := .idle, sel := .released, cnt := c, answers := rest,
      trace := l.trace ++ (if second then [.sel, .x cfg.statusProbe a, .xfail cfg.dummy, .rel]
        else [.sel, .xfail cfg.statusProbe, .rel]) }) := by
  cases second
  · exact ⟨_, statusTxn_failFirst cfg rest l ha⟩
  · exact ⟨_, statusTxn_failSecond cfg a rest l ha⟩

/-- A probe fails after those of `waits` (R103). -/
theorem pollReady_fails {cfg : Cfg} (hleg : cfg.legal) {timeout interval : Nat} {waits : List (Byte × Byte)} (a : Byte)
    (second : Bool) {rest : List Answer} {l : Link} (p : Poll) (hts : l.ts = .idle) (hi : 1 ≤ interval)
    (ha : l.answers = probeAnswers waits ++ ((if second then [.ok a] else []) ++ .fail :: rest))
    (hn : ∀ ab ∈ waits, ab.2.getLsbD 0 = false) (ht : waits.length * (interval + cfg.tProbe) ≤ timeout) :
    ∃ c, pollReady cfg timeout interval l p = ⟨{ l with
        ts := .idle, sel := .released, cnt := c, answers := rest,
        trace := l.trace ++ waitingEvents cfg interval waits ++
          (if second then [.sel, .x cfg.statusProbe a, .xfail cfg.dummy, .rel]
            else [.sel, .xfail cfg.statusProbe, .rel]) },
      { elapsed := waits.length * (interval + cfg.tProbe), probes := waits.length,
        status := (waits.map (·.2)).getLastD p.status, ready := if waits = [] then p.ready else false },
      .transportError⟩ := by
  obtain ⟨c, hc⟩ := statusTxn_fails cfg a second rest { l with
    ts := if waits = [] then l.ts else .idle, sel := if waits = [] then l.sel else .released,
    cnt := if waits = [] then l.cnt else 0, answers := (if second then [.ok a] else []) ++ .fail :: rest,
    trace := l.trace ++ waitingEvents cfg interval waits } rfl
  refine ⟨c, ?_⟩
  rw [pollReady_eq_pollLoop cfg timeout p hts hi, pollLoop_fail cfg timeout interval waits _ _ l _ _ ha
    (fun ab hab => (readyOf_legal hleg ab.2).trans (hn ab hab)) (waits_fuel hi ht) (by simpa using ht) hc]
  simp

/-- Settles O27: the poll ends at its first ready or last allowed probe, or at one that fails, and the bound on its
probes holds on every answer. -/
theorem pollReadyIsABoundedWait : Obligations.PollReadyIsABoundedWait := by
  intro tmo ivl s hleg timeout interval
  refine ⟨fun hi hpos => ⟨fun waits hn hle => ?_, fun t h => ?_⟩, fun h => ⟨_, exec_pollReady_refused tmo ivl ?_⟩⟩
  · have ht : waits.length * (interval + s.cfg.tProbe) ≤ timeout :=
      (Nat.mul_le_mul_right _ hle).trans (Nat.div_mul_le_self ..)
    refine ⟨fun a b rest ha hb => ?_, fun a second rest ha => ?_⟩
    · have hlast := pollReady_last hleg s.poll hi hpos ha hn ht hb
      exact ⟨_, _, exec_pollReady_of hlast (by cases b.getLsbD 0 <;> simp)⟩
    · obtain ⟨c, hc⟩ := pollReady_fails hleg a second s.poll hi hpos (by rw [ha, List.append_assoc]) hn ht
      exact ⟨_, _, exec_pollReady_of hc (by simp)⟩
  · obtain ⟨hne, -⟩ := pollReady_admitted s.cfg timeout s.poll hi hpos
    rw [exec_pollReady_of rfl hne, Host.Outcome.next.injEq] at h
    subst h
    exact (pollReady_bound s.cfg timeout interval s.link s.poll).2 hne
  · rcases h with h | h
    · exact .inl h
    · exact .inr (by omega)

end Sys2Proof.Machine
end

section
/-! Reads: what a failed one returns (R44), and how a stream may be split (R53); and the link transactions run alone
(R52 to R54, log 13). -/

namespace Sys2Proof.Machine

/-! ## The free values drawn -/

/-- An exchange draws at most one free value, so the count never goes down (R82, log 1). -/
theorem Link.xchg_draws (tx : Byte) (l : Link) : l.draws ≤ (l.xchg tx).2.draws := by
  cases ha : l.answers with
  | cons a rest =>
    cases a with
    | ok rx => rw [Link.xchg_ok tx rx l rest ha]
    | fail => rw [Link.xchg_fail tx l rest ha]
  | nil => rcases Link.xchg_free tx ha with ⟨rx, hx⟩ | hx <;> rw [hx] <;> exact Nat.le_succ _

theorem Link.recvAll_draws (dummy : Byte) (n : Nat) (l : Link) : l.draws ≤ (Link.recvAll dummy n l).2.draws := by
  induction n generalizing l with
  | zero => exact Nat.le_refl _
  | succ n ih =>
    have hx := Link.xchg_draws dummy l
    rw [Link.recvAll]
    split <;> rename_i l' h <;> rw [h] at hx
    · exact hx
    · have hr := ih l'
      split <;> rename_i l'' h' <;> rw [h'] at hr <;> exact hx.trans hr

/-- A read of `len` bytes begun in `l`: where it failed, its data are free values, numbered from a count not below `l`'s
and used up (R44, log 2). -/
def LinkReply.FreeIfFailed (r : LinkReply) (l : Link) (len : Nat) : Prop :=
  r.res = .transportError → ∃ d, l.draws ≤ d ∧ r.link.draws = d + len ∧ r.data = freeData d len

theorem Link.abortRead_free {l l' : Link} (h : l.draws ≤ l'.draws) (len : Nat) :
    (l'.abortRead len).FreeIfFailed l len := by
  rw [← l'.release_draws] at h
  exact fun _ => ⟨_, h, rfl, rfl⟩

theorem readBytes_free (cfg : Cfg) (len : Nat) {l l' : Link} (h : l.draws ≤ l'.draws) :
    (readBytes cfg len l').FreeIfFailed l len := by
  have hr := Link.recvAll_draws cfg.dummy len l'
  unfold readBytes
  split <;> rename_i l'' he <;> rw [he] at hr
  · exact nofun
  · exact Link.abortRead_free (h.trans hr) len

theorem openRead_free (cfg : Cfg) (len : Nat) (l : Link) : (openRead cfg len l).FreeIfFailed l len := by
  have hx := Link.xchg_draws cfg.readPrime ((l.select.sleep cfg.tSettle).expect (len + 1))
  unfold openRead
  split <;> rename_i l' he <;> rw [he] at hx
  · exact readBytes_free cfg len hx
  · exact Link.abortRead_free hx len

theorem beginRead_free (cfg : Cfg) (len : Nat) (l : Link) : (beginRead cfg len l).FreeIfFailed l len := by
  unfold beginRead
  split
  · exact openRead_free cfg len l
  · exact nofun

theorem continueRead_free (cfg : Cfg) (len : Nat) (l : Link) : (continueRead cfg len l).FreeIfFailed l len := by
  unfold continueRead
  split
  · exact readBytes_free cfg len (Nat.le_refl _)
  · exact nofun

/-- A read that failed has nothing to conclude. -/
theorem closeAfter_free {r : LinkReply} {l : Link} {len : Nat} (h : r.FreeIfFailed l len) :
    (closeAfter r).FreeIfFailed l len := by
  unfold closeAfter
  split
  · next hok => exact fun hf => nomatch hf.symm.trans hok
  · exact h

theorem readResponse_free (cfg : Cfg) (len : Nat) (st co : Bool) (l : Link) :
    (readResponse cfg len st co l).FreeIfFailed l len := by
  have hread : (responseRead cfg len st l).FreeIfFailed l len := by
    cases st
    · exact continueRead_free cfg len l
    · exact beginRead_free cfg len l
  cases co
  · exact hread
  · exact closeAfter_free hread

/-- An instruction that returns what a read gave returns free values where that failed (R13, R44). -/
theorem exec_read_free {i : Instr} {s t : State} {r : LinkReply} {l : Latch} {len : Nat} (h : exec i s = .next t)
    (hread : exec i s = .next (s.afterRead r l)) (hr : r.FreeIfFailed s.link len) (hf : t.result = .transportError) :
    ∃ d, s.link.draws ≤ d ∧ t.link.draws = d + len ∧ t.output = .data (freeData d len) := by
  rw [hread, Host.Outcome.next.injEq] at h
  subst h
  rw [State.afterRead_result] at hf
  obtain ⟨d, hd, hdraws, hdata⟩ := hr hf
  rw [State.afterRead_admitted s (by simp [hf]), hdata]
  exact ⟨d, hd, hdraws, rfl⟩

/-! ## Link rows alone -/

/-- A link row from idle whose transaction completes: the link and what is returned, and RESULT left (log 13). -/
theorem State.whenIdle_onLink_ok {s : State} (hi : s.link.ts = .idle) {r : LinkReply} (h : r.res = .ok) (out : Output) :
    (s.whenIdle (s.onLink r)).next out = .next { s with link := r.link, output := out } := by
  rw [State.whenIdle_ok hi (r := s.onLink r) h]
  rfl

/-- One whose transaction fails (R146). -/
theorem State.whenIdle_onLink_failed {s : State} (hi : s.link.ts = .idle) {r : LinkReply} (h : r.res = .transportError)
    (out : Output) : (s.whenIdle (s.onLink r)).next out =
      .next { s with link := r.link, result := .transportError, output := out } := by
  rw [State.whenIdle_failed hi (r := s.onLink r) (by simp [h])]
  simp [Reply.next, Reply.finish, h, State.onLink]

/-- One in an open stream (R80, R145). -/
theorem State.whenIdle_refused {s : State} (hi : s.link.ts ≠ .idle) (q : Reply) (out : Output) :
    (s.whenIdle q).next out = .next (s.refusal out) := by
  rw [State.whenIdle, if_neg hi]
  simp [refuseRequest, Reply.next, Reply.finish, State.refusal]

section
variable {s : State} (hi : s.link.ts = .idle)
include hi

theorem exec_writeTxn_ok {bytes : List Byte} {r : LinkReply} (h : writeTxn s.cfg bytes s.link = r) (hr : r.res = .ok) :
    exec (.writeTxn bytes) s = .next { s with link := r.link, output := .none } := by
  subst h
  exact State.whenIdle_onLink_ok hi hr _

theorem exec_writeTxn_failed {bytes : List Byte} {r : LinkReply} (h : writeTxn s.cfg bytes s.link = r)
    (hr : r.res = .transportError) : exec (.writeTxn bytes) s =
      .next { s with link := r.link, result := .transportError, output := .none } := by
  subst h
  exact State.whenIdle_onLink_failed hi hr _

/-- READ_TXN is the transaction `read_all` makes (R53, R91). -/
theorem exec_readTxn_ok {len : Nat} {r : LinkReply} (h : readAll s.cfg len s.link = r) (hr : r.res = .ok) :
    exec (.readTxn len) s = .next { s with link := r.link, output := .data r.data } := by
  subst h
  have hop : opReadTxn len s = s.onLink (readAll s.cfg len s.link) := by
    rw [readAll, beginRead_eq_openRead _ _ hi] at hr ⊢
    exact State.whenIdle_ok hi hr
  show (opReadTxn len s).next (opReadTxn len s).readOutput = _
  rw [hop, Reply.readOutput, if_neg (by simp [hr])]
  rfl

theorem exec_readTxn_failed {len : Nat} {r : LinkReply} (h : readAll s.cfg len s.link = r)
    (hr : r.res = .transportError) : exec (.readTxn len) s =
      .next { s with link := r.link, result := .transportError, output := .data r.data } := by
  subst h
  have hop : opReadTxn len s = (s.onLink (readAll s.cfg len s.link)).finish := by
    rw [readAll, beginRead_eq_openRead _ _ hi] at hr ⊢
    exact State.whenIdle_failed hi (by simp [hr])
  show (opReadTxn len s).next (opReadTxn len s).readOutput = _
  rw [hop, Reply.readOutput, if_neg (by simp [hr])]
  simp [Reply.next, Reply.finish, State.onLink, hr]

theorem exec_statusTxn_ok {b : Byte} {l : Link} (h : statusTxn s.cfg s.link = (some b, l)) :
    exec .statusTxn s = .next { s with link := l, output := .data [b] } := by
  have hop : opStatusTxn s = s.onLink ⟨l, .ok, [b]⟩ := by
    rw [opStatusTxn, h]
    exact State.whenIdle_ok hi rfl
  show (opStatusTxn s).next (if (opStatusTxn s).res = .ok then .data (opStatusTxn s).data else .none) = _
  rw [hop]
  rfl

theorem exec_statusTxn_failed {l : Link} (h : statusTxn s.cfg s.link = (none, l)) :
    exec .statusTxn s = .next { s with link := l, result := .transportError, output := .none } := by
  have hop : opStatusTxn s = (s.onLink ⟨l, .transportError, []⟩).finish := by
    rw [opStatusTxn, h]
    exact State.whenIdle_failed hi (by simp)
  show (opStatusTxn s).next (if (opStatusTxn s).res = .ok then .data (opStatusTxn s).data else .none) = _
  rw [hop]
  simp [Reply.next, Reply.finish, State.onLink]

/-- `read_all` whose `begin_read` fails (R91). -/
theorem readAll_failed {len : Nat} {r : LinkReply} (h : openRead s.cfg len s.link = r) (hr : r.res ≠ .ok) :
    readAll s.cfg len s.link = r := by
  rw [readAll, beginRead_eq_openRead _ _ hi, h]
  exact if_neg hr

end

/-- Settles O32, row by row: the transaction's own script, and the row's return. -/
theorem linkTransactionsAlone : Obligations.LinkTransactionsAlone := by
  intro s rest ends completes fails
  refine ⟨fun hi => ⟨fun bytes rxs ha hl => ?_, fun bytes pre post rxs b hb ha hl => ?_, fun q ds ha => ?_,
    fun len ha => ?_, fun len q ds ha hl => ?_, fun a b ha => ?_, fun ha => ?_, fun a ha => ?_⟩,
    fun hi i bytes len hrow => ?_⟩
  · have h := exec_writeTxn_ok hi (writeTxn_ok s.cfg bytes rxs rest s.link ha hl) rfl
    simp only [List.append_assoc] at h
    exact ⟨_, h⟩
  · have h := exec_writeTxn_failed hi (writeTxn_fail s.cfg bytes pre b post rxs rest s.link hb ha hl) rfl
    simp only [List.append_assoc] at h
    exact ⟨_, _, _, h⟩
  · have h := exec_readTxn_ok hi (readAll_ok s.cfg q ds rest s.link hi ha) rfl
    simp only [List.append_assoc] at h
    exact ⟨_, h⟩
  · exact ⟨_, _, _, exec_readTxn_failed hi (readAll_failed hi (openRead_failPrime s.cfg len rest s.link ha) nofun) rfl⟩
  · have h := exec_readTxn_failed hi (readAll_failed hi (openRead_fail s.cfg len q ds rest s.link ha hl) nofun) rfl
    simp only [List.append_assoc] at h
    exact ⟨_, _, _, h⟩
  · exact ⟨_, exec_statusTxn_ok hi (statusTxn_ok s.cfg a b rest s.link ha)⟩
  · exact ⟨_, _, _, exec_statusTxn_failed hi (statusTxn_failFirst s.cfg rest s.link ha)⟩
  · exact ⟨_, _, _, exec_statusTxn_failed hi (statusTxn_failSecond s.cfg a rest s.link ha)⟩
  · rcases hrow with rfl | rfl | rfl | rfl <;> exact ⟨_, State.whenIdle_refused hi _ _⟩

/-- READ_TXN that ends in a failure of its own (log 13): its transaction failed, and gave free values (R44). -/
theorem exec_readTxn_free {len : Nat} {s t : State} (h : exec (.readTxn len) s = .next t)
    (hf : t.result = .transportError) (hs : s.result ≠ .transportError) :
    ∃ d, s.link.draws ≤ d ∧ t.link.draws = d + len ∧ t.output = .data (freeData d len) := by
  by_cases hi : s.link.ts = .idle
  · have hres := openRead_result s.cfg len s.link
    rw [← beginRead_eq_openRead _ _ hi, ← (closeAfter_res _).1, ← (closeAfter_res _).2, ← readAll] at hres
    rcases hres with ⟨hok, -⟩ | hfail
    · rw [exec_readTxn_ok hi rfl hok, Host.Outcome.next.injEq] at h
      subst h
      exact absurd hf hs
    · rw [exec_readTxn_failed hi rfl hfail, Host.Outcome.next.injEq] at h
      subst h
      obtain ⟨d, hd, hdraws, hdata⟩ := closeAfter_free (beginRead_free s.cfg len s.link) hfail
      exact ⟨d, hd, hdraws, congrArg Output.data hdata⟩
  · have hr : exec (.readTxn len) s = _ := State.whenIdle_refused hi _ _
    rw [hr, Host.Outcome.next.injEq] at h
    subst h
    cases hf

/-- Settles O21: every read row returns its transaction's data, which are free where that failed. -/
theorem failedReadsReturnFreeValues : Obligations.FailedReadsReturnFreeValues := by
  intro i len st co s t hi h hf hown
  rcases hi with rfl | rfl | rfl | rfl | hi
  · exact exec_read_free h (exec_beginRead len s) (beginRead_free s.cfg len s.link) hf
  · exact exec_read_free h (exec_continueRead len s) (continueRead_free s.cfg len s.link) hf
  · exact exec_read_free h (exec_readAll len s) (closeAfter_free (beginRead_free s.cfg len s.link)) hf
  · exact exec_readTxn_free h hf (hown rfl)
  · exact exec_read_free h (exec_readResponse s hi) (readResponse_free s.cfg len st co s.link) hf

/-! ## A stream in pieces -/

theorem Link.answer_expect (l : Link) (c : Nat) : (l.expect c).answer = (l.answer.1, l.answer.2.expect c) := by
  rcases l with ⟨_, _, _, _ | _, _, _⟩ <;> rfl

/-- The byte counter decides nothing: whatever it holds, an exchange gives the same byte, and counts it down (R16). -/
theorem Link.xchg_expect {tx rx : Byte} {l l' : Link} (h : l.xchg tx = (some rx, l')) (c : Nat) :
    (l.expect c).xchg tx = (some rx, l'.expect (c - 1)) := by
  rw [Link.xchg] at h
  rw [Link.xchg, Link.answer_expect]
  split at h
  · next ha =>
    obtain ⟨rfl, rfl⟩ : _ = rx ∧ _ = l' := by simpa using h
    rw [ha]
    rfl
  · cases h

theorem Link.recvAll_expect {dummy : Byte} {n : Nat} {l l' : Link} {ds : List Byte}
    (h : Link.recvAll dummy n l = (some ds, l')) (c : Nat) :
    Link.recvAll dummy n (l.expect c) = (some ds, l'.expect (c - n)) := by
  induction n generalizing l ds c with
  | zero =>
    cases h
    rfl
  | succ n ih =>
    rw [Link.recvAll] at h
    split at h
    · cases h
    · next hx =>
      split at h
      · next hr =>
        cases h
        rw [Link.recvAll, Link.xchg_expect hx]
        simp only [ih hr, Nat.sub_sub, Nat.add_comm]
      · cases h

/-- Bytes received in two goes are received in one (R53, R84). -/
theorem Link.recvAll_add {dummy : Byte} {m n : Nat} {l l' l'' : Link} {ds es : List Byte}
    (hm : Link.recvAll dummy m l = (some ds, l')) (hn : Link.recvAll dummy n l' = (some es, l'')) :
    Link.recvAll dummy (m + n) l = (some (ds ++ es), l'') := by
  induction m generalizing l ds with
  | zero =>
    cases hm
    rwa [Nat.zero_add]
  | succ m ih =>
    rw [Link.recvAll] at hm
    split at hm
    · cases hm
    · next d k hx =>
      split at hm
      · next hr =>
        cases hm
        rw [Nat.add_right_comm, Link.recvAll, hx]
        simp only [ih hr, List.cons_append]
      · cases hm

theorem Link.recvAll_cnt {dummy : Byte} {n : Nat} {l l' : Link} {ds : List Byte}
    (h : Link.recvAll dummy n l = (some ds, l')) : l'.cnt = l.cnt - n := by
  have hcnt := (Link.recvAll_some dummy n l ds (by rw [h])).1
  rwa [h] at hcnt

theorem readBytes_ok_iff {cfg : Cfg} {n : Nat} {l l' : Link} {ds : List Byte} :
    readBytes cfg n l = ⟨l', .ok, ds⟩ ↔ Link.recvAll cfg.dummy n l = (some ds, l') := by
  unfold readBytes
  rcases Link.recvAll cfg.dummy n l with ⟨_ | es, k⟩
  · simp [Link.abortRead]
  · simp [and_comm, eq_comm]

/-- A read of an open transaction, split in two: the counter is set for each part, and 0 after the last (R16, R53). -/
theorem readBytes_split {cfg : Cfg} {m n : Nat} {l l' l'' : Link} {ds es : List Byte}
    (hm : readBytes cfg m l = ⟨l', .ok, ds⟩) (hn : readBytes cfg n (l'.expect n) = ⟨l'', .ok, es⟩) :
    readBytes cfg (m + n) (l.expect (m + n)) = ⟨l'', .ok, ds ++ es⟩ := by
  rw [readBytes_ok_iff] at *
  have hback : Link.recvAll cfg.dummy n l' = _ := Link.recvAll_expect hn l'.cnt
  have hzero : l''.cnt = 0 := by simpa using Link.recvAll_cnt hn
  rw [Link.recvAll_expect (Link.recvAll_add hm hback), Nat.sub_self]
  exact Prod.ext rfl (Link.ext_fields rfl rfl hzero.symm rfl rfl rfl)

theorem openRead_split {cfg : Cfg} {m n : Nat} {l l' l'' : Link} {ds es : List Byte}
    (hm : openRead cfg m l = ⟨l', .ok, ds⟩) (hn : readBytes cfg n (l'.expect n) = ⟨l'', .ok, es⟩) :
    openRead cfg (m + n) l = ⟨l'', .ok, ds ++ es⟩ := by
  rw [openRead] at hm
  split at hm
  · next hx =>
    have hx' : Link.xchg cfg.readPrime ((l.select.sleep cfg.tSettle).expect (m + n + 1)) = _ :=
      Link.xchg_expect hx (m + n + 1)
    rw [openRead, hx']
    exact readBytes_split hm hn
  · simp [Link.abortRead] at hm

/-- The read inside an operation, opening the stream or extending it, and then more of it (R53, R88, R89). -/
theorem responseRead_split {cfg : Cfg} {m n : Nat} {st : Bool} {l l' l'' : Link} {ds es : List Byte}
    (hm : responseRead cfg m st l = ⟨l', .ok, ds⟩) (hn : continueRead cfg n l' = ⟨l'', .ok, es⟩) :
    responseRead cfg (m + n) st l = ⟨l'', .ok, ds ++ es⟩ := by
  have hn' : readBytes cfg n (l'.expect n) = ⟨l'', .ok, es⟩ := by
    unfold continueRead at hn
    split at hn
    · exact hn
    · cases hn
  cases st
  · change continueRead cfg m l = _ at hm
    show continueRead cfg (m + n) l = _
    unfold continueRead at hm ⊢
    split at hm
    · rw [if_pos ‹_›]
      exact readBytes_split (l := l.expect m) hm hn'
    · cases hm
  · change beginRead cfg m l = _ at hm
    show beginRead cfg (m + n) l = _
    unfold beginRead at hm ⊢
    split at hm
    · rw [if_pos ‹_›]
      exact openRead_split hm hn'
    · cases hm

/-- An instruction that returns what a read gave, and returned `Ok`. -/
theorem exec_read_ok {i : Instr} {s u : State} {r : LinkReply} {l : Latch} (h : exec i s = .next u)
    (hread : exec i s = .next (s.afterRead r l)) (hok : u.result = .ok) :
    r = ⟨u.link, .ok, r.data⟩ ∧ u.output = .data r.data ∧ u.cfg = s.cfg := by
  rw [hread, Host.Outcome.next.injEq] at h
  subst h
  rw [State.afterRead_result] at hok
  rw [State.afterRead_admitted s (by simp [hok])]
  refine ⟨?_, rfl, rfl⟩
  rw [← hok]
  rfl

/-- `begin_read` and `continue_read`, by whether they open the stream. -/
theorem exec_streamRead {read : Nat → Instr} (h : read = .beginRead ∨ read = .continueRead) :
    ∃ (st : Bool) (latch : Nat → Latch), ∀ (len : Nat) (s : State),
      exec (read len) s = .next (s.afterRead (responseRead s.cfg len st s.link) (latch len)) := by
  rcases h with rfl | rfl
  · exact ⟨true, _, exec_beginRead⟩
  · exact ⟨false, _, exec_continueRead⟩

/-- Settles O22: the bytes of the two operations are received as one operation receives them. -/
theorem streamSplitIsInvisible : Obligations.StreamSplitIsInvisible := by
  intro m n read s u v hread hu huok hv hvok
  obtain ⟨st, latch, hexec⟩ := exec_streamRead hread
  obtain ⟨hm, hd, hcfg⟩ := exec_read_ok hu (hexec m s) huok
  obtain ⟨hn, he, -⟩ := exec_read_ok hv (exec_continueRead n u) hvok
  have hdlen := responseRead_length (congrArg LinkReply.res hm)
  have helen := responseRead_length (st := false) (congrArg LinkReply.res hn)
  rw [hcfg] at hn he helen
  refine ⟨_, _, _, hd, he, hdlen, helen, hexec (m + n) s, ?_⟩
  rw [responseRead_split hm hn]
  exact ⟨rfl, rfl, rfl⟩

end Sys2Proof.Machine
end

section
/-! The consumer sequences on a given script (R121 to R133), on a session of their own (log 20), and on every answer of
the environment (R126). -/

namespace Sys2Proof.Machine

/-! ## A read transaction in several calls -/

/-- From `u`, idle, a read transaction has been opened, `q` received with READ_PRIME and then `ds`; it is still open,
and the environment's coming answers are `rest` (R53, R106). -/
def State.reading (u : State) (q : Byte) (ds : List Byte) (rest : List Answer) (l : Latch) : State :=
  { u with
    link := { u.link with
      ts := .streaming, sel := .asserted, cnt := 0, answers := rest, trace := u.link.trace ++ openEvents u.cfg q ds }
    result := .ok
    latch := l }

/-- The same transaction, concluded (R106). -/
def State.haveRead (u : State) (q : Byte) (ds : List Byte) (rest : List Answer) (l : Latch) : State :=
  { u with
    link := { u.link with
      ts := .idle, sel := .released, cnt := 0, answers := rest,
      trace := u.link.trace ++ openEvents u.cfg q ds ++ [.rel] }
    result := .ok
    latch := l }

/-- `read_response` whose read is answered: its data, and the state of the link it leaves (R106). -/
theorem opReadResponse_of {len : Nat} {st co : Bool} {s : State} {r : LinkReply}
    (h : readResponse s.cfg len st co s.link = r) (hr : r.res = .ok) : ∃ l, opReadResponse len st co s =
      ⟨{ s with link := r.link, result := .ok, latch := l }, .ok, r.data⟩ := by
  refine ⟨{ op := .readResponse, len := len, start := st, conclude := co }, ?_⟩
  rw [opReadResponse, h, State.onLink, hr, Reply.finishAs_ok]

section
variable {u : State} {q : Byte} {rest : List Answer}

theorem openEvents_append (cfg : Cfg) (q : Byte) (ds es : List Byte) :
    openEvents cfg q (ds ++ es) = openEvents cfg q ds ++ dummyReads cfg.dummy es := by
  simp [openEvents, dummyReads_append]

theorem opReadResponse_opens {ds : List Byte} (hi : u.link.ts = .idle) (hsel : u.link.sel = .released)
    (ha : u.link.answers = .ok q :: answersOf ds ++ rest) :
    ∃ l, opReadResponse ds.length true false u = ⟨u.reading q ds rest l, .ok, ds⟩ := by
  obtain ⟨l, hl⟩ := opReadResponse_of (readResponse_ok (cfg := u.cfg) (st := true) hi hsel ha false) rfl
  refine ⟨l, hl.trans ?_⟩
  simp [State.reading, openEvents, responseOpening]

theorem opReadResponse_fullRead {ds : List Byte} (hi : u.link.ts = .idle) (hsel : u.link.sel = .released)
    (ha : u.link.answers = .ok q :: answersOf ds ++ rest) :
    ∃ l, opReadResponse ds.length true true u = ⟨u.haveRead q ds rest l, .ok, ds⟩ := by
  obtain ⟨l, hl⟩ := opReadResponse_of (readResponse_ok (cfg := u.cfg) (st := true) hi hsel ha true) rfl
  refine ⟨l, hl.trans ?_⟩
  simp [State.haveRead, openEvents, responseOpening]

variable {ds es : List Byte} {k : Latch}

theorem opReadResponse_goesOn : ∃ l, opReadResponse es.length false false (u.reading q ds (answersOf es ++ rest) k) =
    ⟨u.reading q (ds ++ es) rest l, .ok, es⟩ := by
  obtain ⟨l, hl⟩ := opReadResponse_of (s := u.reading q ds (answersOf es ++ rest) k)
    (readResponse_ok (cfg := u.cfg) (st := false) rfl rfl (q := q) rfl false) rfl
  refine ⟨l, hl.trans ?_⟩
  simp [State.reading, openEvents_append, responseOpening]

theorem opReadResponse_concludes : ∃ l, opReadResponse es.length false true (u.reading q ds (answersOf es ++ rest) k) =
    ⟨u.haveRead q (ds ++ es) rest l, .ok, es⟩ := by
  obtain ⟨l, hl⟩ := opReadResponse_of (s := u.reading q ds (answersOf es ++ rest) k)
    (readResponse_ok (cfg := u.cfg) (st := false) rfl rfl (q := q) rfl true) rfl
  refine ⟨l, hl.trans ?_⟩
  simp [State.reading, State.haveRead, openEvents_append, responseOpening]

end

@[simp] theorem Reply.proceed_ok (t : State) (ds : List Byte) (bad : Result → Output)
    (cont : List Byte → State → Done) : (Reply.mk t .ok ds).proceed bad cont = cont ds t := rfl

theorem answersOf_append (xs ys : List Byte) : answersOf (xs ++ ys) = answersOf xs ++ answersOf ys := by
  simp [answersOf]

/-- The state a series goes on in after a scripted handshake: CC is `Acked` and `issue` has returned `Ok` (R101). -/
def State.handshaken (s : State) (h : Handshake) (frame : List Byte) (rest : List Answer) (l : Latch) : State :=
  { s.answered h frame Config.ackFrame rest 0 with cc := .acked, result := .ok, latch := l }

theorem issueAndWait_script {p : List Byte} {h : Handshake} {rest : List Answer} {s : State} (hleg : s.cfg.legal)
    (hw : s.tx.mem.wf) (hi : s.link.ts = .idle) (hpoll : s.consumer.respPoll = false) (hf : fits s.cfg p = true)
    (ht : h.timely s.cfg (buildFrame 0xD4 p)) (ha : s.link.answers = h.answers Config.ackFrame ++ rest) :
    ∃ l, issueAndWait p s = ⟨s.handshaken h (buildFrame 0xD4 p) rest l, .ok, []⟩ := by
  refine ⟨{ op := .issue, tfi := Config.tfiH2C }, ?_⟩
  rw [issueAndWait_once hpoll, opIssue, issue_script (tfiOr (some Config.tfiH2C)) p _ h rest s hleg hi hf hw ha rfl ht,
    if_pos ((isAck_iff _).mpr rfl), Reply.finishAs_ok]
  rfl

/-! ## `detect` on a script -/

theorem iso14443_4_iff (sak : Byte) : iso14443_4 sak = true ↔ sak &&& 0x20 ≠ 0 := by
  simp [iso14443_4, Config.sakIso14443_4]

/-- Chunks (a) and (b) of `detect`, answered: the header test passes, one card is there, and its UID has one of the
lengths of R125 (R123). -/
structure CardChunks (a b uid : List Byte) : Prop where
  lengthA : a.length = 8
  lcs : ((byteAt a 3).toNat + (byteAt a 4).toNat) % 256 = 0
  len : 1 ≤ (byteAt a 3).toNat
  present : byteAt a 7 ≠ 0
  lengthB : b.length = 5
  uidLength : uid.length = (byteAt b 4).toNat
  uidLegal : uid.length = 4 ∨ uid.length = 7 ∨ uid.length = 10

/-- `detect` of a card up to chunk (c), which concludes unless the card is ISO14443-4 compliant (R122, R123). -/
theorem detect_chunks {a b uid : List Byte} (hc : CardChunks a b uid) {s u : State} {q : Byte} {rest : List Answer}
    (hu : issueAndWait (detectPayload s.consumer) s = ⟨u, .ok, []⟩) (hi : u.link.ts = .idle)
    (hsel : u.link.sel = .released) (ha : u.link.answers = .ok q :: answersOf (a ++ b ++ uid) ++ rest) :
    ∃ l, detect s = (opReadResponse uid.length false (!iso14443_4 (byteAt b 3))
      (u.reading q (a ++ b) (answersOf uid ++ rest) l)).proceed chunkFailed fun uid t =>
        if iso14443_4 (byteAt b 3) then detectAts (tagOf b uid none) t else ⟨t, .tag (tagOf b uid none)⟩ := by
  obtain ⟨k, hk⟩ := opReadResponse_opens (q := q) (ds := a) (rest := answersOf b ++ (answersOf uid ++ rest)) hi hsel
    (by rw [ha]; simp [answersOf_append])
  obtain ⟨l, hl⟩ := opReadResponse_goesOn (u := u) (q := q) (ds := a) (es := b) (rest := answersOf uid ++ rest) (k := k)
  have hmem : (byteAt b 4).toNat ∈ [4, 7, 10] := by
    rw [← hc.uidLength]
    simpa using hc.uidLegal
  rw [hc.lengthA] at hk
  rw [hc.lengthB] at hl
  refine ⟨l, ?_⟩
  rw [detect_eq, hu, Reply.proceed_ok, hk, Reply.proceed_ok,
    detectTarget_reads ((headerOk_iff (by rw [hc.lengthA]; decide)).mpr ⟨hc.lcs, hc.len⟩) hc.present, hl,
    Reply.proceed_ok, detectUid_reads hmem, hc.uidLength]

/-- The record of a card, in the words of R121 and R123. -/
theorem tagOf_eq {b : List Byte} (h : b.length = 5) (uid : List Byte) (ats : Option (List Byte)) : tagOf b uid ats =
    { logical := byteAt b 0, atqa := [byteAt b 1, byteAt b 2], sak := byteAt b 3, uid := uid, ats := ats } := by
  rw [tagOf, slice_pair (by omega)]

/-- Settles O38: the handshake, then chunks (a) to (c), the last of which concludes. -/
theorem detectReadsACardWithoutAts : Obligations.DetectReadsACardWithoutAts := by
  intro s h q a b uid rest cmd f hleg hw hi hpoll hpd hcap ht ha ha8 hlcs hlen hpresent hb5 hul huid hsak
  have hc : CardChunks a b uid := ⟨ha8, hlcs, hlen, hpresent, hb5, hul, huid⟩
  have hiso : iso14443_4 (byteAt b 3) = false := by
    rw [← Bool.not_eq_true, iso14443_4_iff, not_not]
    exact hsak
  obtain ⟨k, hk⟩ := issueAndWait_script (p := cmd) hleg hw hi hpoll ((fits_iff s.cfg cmd).mpr ⟨hpd, hcap⟩) ht
    (ha.trans (List.append_assoc ..))
  obtain ⟨l, hl⟩ := detect_chunks hc hk rfl rfl (q := q) (rest := rest) rfl
  obtain ⟨m, hm⟩ := opReadResponse_concludes (u := s.handshaken h f (.ok q :: answersOf (a ++ b ++ uid) ++ rest) k)
    (q := q) (ds := a ++ b) (es := uid) (rest := rest) (k := l)
  have hdetect : (detect s).next = _ := congrArg Done.next hl
  rw [hiso, Bool.not_false, hm, Reply.proceed_ok, if_neg Bool.false_ne_true, tagOf_eq hb5] at hdetect
  exact ⟨m, 0, hdetect⟩

/-- Settles O39: as without ATS, and then chunks (d) and (e) of the open stream. -/
theorem detectReadsACardWithAts : Obligations.DetectReadsACardWithAts := by
  intro s h q n a b uid ats rest cmd f hleg hw hi hpoll hpd hcap ht ha ha8 hlcs hlen hpresent hb5 hul huid hsak hats
  have hc : CardChunks a b uid := ⟨ha8, hlcs, hlen, hpresent, hb5, hul, huid⟩
  have hiso : iso14443_4 (byteAt b 3) = true := (iso14443_4_iff _).mpr hsak
  obtain ⟨k, hk⟩ := issueAndWait_script (p := cmd) hleg hw hi hpoll ((fits_iff s.cfg cmd).mpr ⟨hpd, hcap⟩) ht
    (rest := .ok q :: answersOf (a ++ b ++ uid) ++ (answersOf [n] ++ (answersOf ats ++ rest)))
    (by rw [ha]; simp [answersOf_append])
  obtain ⟨l, hl⟩ := detect_chunks hc hk rfl rfl (q := q) rfl
  -- chunk (c), which does not conclude, and chunks (d) and (e)
  obtain ⟨x, hx⟩ := opReadResponse_goesOn (u := s.handshaken h f _ k) (q := q) (ds := a ++ b) (es := uid)
    (rest := answersOf [n] ++ (answersOf ats ++ rest)) (k := l)
  obtain ⟨y, hy⟩ := opReadResponse_goesOn (u := s.handshaken h f _ k) (q := q) (ds := a ++ b ++ uid) (es := [n])
    (rest := answersOf ats ++ rest) (k := x)
  obtain ⟨z, hz⟩ := opReadResponse_concludes (u := s.handshaken h f _ k) (q := q) (ds := a ++ b ++ uid ++ [n])
    (es := ats) (rest := rest) (k := y)
  have hdetect : (detect s).next = _ := congrArg Done.next hl
  rw [hiso, Bool.not_true, hx, Reply.proceed_ok, if_pos rfl, detectAts_eq, show 1 = [n].length from rfl, hy,
    Reply.proceed_ok, show (byteAt [n] 0).toNat = ats.length from hats.symm, hz, Reply.proceed_ok,
    tagOf_eq hb5] at hdetect
  exact ⟨z, 0, hdetect⟩

/-! ## The session operations on a script -/

/-- What `validate` leaves of the response (R68, R129). -/
theorem exchangeJudged_eq (d : Nat) (f : List Byte) (s : State) : exchangeJudged d f s =
    ⟨{ s with lcsOk := frameLcsOk f, dcsOk := frameDcsOk f, result := .ok, latch := { op := .validate } },
      if frameValid f = false then .cardErr .malformed
      else if byteAt f 7 ≠ 0 then .cardErr (.badStatus (byteAt f 7)) else .card (slice f 8 (8 + d))⟩ := by
  rw [exchangeJudged, opValidate, checkFrame, Reply.finishAs_ok]
  cases frameValid f <;> rfl

/-- Settles O42: the three are one exchange: the handshake, one full read, and `validate` of what it gave. -/
theorem sessionOperationsExchange : Obligations.SessionOperationsExchange := by
  intro s i p d k blk key data h q r rest c f hi hleg hw hts hpoll hpd hcap ht hr ha
  have hx : exec i s = (exchange p d s).next := by
    rcases hi with ⟨rfl, rfl, rfl⟩ | ⟨rfl, rfl, rfl⟩ | ⟨rfl, rfl, rfl⟩
    · cases k <;> rfl
    · rfl
    · rfl
  obtain ⟨l, hl⟩ := issueAndWait_script (p := p) hleg hw hts hpoll ((fits_iff s.cfg p).mpr ⟨hpd, hcap⟩) ht
    (ha.trans (List.append_assoc ..))
  obtain ⟨m, hm⟩ := opReadResponse_fullRead (u := s.handshaken h f (.ok q :: answersOf r ++ rest) l) (q := q) (ds := r)
    (rest := rest) rfl rfl rfl
  rw [hr] at hm
  have hexchange := congrArg Done.next (exchange_eq p d s)
  rw [hl, Reply.proceed_ok, hm, Reply.proceed_ok, exchangeJudged_eq] at hexchange
  exact ⟨_, 0, hx.trans hexchange⟩

end Sys2Proof.Machine
end

section
/-! The session operations on a session of their own (log 20), and how `detect` ends on every answer of the environment
(R126). -/

namespace Sys2Proof.Machine

/-! ## The session record is nothing an operation reads or writes (R127) -/

def State.onSession (s : State) (x : Session) : State := { s with session := x }

/-- `q`, begun with `x` as the session record. -/
def Reply.onSession (q : Reply) (x : Session) : Reply := { q with st := q.st.onSession x }

def Done.onSession (d : Done) (x : Session) : Done := { d with st := d.st.onSession x }

section
variable (x : Session)

/-- A branch of an operation is taken whatever the session record. -/
theorem Reply.ite_onSession (c : Prop) [Decidable c] (q r : Reply) :
    (if c then q else r).onSession x = if c then q.onSession x else r.onSession x :=
  apply_ite (Reply.onSession · x) c q r

theorem Reply.finishAs_onSession (q : Reply) (l : Latch) : (q.onSession x).finishAs l = (q.finishAs l).onSession x := by
  cases h : q.res == .seqFault <;> simp [Reply.finishAs, Reply.finish, Reply.onSession, State.onSession, h]

theorem issueAck_onSession (s : State) : issueAck (s.onSession x) = (issueAck s).onSession x := by
  simp only [issueAck, Reply.ite_onSession]
  rfl

theorem issuePoll_onSession (s : State) : issuePoll (s.onSession x) = (issuePoll s).onSession x := by
  simp only [issuePoll, Reply.ite_onSession, ← issueAck_onSession]
  rfl

theorem issueWrite_onSession (s : State) : issueWrite (s.onSession x) = (issueWrite s).onSession x := by
  simp only [issueWrite, Reply.ite_onSession, ← issuePoll_onSession]
  rfl

theorem putFrame_onSession (tfi : Byte) (p : List Byte) (s : State) :
    putFrame tfi p (s.onSession x) = (putFrame tfi p s).onSession x := by
  simp only [putFrame, Reply.ite_onSession]
  rfl

theorem issue_onSession (tfi : Byte) (p : List Byte) (s : State) :
    issue tfi p (s.onSession x) = (issue tfi p s).onSession x := by
  have hput := putFrame_onSession x tfi p { s with cc := .issuing }
  simp only [issue, Reply.ite_onSession, ← issueWrite_onSession]
  rw [show ({ s.onSession x with cc := .issuing } : State) = ({ s with cc := .issuing } : State).onSession x from rfl,
    hput]
  rfl

theorem opIssue_onSession (tfi : Option Byte) (p : List Byte) (s : State) :
    opIssue tfi p (s.onSession x) = (opIssue tfi p s).onSession x := by
  rw [opIssue, issue_onSession, Reply.finishAs_onSession, opIssue]

theorem opPollReady_onSession (tmo ivl : Option Nat) (s : State) :
    opPollReady tmo ivl (s.onSession x) = (opPollReady tmo ivl s).onSession x :=
  Reply.finishAs_onSession x (s.onPoll (pollReady s.cfg _ _ s.link s.poll)) _

theorem opReadResponse_onSession (len : Nat) (st co : Bool) (s : State) :
    opReadResponse len st co (s.onSession x) = (opReadResponse len st co s).onSession x :=
  Reply.finishAs_onSession x (s.onLink (readResponse s.cfg len st co s.link)) _

theorem opValidate_onSession (f : List Byte) (s : State) :
    opValidate f (s.onSession x) = (opValidate f s).onSession x :=
  Reply.finishAs_onSession x (checkFrame f s) _

theorem issueAndWait_onSession (p : List Byte) (s : State) :
    issueAndWait p (s.onSession x) = (issueAndWait p s).onSession x := by
  rw [issueAndWait, issueAndWait, opIssue_onSession, Reply.ite_onSession, ← opPollReady_onSession]
  rfl

/-- A series, begun with `x` as the session record, ends as it does without (R127). -/
theorem Reply.proceed_onSession (q : Reply) (bad : Result → Output) {cont : List Byte → State → Done}
    (h : ∀ ds t, cont ds (t.onSession x) = (cont ds t).onSession x) :
    (q.onSession x).proceed bad cont = (q.proceed bad cont).onSession x := by
  unfold Reply.proceed
  split
  · rw [if_pos ‹_›]
    rfl
  · rw [if_neg ‹_›]
    exact h ..

theorem exchange_onSession (p : List Byte) (d : Nat) (s : State) :
    exchange p d (s.onSession x) = (exchange p d s).onSession x := by
  rw [exchange_eq, exchange_eq, issueAndWait_onSession]
  refine Reply.proceed_onSession x _ _ fun _ t => ?_
  rw [opReadResponse_onSession]
  refine Reply.proceed_onSession x _ _ fun f t => ?_
  rw [exchangeJudged, opValidate_onSession]
  rfl

/-- An exchange on `x` is the exchange, but for the record it leaves. -/
theorem exchange_next_onSession (p : List Byte) (d : Nat) (s : State) :
    ∃ t, (exchange p d (s.onSession x)).next = .next t ∧
      (exchange p d s).next = .next { t with session := s.session } := by
  have hsession : (exchange p d s).st.session = s.session :=
    congrArg (fun u : Cfg × Consumer × List Request × Session => u.2.2.2) (exchange_setup p d s)
  refine ⟨_, congrArg Done.next (exchange_onSession x p d s), ?_⟩
  rw [Done.next, ← hsession]
  rfl

end

/-- Settles O43: the payload is the target's either way, and the exchange does not look at the session record. -/
theorem explicitTargetsAreSessions : Obligations.ExplicitTargetsAreSessions := by
  intro tg blk u key data k s on
  exact ⟨exchange_next_onSession ⟨tg, u⟩ (authPayload s.consumer ⟨tg, u⟩ k blk key) 0 s,
    exchange_next_onSession ⟨tg, u⟩ (readPayload s.consumer tg blk) 16 s,
    exchange_next_onSession ⟨tg, u⟩ (writePayload s.consumer tg blk data) 0 s⟩

/-! ## How `detect` ends -/

/-- `detect` has ended as R126 says: idle, with the error of a failure below, or else with a record or an
error of its own. -/
structure Done.Mapped (d : Done) : Prop where
  quiet : d.st.link.Quiet
  idle : d.st.link.ts = .idle
  timeout : d.st.result = .timeoutError → d.out = .detectErr .timeout
  failed : d.st.result ≠ .ok → d.st.result ≠ .timeoutError → d.out = .detectErr .protocol
  ok : d.st.result = .ok → (∃ r, d.out = .tag r) ∨
    ∃ e, d.out = .detectErr e ∧ (e = .protocol ∨ e = .noTag ∨ e = .malformedUid)

theorem Done.Mapped.of_ok {d : Done} (hq : d.st.link.Quiet) (hi : d.st.link.ts = .idle) (hok : d.st.result = .ok)
    (hout : (∃ r, d.out = .tag r) ∨ ∃ e, d.out = .detectErr e ∧ (e = .protocol ∨ e = .noTag ∨ e = .malformedUid)) :
    d.Mapped where
  quiet := hq
  idle := hi
  timeout h := nomatch hok.symm.trans h
  failed h := absurd hok h
  ok _ := hout

theorem Done.Mapped.of_transportError {d : Done} (hq : d.st.link.Quiet) (hi : d.st.link.ts = .idle)
    (hfail : d.st.result = .transportError) (hout : d.out = .detectErr .protocol) : d.Mapped where
  quiet := hq
  idle := hi
  timeout h := nomatch hfail.symm.trans h
  failed _ _ := hout
  ok h := nomatch hfail.symm.trans h

theorem detected_mapped {s : State} (hq : s.link.Quiet) (hi : s.link.ts = .idle) (hok : s.result = .ok)
    (t : TagRecord) : (Done.mk s (.tag t)).Mapped :=
  .of_ok hq hi hok (.inl ⟨t, rfl⟩)

/-- `read_response` where it is admitted: a quiet link, in the phase of its mode after `Ok` and idle after its one
failure (R92, R106). -/
theorem opReadResponse_phase (len : Nat) (st co : Bool) {s : State} (hq : s.link.Quiet)
    (hts : s.link.ts = if st then .idle else .streaming) : (opReadResponse len st co s).st.link.Quiet ∧
    (((opReadResponse len st co s).res = .ok ∧
        (opReadResponse len st co s).st.link.ts = if co then .idle else .streaming) ∨
      ((opReadResponse len st co s).res = .transportError ∧ (opReadResponse len st co s).st.link.ts = .idle)) := by
  have hread : (responseRead s.cfg len st s.link).Kept ∧
      (((responseRead s.cfg len st s.link).res = .ok ∧ (responseRead s.cfg len st s.link).link.ts = .streaming) ∨
        ((responseRead s.cfg len st s.link).res = .transportError ∧
          (responseRead s.cfg len st s.link).link.ts = .idle)) := by
    cases st
    · have hopen := (hq.streaming hts).expect len
      obtain ⟨hk, -, hres⟩ := readBytes_kept s.cfg len hopen hts
      rw [← continueRead_eq_readBytes s.cfg len hts] at hk hres
      exact ⟨hk, hres.imp (fun h => ⟨h.1, h.2.1⟩) id⟩
    · obtain ⟨hk, -, hres⟩ := openRead_kept s.cfg len hq hts
      rw [← beginRead_eq_openRead s.cfg len hts] at hk hres
      exact ⟨hk, hres.imp (fun h => ⟨h.1, h.2.1⟩) id⟩
  obtain ⟨hk, hres⟩ := hread
  simp only [opReadResponse, Reply.finishAs_link, Reply.finishAs_res, State.onLink_link, State.onLink_res,
    readResponse_eq]
  cases co
  · exact ⟨hk.quiet, hres⟩
  · obtain ⟨hk', hts'⟩ := closeAfter_kept hk
    refine ⟨hk'.quiet, ?_⟩
    simp only [if_true, (closeAfter_res _).1, hts', and_true]
    exact hres.imp And.left And.left

/-- A chunk of `detect`: where its read fails the error is `Protocol`, else the chunk decides (R126). -/
theorem chunk_mapped (len : Nat) (st co : Bool) {s : State} (hq : s.link.Quiet)
    (hts : s.link.ts = if st then .idle else .streaming) {cont : List Byte → State → Done}
    (hcont : ∀ ds (t : State), t.link.Quiet → (t.link.ts = if co then .idle else .streaming) → t.result = .ok →
      (cont ds t).Mapped) : ((opReadResponse len st co s).proceed chunkFailed cont).Mapped := by
  obtain ⟨hq', hres⟩ := opReadResponse_phase len st co hq hts
  have hresult := opReadResponse_result len st co s
  unfold Reply.proceed
  rcases hres with ⟨hok, hts'⟩ | ⟨hfail, hts'⟩
  · rw [if_neg (not_not.mpr hok)]
    exact hcont _ _ hq' hts' (hresult.trans hok)
  · rw [hfail] at hresult
    rw [if_pos (by simp [hfail])]
    exact .of_transportError hq' hts' hresult rfl

/-- An early exit concludes the stream by a read of no bytes, which cannot fail (R106, R123). -/
theorem concludeWith_mapped {e : DetectError} (he : e = .protocol ∨ e = .noTag ∨ e = .malformedUid) {s : State}
    (hq : s.link.Quiet) (hts : s.link.ts = .streaming) : (concludeWith e s).Mapped := by
  have hr := readResponse_ok (cfg := s.cfg) (st := false) (q := 0) (ds := []) (rest := s.link.answers) hts
    (hq.streaming hts).sel rfl true
  obtain ⟨l, hl⟩ := opReadResponse_of hr rfl
  obtain ⟨hq', hres⟩ := opReadResponse_phase 0 false true hq hts
  have hresult := opReadResponse_result 0 false true s
  have hok : (opReadResponse 0 false true s).res = .ok := congrArg Reply.res hl
  rw [hok] at hresult hres
  have hts' : (opReadResponse 0 false true s).st.link.ts = .idle := by simpa using hres
  exact .of_ok hq' hts' hresult (.inr ⟨e, rfl, he⟩)

section
variable {s : State} (hq : s.link.Quiet) (hts : s.link.ts = .streaming)
include hq hts

theorem detectAts_mapped (b uid : List Byte) : (detectAts (tagOf b uid none) s).Mapped := by
  rw [detectAts_eq]
  exact chunk_mapped 1 false false hq hts fun n t hq hts _ => chunk_mapped _ false true hq hts fun _ t hq hi hok =>
    detected_mapped hq hi hok _

theorem detectUid_mapped (b : List Byte) : (detectUid b s).Mapped := by
  by_cases hl : (byteAt b 4).toNat ∈ [4, 7, 10]
  · rw [detectUid_reads hl]
    refine chunk_mapped _ false _ hq hts fun uid t hq hts hok => ?_
    cases hiso : iso14443_4 (byteAt b 3) <;> rw [hiso] at hts
    · exact detected_mapped hq hts hok _
    · exact detectAts_mapped hq hts b uid
  · rw [detectUid_malformed hl]
    exact concludeWith_mapped (.inr (.inr rfl)) hq hts

theorem detectTarget_mapped (a : List Byte) : (detectTarget a s).Mapped := by
  by_cases hh : headerOk a = true
  · by_cases h0 : byteAt a 7 = 0
    · rw [detectTarget_noTag hh h0]
      exact concludeWith_mapped (.inr (.inl rfl)) hq hts
    · rw [detectTarget_reads hh h0]
      exact chunk_mapped 5 false false hq hts fun b t hq hts _ => detectUid_mapped hq hts b
  · rw [detectTarget_badHeader hh]
    exact concludeWith_mapped (.inl rfl) hq hts

end

/-- `issue` and the second wait, from idle, end idle (R101, R103, R120). -/
theorem issueAndWait_idle (p : List Byte) {s : State} (hq : s.link.Quiet) (hi : s.link.ts = .idle) :
    (issueAndWait p s).st.link.Quiet ∧ (issueAndWait p s).st.link.ts = .idle := by
  refine issueAndWait_keeps (P := fun u => u.link.Quiet ∧ u.link.ts = .idle) ?_ fun u _ ⟨hq, hi⟩ => ?_
  · obtain ⟨hq', hi', -⟩ := issue_idle (tfiOr (some Config.tfiH2C)) p hq hi
    rw [opIssue, Reply.finishAs_link]
    exact ⟨hq', hi'⟩
  · obtain ⟨hq', hts⟩ := pollReady_quiet u.cfg u.cfg.defaultTimeout u.cfg.defaultInterval u.poll hq
    rw [opPollReady, Reply.finishAs_link]
    exact ⟨hq', hts.trans hi⟩

theorem detect_mapped {s : State} (hq : s.link.Quiet) (hi : s.link.ts = .idle) : (detect s).Mapped := by
  rw [detect_eq]
  obtain ⟨hq', hi'⟩ := issueAndWait_idle (detectPayload s.consumer) hq hi
  have hresult := issueAndWait_result (detectPayload s.consumer) s
  have herr : detectErrorOf (issueAndWait (detectPayload s.consumer) s).res =
      if (issueAndWait (detectPayload s.consumer) s).st.result = .timeoutError then .timeout else .protocol := by
    rw [hresult, detectErrorOf_eq]
  unfold Reply.proceed
  split
  · next hne =>
    exact ⟨hq', hi', fun h => congrArg Output.detectErr (herr.trans (if_pos h)),
      fun _ h => congrArg Output.detectErr (herr.trans (if_neg h)), fun h => absurd (hresult.symm.trans h) hne⟩
  · exact chunk_mapped 8 true false hq' hi' fun a t hq hts _ => detectTarget_mapped hq hts a

/-- Settles O41, chunk by chunk: each ends `detect`, or leaves the stream open for the next. -/
theorem detectReleasesAndMapsErrors : Obligations.DetectReleasesAndMapsErrors := by
  intro s _ hsettled htraced hi
  obtain ⟨hq, hts, htimeout, hfailed, hok⟩ := detect_mapped ⟨hsettled, htraced⟩ hi
  exact ⟨_, rfl, hts, (hq.idle hts).1, htimeout, hfailed, hok⟩

end Sys2Proof.Machine
end

section
/-! `initialize` on every record (R6, R21, R161, log 28). -/

namespace Sys2Proof.Machine

/-- Settles O58: the CFG that `initialize` leaves is `resolveCfg` of the record, field by field. -/
theorem initializeRunsOnEveryRecord : Obligations.InitializeRunsOnEveryRecord := by
  intro g s
  have hcfg := initializeBlock_cfg g s
  obtain ⟨hwf, hlt⟩ := initializeBlock_mem g s
  refine ⟨_, _, _, _, _, _, _, initializeBlock_cfg_legal g s, hwf, hlt, initializeBlock_ackbuf_length g s,
    exec_initializeBlock rfl, ?_⟩
  rw [hcfg]
  refine ⟨fun o ho => ?_, fun b hb => ?_, fun b hb => ?_, fun b hb => ?_, rfl, rfl, rfl, rfl, fun h => ?_, fun h => ?_,
    fun h => ?_⟩
  · simp only [resolveCfg, ho, Option.getD_some]
  · simp only [resolveCfg, hb, Option.getD_some]
  · simp only [resolveCfg, hb, Option.getD_some]
  · simp only [resolveCfg, hb, Option.getD_some]
  · exact resolveMaxPd_of_le h _
  · exact resolveTxCap_of_ge h _
  · exact resolveInterval_of_pos h _

end Sys2Proof.Machine
end
